-- ==== Sys2Proof/Config.lean ====
section
/-!
DEFINITION. The implementation parameters (spec/00_scope.md rule R8) and the free values of the model
(spec/10_state.md rule R41). The model takes `W_SYM` and `W_CNT` as arguments: every type and every
operation that depends on them has them as `wSym` and `wCnt`. The values this hardware takes, 8 and
32, are the default arguments of the types of Word.lean and Machine/Records.lean, and make
`Sys2Proof.Machine.State` (log 1).
-/

namespace Sys2Proof.Config

/-- `W_SYM` of this hardware, the symbol width in bits (R8). -/
abbrev wSym : Nat := 8

/-- `W_CNT` of this hardware, the width of each count, of `TOTAL` and of every node weight (R8). -/
abbrev wCnt : Nat := 32

/-- The legal ranges of R8: `W_SYM` 1..13, `W_CNT` 1..32. -/
def legal (wSym wCnt : Nat) : Bool :=
  decide (1 ≤ wSym ∧ wSym ≤ 13 ∧ 1 ≤ wCnt ∧ wCnt ≤ 32)

/-- `K_MAX`, the alphabet size, `2^W_SYM` (R8). -/
abbrev kMax (wSym : Nat) : Nat := 2 ^ wSym

/-- `N_NODES`, the node arena size, `2*K_MAX - 1` (R8). -/
abbrev nNodes (wSym : Nat) : Nat := 2 * 2 ^ wSym - 1

/-- `W_IDX`, the node index width, `W_SYM + 1` (R8). -/
abbrev wIdx (wSym : Nat) : Nat := wSym + 1

/-- `L_MAX`, the longest code, `max(1, K_MAX - 1)` (R8). -/
abbrev lMax (wSym : Nat) : Nat := max 1 (2 ^ wSym - 1)

/-- `CODE_WORDS`, the 32-bit words of one code readout, `ceil(L_MAX / 32)` (R8). -/
abbrev codeWords (wSym : Nat) : Nat := (lMax wSym + 31) / 32

/-- `W_BITCNT`, the width of `ENC_BITS` and `DEC_BITS` (R8: fixed at 32). -/
abbrev wBitCnt : Nat := 32

/-- R8's column for this hardware. -/
theorem this_hardware : legal wSym wCnt = true ∧ kMax wSym = 256 ∧ nNodes wSym = 511 ∧
    wIdx wSym = 9 ∧ lMax wSym = 255 ∧ codeWords wSym = 8 := by decide

/-- FREE VALUE (log 2): the raw contents of `node[i]` that draw number `d` of the unspecified
memory contents gives. R41: "The arena and the code table may hold any contents after reset, and
the model draws them freely." It has no body, so no proof can know it. The width of an entry is that
of spec/20_memory.md rule R50: `2 + W_SYM + W_CNT + 2*W_IDX`. -/
opaque freeNode (wSym wCnt d i : Nat) : BitVec (2 + wSym + wCnt + 2 * (wSym + 1))

/-- FREE VALUE (log 2): the raw contents of `code[i]` that draw number `d` gives (R41), of width
`1 + 16 + L_MAX` (R50). -/
opaque freeCode (wSym d i : Nat) : BitVec (1 + 16 + lMax wSym)

end Sys2Proof.Config
end

