-- ==== Sys2Proof/Word.lean ====
section
/-!
DEFINITION. The words of the core: 32-bit command and response words, bytes, symbols, counts, node
indexes, bit sequences, and zero extension (spec/00_scope.md rules R8, R10, R11, R12). A type that
depends on `W_SYM` or `W_CNT` takes it as its argument; left out, it is this hardware's.
-/

namespace Sys2Proof

/-- A 32-bit command word or response word (R16, R21). -/
abbrev Word := BitVec 32

/-- One byte of the output byte stream, or the byte operand of `DEC_BYTE`. -/
abbrev Byte := BitVec 8

/-- A symbol, an unsigned `W_SYM`-bit integer (R15). -/
abbrev Sym (wSym : Nat := 8) := BitVec wSym

/-- A count, `TOTAL`, or a node weight: `W_CNT` bits (R8). -/
abbrev Count (wCnt : Nat := 32) := BitVec wCnt

/-- A node index, or `NULL`: `W_IDX = W_SYM + 1` bits (R8). -/
abbrev NodeIdx (wSym : Nat := 8) := BitVec (wSym + 1)

/-- `ENC_BITS` and `DEC_BITS` (R8: `W_BITCNT` = 32). -/
abbrev BitCount := BitVec 32

/-- A bit sequence in the order its bits are produced or consumed, first bit at the head (R12). -/
abbrev Bits := List Bool

/-- `NULL`, the "absent node" index `2^W_IDX - 1` (R8, 92_eei_decisions.md D37). -/
abbrev NodeIdx.null {wSym : Nat} : NodeIdx wSym := BitVec.allOnes (wSym + 1)

/-- The `SYM` field that names a symbol (spec/30_encoding.md rules R73, R75). -/
abbrev symField {wSym : Nat} (sym : Sym wSym) : BitVec 16 := sym.setWidth 16

/-- The `IDX` field that names a node (R76). -/
abbrev idxField {wSym : Nat} (idx : NodeIdx wSym) : BitVec 16 := idx.setWidth 16

/-- `zext_32(v)` (R11). -/
abbrev zext32 {n : Nat} (v : BitVec n) : Word := v.setWidth 32

end Sys2Proof
end

