-- ==== Sys2Proof/Syntax.lean ====
section
/-!
DEFINITION. The commands of the core: one constructor per row of spec/opcode_table.json
(spec/30_encoding.md rule R79). Operands are the fields of the command word, each taken straight
from its bits and as wide as the format gives it (R72 to R78), whatever the parameters are; their
ranges are in WellFormed.
-/

namespace Sys2Proof

/-- The fourteen commands (R79). R16: a command "plays the role an instruction plays in a
processor". -/
inductive Instr where
  /-- `NOP` (R100). -/
  | nop
  /-- `CLEAR` (R101). -/
  | clear
  /-- `REG_READ SEL` (R102). -/
  | regRead (sel : BitVec 4)
  /-- `ACCUM SYM` (R120). -/
  | accum (sym : BitVec 16)
  /-- `COUNT_READ SYM` (R121). -/
  | countRead (sym : BitVec 16)
  /-- `BUILD` (R143). -/
  | build
  /-- `NODE_READ IDX, NSEL` (R149). -/
  | nodeRead (idx : BitVec 16) (nsel : BitVec 2)
  /-- `GEN_CODES` (R171). -/
  | genCodes
  /-- `CODE_LEN SYM` (R174). -/
  | codeLen (sym : BitVec 16)
  /-- `CODE_BITS SYM, WORD` (R175). -/
  | codeBits (sym : BitVec 16) (word : BitVec 8)
  /-- `ENC_SYM SYM` (R191). -/
  | encSym (sym : BitVec 16)
  /-- `ENC_FLUSH` (R192). -/
  | encFlush
  /-- `DEC_BYTE BYTE, NBITS` (R212). -/
  | decByte (byte : Byte) (nbits : BitVec 4)
  /-- `DEC_END` (R213). -/
  | decEnd
  deriving DecidableEq, Repr

end Sys2Proof
end

