-- ==== Sys2Proof/WellFormed.lean ====
section
/-!
DEFINITION. The operand checks of the six formats that the widths of the fields do not already make
(spec/30_encoding.md rules R72 to R77).
-/

namespace Sys2Proof

/-- The operand ranges of R73 (`SYM < K_MAX`), R74 (`SEL <= 8`), R75 (`SYM < K_MAX`,
`WORD < CODE_WORDS`), R76 (`NSEL <= 2`, `IDX < N_NODES`) and R77 (`1 <= NBITS <= 8`). -/
def Instr.wf (wSym : Nat) : Instr → Bool
  | .nop => true
  | .clear => true
  | .regRead sel => sel ≤ 8
  | .accum sym => sym.toNat < Config.kMax wSym
  | .countRead sym => sym.toNat < Config.kMax wSym
  | .build => true
  | .nodeRead idx nsel => nsel ≤ 2 && idx.toNat < Config.nNodes wSym
  | .genCodes => true
  | .codeLen sym => sym.toNat < Config.kMax wSym
  | .codeBits sym word => sym.toNat < Config.kMax wSym && word.toNat < Config.codeWords wSym
  | .encSym sym => sym.toNat < Config.kMax wSym
  | .encFlush => true
  | .decByte _ nbits => 1 ≤ nbits && nbits ≤ 8
  | .decEnd => true

end Sys2Proof
end

