-- ==== Sys2Proof/Decode.lean ====
section
/-!
DEFINITION. Decoding of a 32-bit command word, total, with the two verdicts on illegal words
(spec/30_encoding.md rules R70 to R81), and the encoder written from the same tables. Decoding takes
the parameter `W_SYM`, since the operand ranges depend on it; the encoder does not need it.
-/

namespace Sys2Proof

/-- What decoding a word gives (R81): "either a command with its fields, or one of the verdicts
`ILLEGAL_OPCODE` or `ILLEGAL_OPERAND`". -/
inductive Decoded where
  | command (i : Instr)
  | illegalOpcode
  | illegalOperand
  deriving DecidableEq, Repr

/-- `OPCODE`, bits 31:24 of every command (R71). -/
def opcode (w : Word) : BitVec 8 := w.extractLsb' 24 8

/-- Format `N`, no operand: legal exactly when `w[23:0] = 0` (R72). -/
def formatN (i : Instr) (w : Word) : Decoded :=
  if w.extractLsb' 0 24 = 0 then .command i else .illegalOperand

/-- Format `S`, one symbol: legal exactly when `w[23:16] = 0` and `SYM < K_MAX` (R73). -/
def formatS (wSym : Nat) (mk : BitVec 16 → Instr) (w : Word) : Decoded :=
  if w.extractLsb' 16 8 = 0 ∧ (w.extractLsb' 0 16).toNat < Config.kMax wSym then
    .command (mk (w.extractLsb' 0 16))
  else .illegalOperand

/-- Format `R`, register selector: legal exactly when `w[23:4] = 0` and `SEL <= 8` (R74). -/
def formatR (mk : BitVec 4 → Instr) (w : Word) : Decoded :=
  if w.extractLsb' 4 20 = 0 ∧ w.extractLsb' 0 4 ≤ 8 then .command (mk (w.extractLsb' 0 4))
  else .illegalOperand

/-- Format `SW`, symbol and code word: legal exactly when `SYM < K_MAX` and `WORD < CODE_WORDS`
(R75). -/
def formatSW (wSym : Nat) (mk : BitVec 16 → BitVec 8 → Instr) (w : Word) : Decoded :=
  if (w.extractLsb' 0 16).toNat < Config.kMax wSym ∧
      (w.extractLsb' 16 8).toNat < Config.codeWords wSym then
    .command (mk (w.extractLsb' 0 16) (w.extractLsb' 16 8))
  else .illegalOperand

/-- Format `NI`, node index and field selector: legal exactly when `w[23:18] = 0`, `NSEL <= 2` and
`IDX < N_NODES` (R76). -/
def formatNI (wSym : Nat) (mk : BitVec 16 → BitVec 2 → Instr) (w : Word) : Decoded :=
  if w.extractLsb' 18 6 = 0 ∧ w.extractLsb' 16 2 ≤ 2 ∧
      (w.extractLsb' 0 16).toNat < Config.nNodes wSym then
    .command (mk (w.extractLsb' 0 16) (w.extractLsb' 16 2))
  else .illegalOperand

/-- Format `B`, byte and bit count: legal exactly when `w[23:12] = 0` and `1 <= NBITS <= 8`
(R77). -/
def formatB (mk : Byte → BitVec 4 → Instr) (w : Word) : Decoded :=
  if w.extractLsb' 12 12 = 0 ∧ 1 ≤ w.extractLsb' 8 4 ∧ w.extractLsb' 8 4 ≤ 8 then
    .command (mk (w.extractLsb' 0 8) (w.extractLsb' 8 4))
  else .illegalOperand

/-- Decoding (R81), with the opcode map of R79. Every other opcode is illegal (R80). -/
def decode (wSym : Nat) (w : Word) : Decoded :=
  match (opcode w).toNat with
  | 0x00 => formatN .nop w
  | 0x01 => formatN .clear w
  | 0x02 => formatR .regRead w
  | 0x10 => formatS wSym .accum w
  | 0x11 => formatS wSym .countRead w
  | 0x20 => formatN .build w
  | 0x21 => formatNI wSym .nodeRead w
  | 0x30 => formatN .genCodes w
  | 0x31 => formatS wSym .codeLen w
  | 0x32 => formatSW wSym .codeBits w
  | 0x40 => formatS wSym .encSym w
  | 0x41 => formatN .encFlush w
  | 0x50 => formatB .decByte w
  | 0x51 => formatN .decEnd w
  | _ => .illegalOpcode

/-- The opcodes that run while `FAULT = 1`: `0x00` (`NOP`), `0x01` (`CLEAR`) and `0x02`
(`REG_READ`) (spec/60_exceptions.md rule R244). -/
def isControlOpcode (w : Word) : Bool :=
  opcode w == 0x00 || opcode w == 0x01 || opcode w == 0x02

/-- The opcode of each command (R79). -/
def opcodeOf : Instr → BitVec 8
  | .nop => 0x00
  | .clear => 0x01
  | .regRead _ => 0x02
  | .accum _ => 0x10
  | .countRead _ => 0x11
  | .build => 0x20
  | .nodeRead _ _ => 0x21
  | .genCodes => 0x30
  | .codeLen _ => 0x31
  | .codeBits _ _ => 0x32
  | .encSym _ => 0x40
  | .encFlush => 0x41
  | .decByte _ _ => 0x50
  | .decEnd => 0x51

/-- The operand area, bits 23:0 (R71), laid out by the command's format (R72 to R77), reserved bits
0. -/
def operandArea : Instr → BitVec 24
  | .nop => 0
  | .clear => 0
  | .regRead sel => (0 : BitVec 20) ++ sel
  | .accum sym => (0 : BitVec 8) ++ sym
  | .countRead sym => (0 : BitVec 8) ++ sym
  | .build => 0
  | .nodeRead idx nsel => (0 : BitVec 6) ++ nsel ++ idx
  | .genCodes => 0
  | .codeLen sym => (0 : BitVec 8) ++ sym
  | .codeBits sym word => word ++ sym
  | .encSym sym => (0 : BitVec 8) ++ sym
  | .encFlush => 0
  | .decByte byte nbits => (0 : BitVec 12) ++ nbits ++ byte
  | .decEnd => 0

/-- The command word of a command: `OPCODE` in bits 31:24, the operand area below (R71). -/
def encode (i : Instr) : Word := opcodeOf i ++ operandArea i

/-- The decoder's answer on an instruction of `nbits` bits given as a number, bit 0 the least
significant bit of the command word. Every command is exactly one 32-bit word (R70), passed as a
whole, with no byte order (spec/20_memory.md rule R55). It is this hardware's (R8: `W_SYM = 8`). -/
def decodeTableWord (nbits w : Nat) : Option Instr :=
  match decode 8 (BitVec.ofNat 32 (w % 2 ^ nbits)) with
  | .command i => some i
  | .illegalOpcode => none
  | .illegalOperand => none

end Sys2Proof
end

