-- ==== Sys2Proof/Machine/Records.lean ====
section
/-!
DEFINITION. The records of the core's memories and interfaces: tree nodes (spec/10_state.md rule
R27), priority-queue entries (R29), code table entries (R30), responses and their error codes
(spec/60_exceptions.md rule R240), and host events (spec/40_control.md rule R105).
-/

namespace Sys2Proof.Machine

/-- The `kind` of an arena record (R27). -/
inductive NodeKind where
  /-- Slot not in the tree. -/
  | empty
  | leaf
  | internal
  | sentinel
  deriving DecidableEq, Repr

/-- The 2-bit value of a kind (R27). -/
def NodeKind.code : NodeKind → BitVec 2
  | .empty => 0
  | .leaf => 1
  | .internal => 2
  | .sentinel => 3

/-- The kind a 2-bit value stands for (R27). -/
def NodeKind.ofCode (b : BitVec 2) : NodeKind :=
  if b = 0 then .empty else if b = 1 then .leaf else if b = 2 then .internal else .sentinel

variable {wSym wCnt : Nat}

/-- One record of the node arena (R27). -/
structure NodeRec (wSym wCnt : Nat) where
  kind : NodeKind
  sym : Sym wSym
  weight : Count wCnt
  left : NodeIdx wSym
  right : NodeIdx wSym
  deriving DecidableEq, Repr

/-- The fixed empty record `{EMPTY, 0, 0, NULL, NULL}` (spec/42_tree_builder.md rule R150). -/
def NodeRec.empty : NodeRec wSym wCnt := ⟨.empty, 0, 0, .null, .null⟩

/-- The empty tree's one node `{SENTINEL, 0, 0, NULL, NULL}` (R144). -/
def NodeRec.sentinel : NodeRec wSym wCnt := ⟨.sentinel, 0, 0, .null, .null⟩

/-- The leaf of a symbol with its count (R143). -/
def NodeRec.leaf (sym : Sym wSym) (weight : Count wCnt) : NodeRec wSym wCnt :=
  ⟨.leaf, sym, weight, .null, .null⟩

/-- An internal node `{INTERNAL, 0, weight, left, right}` (R143). -/
def NodeRec.internal (weight : Count wCnt) (left right : NodeIdx wSym) : NodeRec wSym wCnt :=
  ⟨.internal, 0, weight, left, right⟩

/-- The record a raw arena entry holds: the fields of R27 from the highest bit down, in the rule's
order. Only the free contents of R41 come from raw entries (log 2). -/
def NodeRec.ofRaw (b : BitVec (2 + wSym + wCnt + 2 * (wSym + 1))) : NodeRec wSym wCnt where
  kind := .ofCode (b.extractLsb' (wSym + wCnt + 2 * (wSym + 1)) 2)
  sym := b.extractLsb' (wCnt + 2 * (wSym + 1)) wSym
  weight := b.extractLsb' (2 * (wSym + 1)) wCnt
  left := b.extractLsb' (wSym + 1) (wSym + 1)
  right := b.extractLsb' 0 (wSym + 1)

/-- One entry `(weight, index)` of the priority queue (R29, R141). -/
structure QEntry (wSym wCnt : Nat) where
  weight : Count wCnt
  index : NodeIdx wSym
  deriving DecidableEq, Repr

/-- One record of the code table (R30). The field `len` of R30 is the length of `bits`
("a bit sequence of length `len`"), stored once (log 4). -/
structure CodeRec where
  valid : Bool
  bits : Bits
  deriving DecidableEq, Repr

/-- An invalid record: `len = 0` and `bits = ε` (R30). -/
def CodeRec.invalid : CodeRec := ⟨false, []⟩

/-- `code[s].len` (R30). -/
abbrev CodeRec.len (c : CodeRec) : Nat := c.bits.length

/-- The record a raw code table entry holds: `valid`, the 16-bit `len`, and the first `len` bits of
the `L_MAX` bits, first bit highest. Only the free contents of R41 come from raw entries (log 2). -/
def CodeRec.ofRaw (b : BitVec (1 + 16 + Config.lMax wSym)) : CodeRec where
  valid := b.getMsbD 0
  bits := (List.range (min (b.extractLsb' (Config.lMax wSym) 16).toNat (Config.lMax wSym))).map
    fun i => (b.extractLsb' 0 (Config.lMax wSym)).getMsbD i

/-- The node arena `node[0 .. N_NODES-1]` (R27), with `N_NODES = 2*K_MAX - 1` entries. -/
abbrev Arena (wSym : Nat := 8) (wCnt : Nat := 32) := Vector (NodeRec wSym wCnt) (2 * 2 ^ wSym - 1)

/-- The count memory `count[0 .. K_MAX-1]` (R24), with `K_MAX = 2^W_SYM` entries. -/
abbrev CountMem (wSym : Nat := 8) (wCnt : Nat := 32) := Vector (Count wCnt) (2 ^ wSym)

/-- The code table memory `code[0 .. K_MAX-1]` (R30). -/
abbrev CodeTable (wSym : Nat := 8) := Vector CodeRec (2 ^ wSym)

/-- Unspecified arena contents, draw number `d` (R41). -/
def Arena.free (d : Nat) : Arena wSym wCnt :=
  Vector.ofFn fun i => .ofRaw (Config.freeNode wSym wCnt d i)

/-- Unspecified code table contents, draw number `d` (R41). -/
def CodeTable.free (d : Nat) : CodeTable wSym :=
  Vector.ofFn fun i => .ofRaw (Config.freeCode wSym d i)

/-- The response codes of R240. Codes 10 to 15 are never returned, so they have no constructor. -/
inductive Err where
  /-- Success. -/
  | ok
  | illegalOpcode
  | illegalOperand
  /-- `SEQUENCE`: a phase requirement is false. -/
  | sequence
  | countOverflow
  | symbolNotInTable
  | bitcountOverflow
  /-- `STRUCTURE`: never raised (R151, R241). -/
  | structureViolation
  /-- `TRUNCATED`: non-fatal, returned by `DEC_END` only (R242). -/
  | truncated
  /-- `FAULTED`: a rejection (R244). -/
  | faulted
  deriving DecidableEq, Repr

/-- The 4-bit `ERR` value (R240). -/
def Err.code : Err → BitVec 4
  | .ok => 0
  | .illegalOpcode => 1
  | .illegalOperand => 2
  | .sequence => 3
  | .countOverflow => 4
  | .symbolNotInTable => 5
  | .bitcountOverflow => 6
  | .structureViolation => 7
  | .truncated => 8
  | .faulted => 9

/-- The class "fatal" of R240: what latches `FAULT`. -/
def Err.fatal : Err → Bool
  | .ok => false
  | .illegalOpcode => true
  | .illegalOperand => true
  | .sequence => true
  | .countOverflow => true
  | .symbolNotInTable => true
  | .bitcountOverflow => true
  | .structureViolation => true
  | .truncated => false
  | .faulted => false

/-- One response `(ERR, DATA)` (spec/10_state.md rule R21). -/
structure Response where
  err : Err
  data : Word
  deriving DecidableEq, Repr

/-- One event of the host (R105): "a finite list of host events, each either a reset or a command
word". -/
inductive HostEvent where
  | reset
  | command (w : Word)
  deriving DecidableEq, Repr

end Sys2Proof.Machine
end

