-- ==== Sys2Proof/Machine/State.lean ====
section
/-!
DEFINITION. The state of the core (spec/10_state.md rules R24 to R34, R42), its value after reset
(R40), and the reasons a step can stop. `State.For` takes the parameters of spec/00_scope.md rule R8
as arguments; `State` is the state of this hardware.
-/

namespace Sys2Proof.Machine

/-- Everything the spec gives the core with parameters `W_SYM` and `W_CNT`, and the host's side of its
five interfaces (R21). -/
structure State.For (wSym wCnt : Nat) where
  /-- `count[0 .. K_MAX-1]` (R24). -/
  count : CountMem wSym wCnt
  /-- `TOTAL` (R25). -/
  total : Count wCnt
  /-- `DISTINCT` (R26). -/
  distinct : BitVec 16
  /-- `node[0 .. N_NODES-1]` (R27). -/
  node : Arena wSym wCnt
  /-- `TREE_VALID` (R28). -/
  treeValid : Bool
  /-- `ROOT` (R28). -/
  root : NodeIdx wSym
  /-- `NODE_COUNT` (R28). -/
  nodeCount : NodeIdx wSym
  /-- The priority queue, empty between commands (R29). -/
  pq : List (QEntry wSym wCnt)
  /-- `code[0 .. K_MAX-1]` (R30). -/
  code : CodeTable wSym
  /-- `CODES_VALID` (R31). -/
  codesValid : Bool
  /-- `ENC_ACC`; its length is `ENC_PENDING` (R32). -/
  encAcc : Bits
  /-- `ENC_BITS` (R32). -/
  encBits : BitCount
  /-- `DEC_CURSOR` (R33). -/
  decCursor : NodeIdx wSym
  /-- `DEC_BITS` (R33). -/
  decBits : BitCount
  /-- `FAULT` (R34). -/
  fault : Bool
  /-- `FAULT_CODE` (R34). -/
  faultCode : BitVec 4
  /-- The output byte stream so far, oldest first (R21, R42). -/
  bytesOut : List Byte
  /-- The output symbol stream so far, oldest first (R21, R42). -/
  symsOut : List (Sym wSym)
  /-- The responses so far, oldest first (R21, R105). -/
  responses : List Response
  /-- The events the host will present, next first: the command port and the reset line (R21,
  R105; log 3). -/
  port : List HostEvent
  /-- THE MODEL'S OWN, not the spec's: the number of the next free draw of unspecified memory
  contents (R41; log 2). -/
  draws : Nat
  deriving DecidableEq, Repr

/-- The state of this hardware: `W_SYM = 8`, `W_CNT = 32` (R8). -/
abbrev State := State.For 8 32

/-- The machine with parameters `W_SYM` and `W_CNT` right after reset (R40), with nothing yet emitted
and nothing presented (log 9, log 3). The arena and the code table hold free contents (R41; log 2). -/
def State.For.reset (wSym wCnt : Nat) : State.For wSym wCnt where
  count := Vector.replicate (2 ^ wSym) 0
  total := 0
  distinct := 0
  node := .free 0
  treeValid := false
  root := .null
  nodeCount := 0
  pq := []
  code := .free 0
  codesValid := false
  encAcc := []
  encBits := 0
  decCursor := .null
  decBits := 0
  fault := false
  faultCode := 0
  bytesOut := []
  symsOut := []
  responses := []
  port := []
  draws := 1

/-- This hardware right after reset. -/
def State.reset : State := State.For.reset 8 32

/-- Why a step can stop the model. Every error of the spec is a response and a next state, so only
one reason is here. -/
inductive Fault where
  /-- Raised by `GEN_CODES` and `DEC_BYTE` when the tree they walk breaks the tree invariants of
  R38: a single-child `INTERNAL` node other than the synthetic root, a path that does not end, or
  (`GEN_CODES`) an `EMPTY` slot. spec/60_exceptions.md rule R241: "A model that meets it has met a
  state this spec makes unreachable, and should stop with a model fault." SAFE (log 6). -/
  | structuralInvariant
  deriving DecidableEq, Repr

/-- Why the model can refuse an instruction. -/
inductive Refusal where
  /-- An instruction with no meaning yet; the argument is its mnemonic. Raised by no arm of `exec`:
  every command is modelled. SAFE. -/
  | notModelled (mnemonic : String)
  deriving DecidableEq, Repr

/-- The outcome of a command or of a step. -/
abbrev Outcome (wSym : Nat := 8) (wCnt : Nat := 32) :=
  Host.Outcome (State.For wSym wCnt) Fault Refusal

end Sys2Proof.Machine
end

