-- ==== Sys2Proof/Machine/Operands.lean ====
section
/-!
DEFINITION. Bit sequences against words, MSB first (spec/20_memory.md rules R53 to R55), and the
reads of the internal memories that the operands of a command select (R50).
-/

namespace Sys2Proof.Machine

variable {wSym wCnt : Nat}

/-- A bit sequence placed MSB first in `n` bits: bit `i` of the sequence at bit `n-1-i`, zeros
below its end, bits past `n` left out (R53, R55). -/
def packMsb : (n : Nat) → Bits → BitVec n
  | 0, _ => 0#0
  | n + 1, [] => BitVec.cons false (packMsb n [])
  | n + 1, b :: bs => BitVec.cons b (packMsb n bs)

/-- The first `n` bits of a word, MSB first: the `i`-th is `v[w-1-i]` (R54). -/
def firstBits {w : Nat} (v : BitVec w) (n : Nat) : Bits := (List.range n).map v.getMsbD

/-- The symbol a `SYM` field names, a `W_SYM`-bit value (spec/30_encoding.md rule R78). -/
def fieldSym (sym : BitVec 16) : Sym wSym := sym.setWidth wSym

/-- The node index an `IDX` field names, a `W_IDX`-bit value (R78). -/
def fieldIdx (idx : BitVec 16) : NodeIdx wSym := idx.setWidth (wSym + 1)

/-- `count[s]` of a count memory (R24). -/
def readCount (m : CountMem wSym wCnt) (sym : Sym wSym) : Count wCnt := m[sym.toNat]'sym.isLt

/-- `count[s] <- v` (R13, R24). -/
def writeCount (m : CountMem wSym wCnt) (sym : Sym wSym) (v : Count wCnt) : CountMem wSym wCnt :=
  m.set sym.toNat v sym.isLt

/-- `count[s]` of the state (R24). -/
def State.For.countAt (s : State.For wSym wCnt) (sym : Sym wSym) : Count wCnt :=
  readCount s.count sym

/-- `node[i]` (R27). The arena has no entry `NULL`, and no rule reads one; the read then answers the
empty record (log 5). -/
def readNode (m : Arena wSym wCnt) (i : NodeIdx wSym) : NodeRec wSym wCnt :=
  if h : i.toNat < 2 * 2 ^ wSym - 1 then m[i.toNat] else .empty

/-- `node[i]` of the state (R27). -/
def State.For.nodeAt (s : State.For wSym wCnt) (i : NodeIdx wSym) : NodeRec wSym wCnt :=
  readNode s.node i

/-- `node[i] <- r` (R13, R27). -/
def writeNode (m : Arena wSym wCnt) (i : NodeIdx wSym) (r : NodeRec wSym wCnt) : Arena wSym wCnt :=
  m.setIfInBounds i.toNat r

/-- `code[s]` of a code table (R30). -/
def readCode (m : CodeTable wSym) (sym : Sym wSym) : CodeRec := m[sym.toNat]'sym.isLt

/-- `code[s] <- r` (R13, R30). -/
def writeCode (m : CodeTable wSym) (sym : Sym wSym) (r : CodeRec) : CodeTable wSym :=
  m.set sym.toNat r sym.isLt

/-- `code[s]` of the state (R30). -/
def State.For.codeAt (s : State.For wSym wCnt) (sym : Sym wSym) : CodeRec := readCode s.code sym

/-- The record `NODE_READ` reports: `node[i]` in the tree, and the fixed empty record for a slot at
or above `NODE_COUNT` (spec/42_tree_builder.md rules R149, R150). -/
def State.For.visibleNode (s : State.For wSym wCnt) (i : NodeIdx wSym) : NodeRec wSym wCnt :=
  if i < s.nodeCount then s.nodeAt i else .empty

/-- The field group of a record that `NSEL` selects (R149): 0 is kind and symbol, 1 the weight, 2
the children. -/
def nodeField (r : NodeRec wSym wCnt) (nsel : BitVec 2) : Word :=
  if nsel = 0 then r.kind.code ++ (0 : BitVec 14) ++ r.sym.setWidth 16
  else if nsel = 1 then zext32 r.weight
  else r.left.setWidth 16 ++ r.right.setWidth 16

/-- The `DATA` of `CODE_LEN`: the valid bit at 31, the length at 15:0 (spec/43_code_table.md rule
R174). -/
def codeLenData (c : CodeRec) : Word :=
  BitVec.ofBool c.valid ++ (0 : BitVec 15) ++ BitVec.ofNat 16 c.len

/-- The `DATA` of `CODE_BITS`: bits `32*word` to `32*word + 31` of the code, the first at bit 31, 0
past the code's end (R175). -/
def codeBitsData (c : CodeRec) (word : BitVec 8) : Word :=
  packMsb 32 (c.bits.drop (32 * word.toNat))

end Sys2Proof.Machine
end

