-- ==== Sys2Proof/Machine/Flags.lean ====
section
/-!
DEFINITION. The values computed from the registers: the status flags, `STATUS`, `PARAMS` and the
registers of `REG_READ` (spec/10_state.md rules R33, R35 to R37), the tree-structure condition of
`STRUCTURE` (spec/60_exceptions.md rule R241), and the overflow conditions of R245.
-/

namespace Sys2Proof.Machine

variable {wSym wCnt : Nat}

/-- `DEC_MIDCODE`: `TREE_VALID = 1 and DEC_CURSOR != ROOT` (R33). -/
def State.For.decMidcode (s : State.For wSym wCnt) : Bool := s.treeValid && s.decCursor != s.root

/-- `ENC_PENDING`: `len(ENC_ACC)`, in the 3 bits `STATUS` gives it (R32, R35). -/
def State.For.encPending (s : State.For wSym wCnt) : BitVec 3 := BitVec.ofNat 3 s.encAcc.length

/-- `STATUS` (R35): `DISTINCT` at 31:16, 0 at 15:11, `ENC_PENDING` at 10:8, `FAULT_CODE` at 7:4 (0
while `FAULT = 0`), `DEC_MIDCODE` at 3, `FAULT` at 2, `CODES_VALID` at 1, `TREE_VALID` at 0. -/
def State.For.status (s : State.For wSym wCnt) : Word :=
  s.distinct ++ (0 : BitVec 5) ++ s.encPending ++ (if s.fault then s.faultCode else 0) ++
    BitVec.ofBool s.decMidcode ++ BitVec.ofBool s.fault ++ BitVec.ofBool s.codesValid ++
    BitVec.ofBool s.treeValid

/-- `PARAMS`: `{L_MAX[15:0], 2'b00, W_CNT[5:0], 3'b000, W_SYM[4:0]}` (R36). -/
def params (wSym wCnt : Nat) : Word :=
  BitVec.ofNat 16 (Config.lMax wSym) ++ (0 : BitVec 2) ++ BitVec.ofNat 6 wCnt ++ (0 : BitVec 3) ++
    BitVec.ofNat 5 wSym

/-- The register that `SEL` selects, zero-extended to 32 bits (R36). The selectors 9 to 15 name no
register; the operand check turns them away before this is read. -/
def State.For.regValue (s : State.For wSym wCnt) (sel : BitVec 4) : Word :=
  match sel.toNat with
  | 0 => s.status
  | 1 => zext32 s.total
  | 2 => zext32 s.root
  | 3 => zext32 s.nodeCount
  | 4 => zext32 s.encBits
  | 5 => zext32 s.decBits
  | 6 => zext32 s.decCursor
  | 7 => params wSym wCnt
  | 8 => zext32 (packMsb 8 s.encAcc)
  | _ => 0

/-- `TOTAL = 2^W_CNT - 1` (R120, R245). -/
def State.For.totalFull (s : State.For wSym wCnt) : Bool := s.total == BitVec.allOnes wCnt

/-- `b + n > 2^32 - 1` for a bit counter `b` (R191, R212, R245). -/
def bitCountOverflows (b : BitCount) (n : Nat) : Bool := b.toNat + n > 2 ^ 32 - 1

/-- An `INTERNAL` node with exactly one child that is not the one-symbol tree's synthetic root
(`ROOT` with `DISTINCT = 1` and an absent right child, R145): what `STRUCTURE` is about (R151,
R241). -/
def State.For.structureBroken (s : State.For wSym wCnt) (i : NodeIdx wSym) : Bool :=
  let r := s.nodeAt i
  r.kind == .internal && (r.left == .null) != (r.right == .null) &&
    !(i == s.root && s.distinct == 1 && r.right == .null)

end Sys2Proof.Machine
end

