-- ==== Sys2Proof/Machine/Ops.lean ====
section
/-!
DEFINITION. The shared operations of the command cycle: responding, raising an error and the fault
latch (spec/60_exceptions.md rules R241 to R246), the checks in their order (R245), the named
writes of the state, and reset and `CLEAR` (spec/10_state.md rule R40).
-/

namespace Sys2Proof.Machine

variable {wSym wCnt : Nat}

/-- `respond(err, data)` (spec/00_scope.md rule R13). -/
def State.For.respond (s : State.For wSym wCnt) (err : Err) (data : Word) : State.For wSym wCnt :=
  { s with responses := s.responses ++ [⟨err, data⟩] }

/-- `latch(state, e)` (R243): the first fatal error of a session sets `FAULT` and `FAULT_CODE`; a
later one, and a rejection, change nothing. -/
def State.For.latch (s : State.For wSym wCnt) (e : Err) : State.For wSym wCnt :=
  if e.fatal && !s.fault then { s with fault := true, faultCode := e.code } else s

/-- TAKING AN ERROR, the one shared operation (spec/00_scope.md rule R13, R243, R246): only the
fault latch changes, and the response is `(code, 0)`. -/
def State.For.raise (s : State.For wSym wCnt) (e : Err) : State.For wSym wCnt := (s.latch e).respond e 0

/-- The checks of one command in their order; the first that fails decides (R245). -/
def firstError : List (Bool × Err) → Option Err
  | [] => none
  | (failed, e) :: rest => if failed then some e else firstError rest

/-- The command cycle (spec/40_control.md rule R103): a failed check raises its error, and the
command runs when every check passes. -/
def runChecked (s : State.For wSym wCnt) (checks : List (Bool × Err)) (run : Outcome wSym wCnt) :
    Outcome wSym wCnt :=
  match firstError checks with
  | some e => .next (s.raise e)
  | none => run

/-- Steps 1 to 3 of R245 for a command that the fault gate stops (R244): the gate, then the operand
check (log 10). -/
def gate (s : State.For wSym wCnt) (i : Instr) : List (Bool × Err) :=
  [(s.fault, .faulted), (!i.wf wSym, .illegalOperand)]

/-- Steps 2 and 3 of R245 for `NOP`, `CLEAR` and `REG_READ`, which run while `FAULT = 1` (R244). -/
def noGate (wSym : Nat) (i : Instr) : List (Bool × Err) := [(!i.wf wSym, .illegalOperand)]

/-- A word that decodes to no command (R80, R245): `FAULTED` at the fault gate, else its verdict. -/
def State.For.rejectWord (s : State.For wSym wCnt) (w : Word) (verdict : Err) : State.For wSym wCnt :=
  if s.fault && !isControlOpcode w then s.raise .faulted else s.raise verdict

/-- The writes of `ACCUM` (spec/41_frequency_accumulator.md rule R120). -/
def State.For.writeCounts (s : State.For wSym wCnt) (sym : Sym wSym) (v total : Count wCnt)
    (distinct : BitVec 16) : State.For wSym wCnt :=
  { s with count := writeCount s.count sym v, total := total, distinct := distinct }

/-- The writes of `BUILD` (spec/42_tree_builder.md rule R143): the arena, `ROOT`, `NODE_COUNT`,
`TREE_VALID`, and the decoder at the root with no bit consumed. -/
def State.For.writeTree (s : State.For wSym wCnt) (node : Arena wSym wCnt)
    (root nodeCount : NodeIdx wSym) (pq : List (QEntry wSym wCnt)) :
    State.For wSym wCnt :=
  { s with node := node, root := root, nodeCount := nodeCount, pq := pq, treeValid := true,
           decCursor := root, decBits := 0 }

/-- The writes of `GEN_CODES` (spec/43_code_table.md rule R171). -/
def State.For.writeCodes (s : State.For wSym wCnt) (code : CodeTable wSym) : State.For wSym wCnt :=
  { s with code := code, codesValid := true }

/-- The writes of the encoder, and the bytes it emits (spec/44_encoder.md rules R190 to R192). -/
def State.For.writeEncoder (s : State.For wSym wCnt) (acc : Bits) (bits : BitCount) (out : List Byte) : State.For wSym wCnt :=
  { s with encAcc := acc, encBits := bits, bytesOut := s.bytesOut ++ out }

/-- The writes of the decoder, and the symbols it emits (spec/45_decoder.md rules R211 to R213). -/
def State.For.writeDecoder (s : State.For wSym wCnt) (cursor : NodeIdx wSym) (bits : BitCount)
    (out : List (Sym wSym)) : State.For wSym wCnt :=
  { s with decCursor := cursor, decBits := bits, symsOut := s.symsOut ++ out }

/-- Every register and memory at its reset value (R40): what reset and `CLEAR` do
(spec/70_reset_and_hazards.md rules R270, R271). The output streams and the responses stay (R42).
The arena and the code table take a fresh draw of free contents (R41; log 2). -/
def State.For.clearCore (s : State.For wSym wCnt) : State.For wSym wCnt :=
  { s with
    count := Vector.replicate (2 ^ wSym) 0, total := 0, distinct := 0,
    node := .free s.draws, treeValid := false, root := .null, nodeCount := 0, pq := [],
    code := .free s.draws, codesValid := false,
    encAcc := [], encBits := 0, decCursor := .null, decBits := 0,
    fault := false, faultCode := 0, draws := s.draws + 1 }

/-- The host's next event is taken, `rest` is what it presents after it (log 3). -/
def State.For.takeEvent (s : State.For wSym wCnt) (rest : List HostEvent) : State.For wSym wCnt := { s with port := rest }

/-- The command word `w` is the next thing the host presents (log 3). -/
def State.For.present (s : State.For wSym wCnt) (w : Word) : State.For wSym wCnt := { s with port := .command w :: s.port }

/-- With nothing presented the core holds all its state (R255, spec/40_control.md rule R105). -/
def State.For.idle (s : State.For wSym wCnt) : State.For wSym wCnt := s

end Sys2Proof.Machine
end

