-- ==== Sys2Proof/Machine/Builder.lean ====
section
/-!
DEFINITION. The tree builder and its priority queue: `BUILD` and `NODE_READ`
(spec/42_tree_builder.md rules R140 to R151).
-/

namespace Sys2Proof.Machine

variable {wSym wCnt : Nat}

/-- The order of queue entries (R141): by weight, then by index, both unsigned. -/
def QEntry.before (a b : QEntry wSym wCnt) : Bool :=
  a.weight < b.weight || (a.weight == b.weight && a.index < b.index)

/-- The entry of `m :: q` that comes first in the order of R141. -/
def minEntry (m : QEntry wSym wCnt) (q : List (QEntry wSym wCnt)) : QEntry wSym wCnt :=
  q.foldl (fun m e => if e.before m then e else m) m

/-- `insert(Q, e)` (R142). How the queue is arranged is not architectural (R29). -/
def insertEntry (q : List (QEntry wSym wCnt)) (e : QEntry wSym wCnt) : List (QEntry wSym wCnt) :=
  q ++ [e]

/-- `extract_min(Q)`: the first entry in the order of R141, and the queue without it (R142). -/
def extractMin : List (QEntry wSym wCnt) → Option (QEntry wSym wCnt × List (QEntry wSym wCnt))
  | [] => none
  | e :: q => some (minEntry e q, (e :: q).erase (minEntry e q))

/-- The symbols with `count[s] >= 1`, in increasing numeric order (R140). -/
def presentSyms (m : CountMem wSym wCnt) : List (Sym wSym) :=
  ((List.range (2 ^ wSym)).map (BitVec.ofNat wSym)).filter fun s => readCount m s != 0

/-- The builder at work inside one `BUILD`: the arena, the queue and the next free arena index. -/
structure Builder (wSym wCnt : Nat) where
  node : Arena wSym wCnt
  queue : List (QEntry wSym wCnt)
  next : Nat
  deriving DecidableEq, Repr

/-- `node[next] <- r` and `insert(Q, (weight, next))`: indexes are handed out in insertion order
(R142). -/
def Builder.add (b : Builder wSym wCnt) (r : NodeRec wSym wCnt) : Builder wSym wCnt where
  node := writeNode b.node (BitVec.ofNat (wSym + 1) b.next) r
  queue := insertEntry b.queue ⟨r.weight, BitVec.ofNat (wSym + 1) b.next⟩
  next := b.next + 1

/-- The leaves of the symbols, in order (R140, R143). -/
def Builder.addLeaves (b : Builder wSym wCnt) (m : CountMem wSym wCnt) (syms : List (Sym wSym)) :
    Builder wSym wCnt :=
  syms.foldl (fun b s => b.add (.leaf s (readCount m s))) b

/-- One merge (R146): the two first entries become the children, first extracted on the left, of an
internal node of their weights' sum. With fewer than two entries, which no merge of `BUILD` meets,
nothing is merged. -/
def Builder.merge (b : Builder wSym wCnt) : Builder wSym wCnt :=
  match extractMin b.queue with
  | none => b
  | some (x, q) =>
    match extractMin q with
    | none => b
    | some (y, q) =>
      ({ b with queue := q }).add (.internal (x.weight + y.weight) x.index y.index)

/-- `n` merges, one after another (R146). -/
def Builder.merges : Nat → Builder wSym wCnt → Builder wSym wCnt
  | 0, b => b
  | n + 1, b => Builder.merges n b.merge

/-- What `BUILD` makes: the arena, `ROOT`, `NODE_COUNT` and the queue it leaves (R143). -/
structure BuiltTree (wSym wCnt : Nat) where
  node : Arena wSym wCnt
  root : NodeIdx wSym
  nodeCount : NodeIdx wSym
  queue : List (QEntry wSym wCnt)
  deriving DecidableEq, Repr

/-- The tree of two symbols or more (R146): one leaf a symbol, one merge less, and the one entry
left in the queue is the root. Extraction from an empty queue, which no `BUILD` meets, names no
node. -/
def buildMerged (m : CountMem wSym wCnt) (node : Arena wSym wCnt) (syms : List (Sym wSym)) :
    BuiltTree wSym wCnt :=
  let b := Builder.merges (syms.length - 1) (Builder.addLeaves ⟨node, [], 0⟩ m syms)
  match extractMin b.queue with
  | some (e, q) => ⟨b.node, e.index, BitVec.ofNat (wSym + 1) (2 * syms.length - 1), q⟩
  | none => ⟨b.node, .null, BitVec.ofNat (wSym + 1) (2 * syms.length - 1), []⟩

/-- The tree `BUILD` makes of the count memory in a given arena (R143 to R146). Slots at or above
`NODE_COUNT` keep their contents. -/
def buildTree (m : CountMem wSym wCnt) (node : Arena wSym wCnt) (pq : List (QEntry wSym wCnt)) :
    BuiltTree wSym wCnt :=
  match presentSyms m with
  | [] => ⟨writeNode node 0 .sentinel, 0, 1, pq⟩
  | [s] =>
    ⟨writeNode (writeNode node 0 (.leaf s (readCount m s))) 1 (.internal (readCount m s) 0 .null),
      1, 2, pq⟩
  | s :: t :: rest => buildMerged m node (s :: t :: rest)

/-- `BUILD` (R143). `k` is the number of symbols with `count[s] >= 1`, which `DISTINCT` always
equals (spec/10_state.md rule R26; log 8). -/
def execBuild (s : State.For wSym wCnt) : Outcome wSym wCnt :=
  let b := buildTree s.count s.node s.pq
  runChecked s (gate s .build ++ [(s.treeValid, .sequence)])
    (.next ((s.writeTree b.node b.root b.nodeCount b.queue).respond .ok (zext32 b.nodeCount)))

/-- `NODE_READ` (R149, R150): one field group of one arena record. -/
def execNodeRead (idx : BitVec 16) (nsel : BitVec 2) (s : State.For wSym wCnt) :
    Outcome wSym wCnt :=
  runChecked s (gate s (.nodeRead idx nsel) ++ [(!s.treeValid, .sequence)])
    (.next (s.respond .ok (nodeField (s.visibleNode (fieldIdx idx)) nsel)))

end Sys2Proof.Machine
end

