-- ==== Sys2Proof/Machine/CodeTable.lean ====
section
/-!
DEFINITION. The code table: `GEN_CODES`, `CODE_LEN` and `CODE_BITS` (spec/43_code_table.md rules
R170 to R175).
-/

namespace Sys2Proof.Machine

variable {wSym wCnt : Nat}

/-- `walk(i, p)` (R171): the code of every leaf below `i`, whose path so far is `p`; a left step
appends 0, a right step 1 (R170), an absent child is not descended. `none` when the tree breaks the
invariants of R38 (log 6): a single-child node that is not the synthetic root, an `EMPTY` slot, or
a path longer than the arena (the first argument, the nodes still allowed on the path, is 0). -/
def walk (s : State.For wSym wCnt) :
    Nat → NodeIdx wSym → Bits → CodeTable wSym → Option (CodeTable wSym)
  | 0, _, _, _ => none
  | fuel + 1, i, p, table =>
    if i = .null then some table
    else
      match (s.nodeAt i).kind with
      | .empty => none
      | .sentinel => some table
      | .leaf => some (writeCode table (s.nodeAt i).sym ⟨true, p⟩)
      | .internal =>
        if s.structureBroken i then none
        else
          match walk s fuel (s.nodeAt i).left (p ++ [false]) table with
          | none => none
          | some table => walk s fuel (s.nodeAt i).right (p ++ [true]) table

/-- The table with every record invalid (R171). -/
def emptyTable : CodeTable wSym := Vector.replicate (2 ^ wSym) .invalid

/-- The table `GEN_CODES` generates from the current tree (R171). A path visits every node at most
once (spec/10_state.md rule R38 item 6), so at most `N_NODES = 2*K_MAX - 1`, and one look at an absent
child. -/
def genTable (s : State.For wSym wCnt) : Option (CodeTable wSym) :=
  walk s (2 * 2 ^ wSym) s.root [] emptyTable

/-- `GEN_CODES` (R171). -/
def execGenCodes (s : State.For wSym wCnt) : Outcome wSym wCnt :=
  runChecked s (gate s .genCodes ++ [(!s.treeValid, .sequence)])
    (match genTable s with
      | some table => .next ((s.writeCodes table).respond .ok (zext32 s.distinct))
      | none => .fault .structuralInvariant)

/-- `CODE_LEN` (R174): valid bit and length; an absent symbol reads 0. -/
def execCodeLen (sym : BitVec 16) (s : State.For wSym wCnt) : Outcome wSym wCnt :=
  runChecked s (gate s (.codeLen sym) ++ [(!s.codesValid, .sequence)])
    (.next (s.respond .ok (codeLenData (s.codeAt (fieldSym sym)))))

/-- `CODE_BITS` (R175): 32 bits of a code. -/
def execCodeBits (sym : BitVec 16) (word : BitVec 8) (s : State.For wSym wCnt) :
    Outcome wSym wCnt :=
  runChecked s (gate s (.codeBits sym word) ++ [(!s.codesValid, .sequence)])
    (.next (s.respond .ok (codeBitsData (s.codeAt (fieldSym sym)) word)))

end Sys2Proof.Machine
end

