-- ==== Sys2Proof/Machine/Control.lean ====
section
/-!
DEFINITION. The control commands `NOP`, `CLEAR` and `REG_READ` (spec/40_control.md rules R100 to
R102). They run while `FAULT = 1` (spec/60_exceptions.md rule R244).
-/

namespace Sys2Proof.Machine

variable {wSym wCnt : Nat}

/-- `NOP` (R100): `respond(OK, STATUS)`, no state changed. -/
def execNop (s : State.For wSym wCnt) : Outcome wSym wCnt :=
  runChecked s (noGate wSym .nop) (.next (s.respond .ok s.status))

/-- `CLEAR` (R101): every register and memory of R40 at its reset value, then `respond(OK, 0)`. -/
def execClear (s : State.For wSym wCnt) : Outcome wSym wCnt :=
  runChecked s (noGate wSym .clear) (.next (s.clearCore.respond .ok 0))

/-- `REG_READ` (R102): `respond(OK, zext_32(value(SEL)))`. -/
def execRegRead (sel : BitVec 4) (s : State.For wSym wCnt) : Outcome wSym wCnt :=
  runChecked s (noGate wSym (.regRead sel)) (.next (s.respond .ok (s.regValue sel)))

end Sys2Proof.Machine
end

