-- ==== Sys2Proof/Machine/Counter.lean ====
section
/-!
DEFINITION. The frequency accumulator's commands `ACCUM` and `COUNT_READ`
(spec/41_frequency_accumulator.md rules R120, R121).
-/

namespace Sys2Proof.Machine

variable {wSym wCnt : Nat}

/-- `ACCUM` (R120): one more occurrence of the symbol; the response is its new count. -/
def execAccum (sym : BitVec 16) (s : State.For wSym wCnt) : Outcome wSym wCnt :=
  let n := s.countAt (fieldSym sym)
  runChecked s
    (gate s (.accum sym) ++ [(s.treeValid, .sequence), (s.totalFull, .countOverflow)])
    (.next ((s.writeCounts (fieldSym sym) (n + 1) (s.total + 1)
        (if n = 0 then s.distinct + 1 else s.distinct)).respond .ok (zext32 (n + 1))))

/-- `COUNT_READ` (R121): `respond(OK, zext_32(count[s]))`, in every phase. -/
def execCountRead (sym : BitVec 16) (s : State.For wSym wCnt) : Outcome wSym wCnt :=
  runChecked s (gate s (.countRead sym)) (.next (s.respond .ok (zext32 (s.countAt (fieldSym sym)))))

end Sys2Proof.Machine
end

