-- ==== Sys2Proof/Machine/Decoder.lean ====
section
/-!
DEFINITION. The tree-traversal decoder: `DEC_BYTE` and `DEC_END` (spec/45_decoder.md rules R210 to
R214).
-/

namespace Sys2Proof.Machine

variable {wSym wCnt : Nat}

/-- The decoder at work inside one `DEC_BYTE`: its cursor and the symbols emitted. -/
structure Decoder (wSym : Nat) where
  cursor : NodeIdx wSym
  out : List (Sym wSym)
  deriving DecidableEq, Repr

/-- One decoder bit step `dec_bit(b)` (R211), without the count of the bit, which `DEC_BYTE` adds
for all its bits at once. `none` when the cursor is on a single-child node that is not the
synthetic root, a state R38 makes unreachable (log 6). -/
def decBit (s : State.For wSym wCnt) (d : Decoder wSym) (b : Bool) : Option (Decoder wSym) :=
  if d.cursor = .null ∨ (s.nodeAt d.cursor).kind = .sentinel then some d
  else if s.structureBroken d.cursor then none
  else
    let c := if b then (s.nodeAt d.cursor).right else (s.nodeAt d.cursor).left
    if c ≠ .null ∧ (s.nodeAt c).kind = .leaf then some ⟨s.root, d.out ++ [(s.nodeAt c).sym]⟩
    else some ⟨c, d.out⟩

/-- The bit steps of a bit sequence, first bit first (R212). -/
def decRun (s : State.For wSym wCnt) : Decoder wSym → Bits → Option (Decoder wSym)
  | d, [] => some d
  | d, b :: bs =>
    match decBit s d b with
    | none => none
    | some d => decRun s d bs

/-- `DEC_BYTE` (R212): the first `NBITS` bits of the byte; the response is the number of symbols
emitted. -/
def execDecByte (byte : Byte) (nbits : BitVec 4) (s : State.For wSym wCnt) :
    Outcome wSym wCnt :=
  runChecked s
    (gate s (.decByte byte nbits) ++
      [(!s.treeValid, .sequence), (bitCountOverflows s.decBits nbits.toNat, .bitcountOverflow)])
    (match decRun s ⟨s.decCursor, []⟩ (firstBits byte nbits.toNat) with
      | some d =>
        .next ((s.writeDecoder d.cursor (s.decBits + nbits.setWidth 32) d.out).respond
          .ok (BitVec.ofNat 32 d.out.length))
      | none => .fault .structuralInvariant)

/-- `DEC_END` (R213, R242): the payload ends; `TRUNCATED` when the cursor is not at the root. The
response carries the bits consumed, skipped ones included. -/
def execDecEnd (s : State.For wSym wCnt) : Outcome wSym wCnt :=
  runChecked s (gate s .decEnd ++ [(!s.treeValid, .sequence)])
    (.next ((s.writeDecoder s.root 0 []).respond
      (if s.decCursor ≠ s.root then .truncated else .ok) (zext32 s.decBits)))

end Sys2Proof.Machine
end

