-- ==== Sys2Proof/Machine/Encoder.lean ====
section
/-!
DEFINITION. The bit-stream encoder: `ENC_SYM` and `ENC_FLUSH` (spec/44_encoder.md rules R190 to
R194).
-/

namespace Sys2Proof.Machine

variable {wSym wCnt : Nat}

/-- The bit writer (R190): the bits that do not yet fill a byte, and the bytes emitted. -/
structure BitWriter where
  acc : Bits
  out : List Byte
  deriving DecidableEq, Repr

/-- `append_bit(b)` (R190): the byte it completes is emitted at once, MSB first. -/
def BitWriter.append (w : BitWriter) (b : Bool) : BitWriter :=
  if (w.acc ++ [b]).length = 8 then ⟨[], w.out ++ [packMsb 8 (w.acc ++ [b])]⟩
  else ⟨w.acc ++ [b], w.out⟩

/-- The bits of a code appended in order (R191). -/
def BitWriter.appendAll (w : BitWriter) (bits : Bits) : BitWriter := bits.foldl BitWriter.append w

/-- `ENC_SYM` (R191): the symbol's code is appended; the response is the number of bytes emitted. -/
def execEncSym (sym : BitVec 16) (s : State.For wSym wCnt) : Outcome wSym wCnt :=
  let c := s.codeAt (fieldSym sym)
  runChecked s
    (gate s (.encSym sym) ++
      [(!s.codesValid, .sequence), (!c.valid, .symbolNotInTable),
        (bitCountOverflows s.encBits c.len, .bitcountOverflow)])
    (let w := BitWriter.appendAll ⟨s.encAcc, []⟩ c.bits
     .next ((s.writeEncoder w.acc (s.encBits + BitVec.ofNat 32 c.len) w.out).respond
       .ok (BitVec.ofNat 32 w.out.length)))

/-- The bytes `ENC_FLUSH` emits (R192, R193): the pending bits padded with zeros, or none. -/
def flushBytes (acc : Bits) : List Byte := if acc.length > 0 then [packMsb 8 acc] else []

/-- `ENC_FLUSH` (R192): the message ends; the response is its total valid bit count. -/
def execEncFlush (s : State.For wSym wCnt) : Outcome wSym wCnt :=
  runChecked s (gate s .encFlush ++ [(!s.codesValid, .sequence)])
    (.next ((s.writeEncoder [] 0 (flushBytes s.encAcc)).respond .ok (zext32 s.encBits)))

end Sys2Proof.Machine
end

