-- ==== Sys2Proof/Machine/Dispatch.lean ====
section
/-!
DEFINITION. One arm per command (spec/30_encoding.md rule R79).
-/

namespace Sys2Proof.Machine

def exec (i : Instr) (s : State) : Host.Outcome State Fault Refusal :=
  match i with
  | .nop => Sys2Proof.Machine.execNop s
  | .clear => Sys2Proof.Machine.execClear s
  | .regRead sel => Sys2Proof.Machine.execRegRead sel s
  | .accum sym => Sys2Proof.Machine.execAccum sym s
  | .countRead sym => Sys2Proof.Machine.execCountRead sym s
  | .build => Sys2Proof.Machine.execBuild s
  | .nodeRead idx nsel => Sys2Proof.Machine.execNodeRead idx nsel s
  | .genCodes => Sys2Proof.Machine.execGenCodes s
  | .codeLen sym => Sys2Proof.Machine.execCodeLen sym s
  | .codeBits sym word => Sys2Proof.Machine.execCodeBits sym word s
  | .encSym sym => Sys2Proof.Machine.execEncSym sym s
  | .encFlush => Sys2Proof.Machine.execEncFlush s
  | .decByte byte nbits => Sys2Proof.Machine.execDecByte byte nbits s
  | .decEnd => Sys2Proof.Machine.execDecEnd s

end Sys2Proof.Machine
end

