-- ==== Sys2Proof/Machine/Command.lean ====
section
/-!
DEFINITION. One command transaction (spec/40_control.md rule R103) and one host event (R105), over the
commands' meanings `run`: `exec` for this hardware, `execFor` for any parameters (spec/00_scope.md
rule R8).
-/

namespace Sys2Proof.Machine

variable {wSym wCnt : Nat}

/-- The meaning of a command in a core with any parameters (R8). At this hardware's it is `exec`
(Sys2Proof/Laws/Exec.lean). -/
def execFor (i : Instr) (s : State.For wSym wCnt) : Outcome wSym wCnt :=
  match i with
  | .nop => execNop s
  | .clear => execClear s
  | .regRead sel => execRegRead sel s
  | .accum sym => execAccum sym s
  | .countRead sym => execCountRead sym s
  | .build => execBuild s
  | .nodeRead idx nsel => execNodeRead idx nsel s
  | .genCodes => execGenCodes s
  | .codeLen sym => execCodeLen sym s
  | .codeBits sym word => execCodeBits sym word s
  | .encSym sym => execEncSym sym s
  | .encFlush => execEncFlush s
  | .decByte byte nbits => execDecByte byte nbits s
  | .decEnd => execDecEnd s

/-- One command word on the command port (R103): decoded, then run or turned away
(spec/60_exceptions.md rules R241, R244, R245). -/
def runWord (run : Instr → State.For wSym wCnt → Outcome wSym wCnt) (w : Word)
    (s : State.For wSym wCnt) : Outcome wSym wCnt :=
  match decode wSym w with
  | .command i => run i s
  | .illegalOpcode => .next (s.rejectWord w .illegalOpcode)
  | .illegalOperand => .next (s.rejectWord w .illegalOperand)

/-- The host's next event, if it presents one (R105): a reset (spec/70_reset_and_hazards.md rule
R270) or a command word. -/
def runEvents (run : Instr → State.For wSym wCnt → Outcome wSym wCnt) (s : State.For wSym wCnt) :
    List HostEvent → Outcome wSym wCnt
  | [] => .next s.idle
  | .reset :: rest => .next (s.takeEvent rest).clearCore
  | .command w :: rest => runWord run w (s.takeEvent rest)

/-- One step of a core with any parameters (R8). -/
def stepFor (s : State.For wSym wCnt) : Outcome wSym wCnt := runEvents execFor s s.port

/-- The command word numbered as spec/opcode_table.json numbers it: bit 0 least significant. -/
def tableWord (nbits w : Nat) : Word := BitVec.ofNat 32 (w % 2 ^ nbits)

end Sys2Proof.Machine
end

