-- ==== Sys2Proof/Machine/Step.lean ====
section
/-!
DEFINITION. One step of the core: the next event the host presents (spec/40_control.md rules R103,
R105), and where the host puts a command word for the next step.
-/

namespace Sys2Proof.Machine

/-- One step: the core takes the next host event, or holds its state when there is none. -/
def step (s : State) : Host.Outcome State Fault Refusal := runEvents exec s s.port

/-- The command word is presented next on the command port; the core fetches nothing
(spec/10_state.md rule R23; log 3). -/
def State.withFetchWord (s : State) (nbits w : Nat) : State := s.present (tableWord nbits w)

end Sys2Proof.Machine
end

