-- ==== Sys2Proof/Machine/Pseudo.lean ====
section
/-!
DEFINITION. The pseudo-instructions as their expansions into commands (spec/30_encoding.md rule
R84), and the run of a list of commands.
-/

namespace Sys2Proof.Machine

variable {wSym wCnt : Nat}

/-- `status` expands to `nop` (R84). -/
def pseudoStatus : List Instr := [.nop]

/-- `count_seq s_1, ..., s_n` (R84). -/
def countSeq (syms : List (Sym wSym)) : List Instr := syms.map fun x => .accum (symField x)

/-- `encode_seq s_1, ..., s_n` (R84). -/
def encodeSeq (syms : List (Sym wSym)) : List Instr :=
  syms.map (fun x => .encSym (symField x)) ++ [.encFlush]

/-- The `dec_byte`s of `decode_payload`: 8 bits of every byte but the last, and the bits left of the
last one (R84). -/
def payloadBytes : List Byte → Nat → List Instr
  | [], _ => []
  | [b], n => [.decByte b (BitVec.ofNat 4 n)]
  | b :: bs, n => .decByte b 8 :: payloadBytes bs (n - 8)

/-- `decode_payload (b_0, ..., b_{m-1}), T` (R84). -/
def decodePayload (bytes : List Byte) (total : Nat) : List Instr :=
  payloadBytes bytes total ++ [.decEnd]

/-- `huffman_setup` of a sequence (R84). -/
def huffmanSetup (syms : List (Sym wSym)) : List Instr :=
  [.clear] ++ countSeq syms ++ [.build, .genCodes]

/-- The commands of a list, one after another (spec/40_control.md rule R105), up to the first stop
of the model. -/
def execAll (run : Instr → State.For wSym wCnt → Outcome wSym wCnt) :
    List Instr → State.For wSym wCnt → Outcome wSym wCnt
  | [], s => .next s
  | i :: is, s =>
    match run i s with
    | .next s => execAll run is s
    | .fault f => .fault f
    | .refused r => .refused r

end Sys2Proof.Machine
end

