-- ==== Sys2Proof/Safety.lean ====
section
/-!
DEFINITION. What counts as a safe step, and the invariants the spec states of the core's states
(spec/10_state.md rules R25, R26, R28, R31, R34, R38, R39, R43; spec/45_decoder.md rule R210).
-/

namespace Sys2Proof.Machine

variable {wSym wCnt : Nat}

/-- A step is safe when the core goes on: every error of the spec is a response and a next state
(spec/60_exceptions.md rules R243, R246). -/
def isNext : Outcome wSym wCnt → Bool
  | .next _ => true
  | .fault _ => false
  | .refused _ => false

/-- The sum of `count[s]` over all `s` (R25). -/
def countSum (m : CountMem wSym wCnt) : Nat := (m.toList.map BitVec.toNat).sum

/-- R25 and R26: `TOTAL` is the sum of the counts, `DISTINCT` the number of symbols counted. -/
def State.For.CountsOk (s : State.For wSym wCnt) : Prop :=
  s.total.toNat = countSum s.count ∧ s.distinct.toNat = (presentSyms s.count).length

/-- R28, R29, R31, R33: what the registers hold while there is no tree; the code table is valid
only with a tree; the priority queue is empty between commands. -/
def State.For.PhaseOk (s : State.For wSym wCnt) : Prop :=
  (s.codesValid = true → s.treeValid = true) ∧
  (s.treeValid = false →
    s.root = .null ∧ s.nodeCount = 0 ∧ s.decCursor = .null ∧ s.decBits = 0) ∧
  s.pq = []

/-- R32 and R43: `ENC_BITS mod 8 = ENC_PENDING = len(ENC_ACC)`, which is at most 7. -/
def State.For.EncoderOk (s : State.For wSym wCnt) : Prop :=
  s.encAcc.length < 8 ∧ s.encBits.toNat % 8 = s.encAcc.length

/-- R34, R241: `FAULT_CODE` is 0 while `FAULT = 0`, and the code of a fatal error some command
raises (1 to 6) while `FAULT = 1`. -/
def State.For.FaultOk (s : State.For wSym wCnt) : Prop :=
  (s.fault = false → s.faultCode = 0) ∧ (s.fault = true → 1 ≤ s.faultCode ∧ s.faultCode ≤ 6)

/-- The index names a node of the tree: a slot below `NODE_COUNT` (R28). -/
abbrev State.For.InTree (s : State.For wSym wCnt) (i : NodeIdx wSym) : Prop := i < s.nodeCount

/-- The index names an `INTERNAL` node of the tree. -/
abbrev State.For.InnerAt (s : State.For wSym wCnt) (i : NodeIdx wSym) : Prop :=
  s.InTree i ∧ (s.nodeAt i).kind = .internal

/-- R38 items 1 to 3: the size and the root of the tree, by the number of distinct symbols. -/
def State.For.TreeSize (s : State.For wSym wCnt) : Prop :=
  (s.distinct = 0 ∧ s.root = 0 ∧ s.nodeCount = 1 ∧ s.nodeAt 0 = .sentinel) ∨
  (s.distinct = 1 ∧ s.root = 1 ∧ s.nodeCount = 2 ∧
    (s.nodeAt 0).kind = .leaf ∧ s.nodeAt 1 = .internal (s.nodeAt 0).weight 0 .null) ∨
  (2 ≤ s.distinct.toNat ∧ s.nodeCount.toNat + 1 = 2 * s.distinct.toNat ∧
    s.root.toNat + 2 = 2 * s.distinct.toNat ∧
    ∀ i, s.InTree i →
      (s.nodeAt i).kind = .leaf ∨
      (s.nodeAt i).kind = .internal ∧ (s.nodeAt i).left ≠ .null ∧ (s.nodeAt i).right ≠ .null)

/-- R38 item 4 and R147: an `INTERNAL` node of two children has the sum of their weights, which
does not wrap (a single child's weight is in `TreeSize`). -/
def State.For.WeightsAdd (s : State.For wSym wCnt) : Prop :=
  ∀ i, s.InnerAt i → (s.nodeAt i).right ≠ .null →
    (s.nodeAt i).weight.toNat =
      (s.nodeAt (s.nodeAt i).left).weight.toNat + (s.nodeAt (s.nodeAt i).right).weight.toNat

/-- R38 item 5: the root's weight is `TOTAL`, a `LEAF` has its symbol's count, which is at least 1,
and every counted symbol has a leaf, its only one (R140). -/
def State.For.LeavesMatch (s : State.For wSym wCnt) : Prop :=
  (s.nodeAt s.root).weight = s.total ∧
  (∀ i, s.InTree i → (s.nodeAt i).kind = .leaf →
    s.nodeAt i = .leaf (s.nodeAt i).sym (s.countAt (s.nodeAt i).sym) ∧
      s.countAt (s.nodeAt i).sym ≠ 0) ∧
  (∀ sym, s.countAt sym ≠ 0 →
    ∃ i, s.InTree i ∧ (s.nodeAt i).kind = .leaf ∧ (s.nodeAt i).sym = sym) ∧
  (∀ i j, s.InTree i → s.InTree j → (s.nodeAt i).kind = .leaf → (s.nodeAt j).kind = .leaf →
    (s.nodeAt i).sym = (s.nodeAt j).sym → i = j)

/-- R27, R38 item 6: a child lies in the tree below its parent's index, so that no path is cyclic
(leaves and merges are indexed in creation order, R142); every node but the root is named as a child
by exactly one node, on one side. -/
def State.For.ChildrenOwned (s : State.For wSym wCnt) : Prop :=
  (∀ i, s.InnerAt i → (s.nodeAt i).left < i ∧
    ((s.nodeAt i).right ≠ .null → (s.nodeAt i).right < i ∧ (s.nodeAt i).left ≠ (s.nodeAt i).right)) ∧
  (∀ c, s.InTree c → c ≠ s.root →
    ∃ i, s.InnerAt i ∧ ((s.nodeAt i).left = c ∨ (s.nodeAt i).right = c)) ∧
  (∀ i j c, s.InnerAt i → s.InnerAt j → c ≠ .null →
    ((s.nodeAt i).left = c ∨ (s.nodeAt i).right = c) →
    ((s.nodeAt j).left = c ∨ (s.nodeAt j).right = c) → i = j)

/-- R38: what holds of the tree whenever `TREE_VALID = 1`. -/
def State.For.TreeOk (s : State.For wSym wCnt) : Prop :=
  s.TreeSize ∧ s.WeightsAdd ∧ s.LeavesMatch ∧ s.ChildrenOwned

/-- R210: between bits the cursor is an `INTERNAL` node of the tree, or the `SENTINEL` root of an
empty tree, or `NULL`, which only a one-symbol tree's absent right edge gives (R211). It never rests
on a `LEAF`. -/
def State.For.CursorOk (s : State.For wSym wCnt) : Prop :=
  (s.decCursor = .null ∧ s.distinct = 1) ∨
  (s.InTree s.decCursor ∧
    ((s.nodeAt s.decCursor).kind = .internal ∨ (s.nodeAt s.decCursor).kind = .sentinel))

/-- The node reached from `i` by the steps of a bit sequence: 0 to the left child, 1 to the right,
an absent child not descended, and only `INTERNAL` nodes descended from
(spec/43_code_table.md rule R170). -/
def State.For.follow (s : State.For wSym wCnt) : NodeIdx wSym → Bits → Option (NodeIdx wSym)
  | i, [] => some i
  | i, b :: bs =>
    let c := if b then (s.nodeAt i).right else (s.nodeAt i).left
    if (s.nodeAt i).kind = .internal ∧ c ≠ .null then s.follow c bs else none

/-- R39, R170: exactly the counted symbols have a valid code, and it is the root-to-leaf path of the
symbol's leaf; every other record is the invalid one (R30). -/
def State.For.CodesOk (s : State.For wSym wCnt) : Prop :=
  ∀ sym,
    ((s.codeAt sym).valid = true ↔ s.countAt sym ≠ 0) ∧
    ((s.codeAt sym).valid = false → s.codeAt sym = .invalid) ∧
    ((s.codeAt sym).valid = true →
      ∃ i, s.follow s.root (s.codeAt sym).bits = some i ∧ s.InTree i ∧
        (s.nodeAt i).kind = .leaf ∧ (s.nodeAt i).sym = sym)

/-- The invariants of the core, together. -/
def State.For.Inv (s : State.For wSym wCnt) : Prop :=
  s.CountsOk ∧ s.PhaseOk ∧ s.EncoderOk ∧ s.FaultOk ∧
  (s.treeValid = true → s.TreeOk ∧ s.CursorOk) ∧ (s.codesValid = true → s.CodesOk)

/-- Every register and memory at the value R40 gives it after reset and `CLEAR`. The arena and the
code table are not named: R40 leaves them unspecified (R41). -/
def State.For.AtReset (s : State.For wSym wCnt) : Prop :=
  (∀ sym, s.countAt sym = 0) ∧ s.total = 0 ∧ s.distinct = 0 ∧ s.treeValid = false ∧
  s.root = .null ∧ s.nodeCount = 0 ∧ s.pq = [] ∧ s.codesValid = false ∧ s.encAcc = [] ∧
  s.encBits = 0 ∧ s.decCursor = .null ∧ s.decBits = 0 ∧ s.fault = false ∧ s.faultCode = 0

/-- Two states that differ at most in contents no command can observe (R41, R150): arena slots at or
above `NODE_COUNT` (the whole arena while `TREE_VALID = 0`), the code table while
`CODES_VALID = 0`, and the number of the next free draw. -/
def State.For.SameVisible (s t : State.For wSym wCnt) : Prop :=
  t = { s with node := t.node, code := t.code, draws := t.draws } ∧
  (s.treeValid = true → ∀ i, s.InTree i → s.nodeAt i = t.nodeAt i) ∧
  (s.codesValid = true → s.code = t.code)

end Sys2Proof.Machine
end

