-- ==== Sys2Proof/Certificates/Slice0/Obligations.lean ====
section
/-!
DEFINITION. The statements for the provers. Each docstring names the rule of spec/ it formalises.
Where a statement gives the next state whole, as an update of the state before, every field the
update does not name is unchanged: that is the command's frame. `exec`, `step` and `State` are this
hardware's (spec/00_scope.md rule R8: `W_SYM = 8`, `W_CNT = 32`); the statements on decoding that name
`wSym` hold for every `W_SYM`. A statement about `step` reads the
host's events from `port`, the model's form of R105's list of events (log 3).
-/

open Sys2Proof Sys2Proof.Machine

/-! ## Words the statements use -/

/-- The operand checks of R72 to R77 on the bits of a word, by opcode. -/
def Sys2Proof.Machine.specOperandFails (w : Word) (op : Nat) : Bool :=
  let sym := (w.extractLsb' 0 16).toNat
  if op ∈ [0x00, 0x01, 0x20, 0x30, 0x41, 0x51] then (w.extractLsb' 0 24).toNat ≠ 0
  else if op = 0x02 then (w.extractLsb' 4 20).toNat ≠ 0 || (w.extractLsb' 0 4).toNat > 8
  else if op ∈ [0x10, 0x11, 0x31, 0x40] then (w.extractLsb' 16 8).toNat ≠ 0 || sym ≥ 256
  else if op = 0x32 then sym ≥ 256 || (w.extractLsb' 16 8).toNat ≥ 8
  else if op = 0x21 then
    (w.extractLsb' 18 6).toNat ≠ 0 || (w.extractLsb' 16 2).toNat > 2 || sym ≥ 511
  else if op = 0x50 then
    (w.extractLsb' 12 12).toNat ≠ 0 || (w.extractLsb' 8 4).toNat = 0 ||
      (w.extractLsb' 8 4).toNat > 8
  else false

/-- The phase requirements of R104, by opcode: what is false raises `SEQUENCE`. -/
def Sys2Proof.Machine.specPhaseFails (s : State) (op : Nat) : Bool :=
  if op ∈ [0x10, 0x20] then s.treeValid
  else if op ∈ [0x21, 0x30, 0x50, 0x51] then !s.treeValid
  else if op ∈ [0x31, 0x32, 0x40, 0x41] then !s.codesValid
  else false

/-- The checks of R245 on the bits of a word, in the rule's order. -/
def Sys2Proof.Machine.specChecks (s : State) (w : Word) : Option Err :=
  let op := (w.extractLsb' 24 8).toNat
  let code := s.codeAt (w.extractLsb' 0 8)
  if s.fault && !(op ∈ [0x00, 0x01, 0x02] : Bool) then some .faulted
  else if ¬ op ∈ [0x00, 0x01, 0x02, 0x10, 0x11, 0x20, 0x21, 0x30, 0x31, 0x32, 0x40, 0x41, 0x50,
      0x51] then some .illegalOpcode
  else if specOperandFails w op then some .illegalOperand
  else if specPhaseFails s op then some .sequence
  else if op = 0x10 ∧ s.total.toNat = 2 ^ 32 - 1 then some .countOverflow
  else if op = 0x40 ∧ code.valid = false then some .symbolNotInTable
  else if op = 0x40 ∧ s.encBits.toNat + code.bits.length > 2 ^ 32 - 1 then some .bitcountOverflow
  else if op = 0x50 ∧ s.decBits.toNat + (w.extractLsb' 8 4).toNat > 2 ^ 32 - 1 then
    some .bitcountOverflow
  else none

/-- The queue of R146 holds index `x` before merge `m` of `k` leaves: it is a leaf or an earlier
merge, and no earlier merge took it as a child. -/
def Sys2Proof.Machine.Available (t : State) (k m : Nat) (x : NodeIdx) : Prop :=
  x.toNat < k + m ∧
  ∀ j, j < m → (t.nodeAt (BitVec.ofNat (8 + 1) (k + j))).left ≠ x ∧
    (t.nodeAt (BitVec.ofNat (8 + 1) (k + j))).right ≠ x

/-- The order of R141 between two nodes' queue entries: by weight, then by index. -/
def Sys2Proof.Machine.EntryBefore (t : State) (x y : NodeIdx) : Prop :=
  (t.nodeAt x).weight.toNat < (t.nodeAt y).weight.toNat ∨
  ((t.nodeAt x).weight = (t.nodeAt y).weight ∧ x.toNat < y.toNat)

/-! ## Encoding (spec/30_encoding.md) -/

/-- R70 to R79: decoding the word of a well-formed command gives it back, for every `W_SYM`. -/
def Obligations.DecodeOfEncode : Prop :=
  ∀ (wSym : Nat) (i : Instr), i.wf wSym = true → decode wSym (encode i) = .command i

/-- R71, R80: a word that decodes to a command is that command's one word, so no reserved bit is
set, and the command's operands are in range, for every `W_SYM`. -/
def Obligations.EncodeOfDecode : Prop :=
  ∀ (wSym : Nat) (w : Word) (i : Instr), decode wSym w = .command i →
    encode i = w ∧ i.wf wSym = true

/-- R72 to R77: the words of each format that are legal, and the fields taken from them, for every
`W_SYM`: `K_MAX` is `2^W_SYM`, `N_NODES` is `2*K_MAX - 1`, `CODE_WORDS` is
`ceil(max(1, K_MAX - 1) / 32)` (R8). -/
def Obligations.FormatsLegalExactly : Prop :=
  ∀ wSym : Nat,
  (∀ (w : Word) (op : BitVec 8) (i : Instr),
    (op, i) ∈ [((0x00 : BitVec 8), Instr.nop), (0x01, .clear), (0x20, .build), (0x30, .genCodes),
      (0x41, .encFlush), (0x51, .decEnd)] →
    w.extractLsb' 24 8 = op →
    decode wSym w = if w.extractLsb' 0 24 = 0 then .command i else .illegalOperand) ∧
  (∀ (w : Word) (op : BitVec 8) (mk : BitVec 16 → Instr),
    (op = 0x10 ∧ mk = .accum) ∨ (op = 0x11 ∧ mk = .countRead) ∨ (op = 0x31 ∧ mk = .codeLen) ∨
      (op = 0x40 ∧ mk = .encSym) →
    w.extractLsb' 24 8 = op →
    decode wSym w =
      if w.extractLsb' 16 8 = 0 ∧ (w.extractLsb' 0 16).toNat < 2 ^ wSym then
        .command (mk (w.extractLsb' 0 16))
      else .illegalOperand) ∧
  (∀ w : Word, w.extractLsb' 24 8 = 0x02 →
    decode wSym w = if w.extractLsb' 4 20 = 0 ∧ (w.extractLsb' 0 4).toNat ≤ 8 then
        .command (.regRead (w.extractLsb' 0 4))
      else .illegalOperand) ∧
  (∀ w : Word, w.extractLsb' 24 8 = 0x32 →
    decode wSym w =
      if (w.extractLsb' 0 16).toNat < 2 ^ wSym ∧
          (w.extractLsb' 16 8).toNat < (max 1 (2 ^ wSym - 1) + 31) / 32 then
        .command (.codeBits (w.extractLsb' 0 16) (w.extractLsb' 16 8))
      else .illegalOperand) ∧
  (∀ w : Word, w.extractLsb' 24 8 = 0x21 →
    decode wSym w =
      if w.extractLsb' 18 6 = 0 ∧ (w.extractLsb' 16 2).toNat ≤ 2 ∧
          (w.extractLsb' 0 16).toNat < 2 * 2 ^ wSym - 1 then
        .command (.nodeRead (w.extractLsb' 0 16) (w.extractLsb' 16 2))
      else .illegalOperand) ∧
  (∀ w : Word, w.extractLsb' 24 8 = 0x50 →
    decode wSym w =
      if w.extractLsb' 12 12 = 0 ∧ 1 ≤ (w.extractLsb' 8 4).toNat ∧ (w.extractLsb' 8 4).toNat ≤ 8
      then .command (.decByte (w.extractLsb' 0 8) (w.extractLsb' 8 4))
      else .illegalOperand)

/-- R79: one word of each family, written out from its encoding. -/
def Obligations.SampleWordsDecode : Prop :=
  decode 8 0x02000007 = .command (.regRead 7) ∧
  decode 8 0x10000061 = .command (.accum 0x61) ∧
  decode 8 0x21020004 = .command (.nodeRead 4 2) ∧
  decode 8 0x32070061 = .command (.codeBits 0x61 7) ∧
  decode 8 0x40000062 = .command (.encSym 0x62) ∧
  decode 8 0x500006C0 = .command (.decByte 0xC0 6) ∧
  decode 8 0x03000000 = .illegalOpcode ∧ decode 8 0x210001FF = .illegalOperand

/-! ## The step (spec/40_control.md R103, R105) -/

/-- R103 (log 3): a presented word that decodes to a command runs it; the step takes the word off
the port first and does nothing else. -/
def Obligations.StepRunsDecodedCommand : Prop :=
  ∀ (s : State) (w : Word) (rest : List HostEvent) (i : Instr),
    s.port = .command w :: rest → decode 8 w = .command i →
    step s = exec i { s with port := rest }

/-- R103, R23 (log 3): presenting a word makes the very next step run it, on the state as it was. -/
def Obligations.PresentedWordRunsNext : Prop :=
  ∀ (s : State) (w : Word), step (s.withFetchWord 32 w.toNat) = runWord exec w s

/-- R255, R105 (log 3): with nothing presented the core holds all its state. -/
def Obligations.StepHoldsStateWhenIdle : Prop :=
  ∀ s : State, s.port = [] → step s = .next s

/-- R40: the reset state, a reset event (log 3) and `CLEAR` each give every register its reset
value. A reset event keeps the outputs and answers nothing (R270, R42); `CLEAR` answers (OK, 0)
(R101). -/
def Obligations.ResetAndClearValues : Prop :=
  State.reset.AtReset ∧
  (∀ (s : State) (rest : List HostEvent), s.port = .reset :: rest →
    ∃ t, step s = .next t ∧ t.AtReset ∧ t.bytesOut = s.bytesOut ∧ t.symsOut = s.symsOut ∧
      t.responses = s.responses ∧ t.port = rest) ∧
  (∀ s : State, ∃ t, exec .clear s = .next t ∧ t.AtReset ∧ t.bytesOut = s.bytesOut ∧
    t.symsOut = s.symsOut ∧ t.responses = s.responses ++ [⟨.ok, 0⟩] ∧ t.port = s.port)

/-- R271: `CLEAR` and reset leave the core in the same state, but for the answer of `CLEAR`. That
the unspecified contents (R41) are the same too is the model's choice of draws (log 2, log 3). -/
def Obligations.ClearSameAsReset : Prop :=
  ∀ (s : State) (rest : List HostEvent), s.port = .reset :: rest →
    ∃ u, step s = .next u ∧
      exec .clear { s with port := rest } =
        .next { u with responses := u.responses ++ [⟨.ok, 0⟩] }

/-- R272: what the first reads answer after every reset, in every state with the reset values, which
`State.reset`, a reset event and `CLEAR` give (ResetAndClearValues). -/
def Obligations.ReadsAfterReset : Prop :=
  ∀ s : State, s.AtReset →
    exec .nop s = .next { s with responses := s.responses ++ [⟨.ok, 0⟩] } ∧
    exec (.regRead 2) s = .next { s with responses := s.responses ++ [⟨.ok, 0x1FF⟩] } ∧
    ∀ x : Sym, exec (.countRead (symField x)) s =
      .next { s with responses := s.responses ++ [⟨.ok, 0⟩] }

/-! ## Errors (spec/60_exceptions.md) -/

/-- R243: raising an error appends the response (code, 0), and sets the latch when the error is
fatal and no error is latched; nothing else changes. -/
def Obligations.RaiseLatchesFirstFatal : Prop :=
  ∀ (s : State) (e : Err),
    (e.fatal = true → s.fault = false →
      s.raise e = { s with fault := true, faultCode := e.code,
                           responses := s.responses ++ [⟨e, 0⟩] }) ∧
    ((e.fatal = false ∨ s.fault = true) →
      s.raise e = { s with responses := s.responses ++ [⟨e, 0⟩] })

/-- R240: the response codes and their class. -/
def Obligations.ErrorCodes : Prop :=
  [Err.ok, .illegalOpcode, .illegalOperand, .sequence, .countOverflow, .symbolNotInTable,
    .bitcountOverflow, .structureViolation, .truncated, .faulted].map Err.code =
    [0, 1, 2, 3, 4, 5, 6, 7, 8, 9] ∧
  (∀ e : Err, e.code.toNat ≤ 9) ∧
  (∀ e : Err, e.fatal = true ↔ 1 ≤ e.code.toNat ∧ e.code.toNat ≤ 7)

/-- R245: the checks on one command word in the rule's order, stated on the bits of the word: the
first that fails is the error raised, and a word that passes them all is a command whose response
says OK or TRUNCATED. -/
def Obligations.ChecksInOrder : Prop :=
  ∀ (s : State) (w : Word),
    match specChecks s w with
    | some e => runWord exec w s = .next (s.raise e)
    | none => (∃ i, decode 8 w = .command i) ∧
        ∀ t, runWord exec w s = .next t →
          ∃ r, t.responses = s.responses ++ [r] ∧ (r.err = .ok ∨ r.err = .truncated)

/-- R244: the fault gate. While `FAULT = 1` a word whose opcode is not 0, 1 or 2, legal or not, is
answered (FAULTED, 0) and changes nothing; the three control commands still decode and check their
operands and run. -/
def Obligations.FaultGate : Prop :=
  ∀ (s : State) (w : Word), s.fault = true →
    (¬ (w.extractLsb' 24 8).toNat ≤ 2 →
      runWord exec w s = .next { s with responses := s.responses ++ [⟨.faulted, 0⟩] }) ∧
    ((w.extractLsb' 24 8).toNat ≤ 2 →
      (decode 8 w = .illegalOperand ∧
        runWord exec w s = .next { s with responses := s.responses ++ [⟨.illegalOperand, 0⟩] }) ∨
      (∃ i t, decode 8 w = .command i ∧ runWord exec w s = .next t ∧
        ∃ d, t.responses = s.responses ++ [⟨.ok, d⟩]))

/-- R14, R246: every error is precise. A command gives exactly one response; when its error is not
OK or TRUNCATED, the next state is the one `raise` gives, and the error is one a command raises
(never STRUCTURE, R151). -/
def Obligations.ErrorsArePrecise : Prop :=
  ∀ (i : Instr) (s t : State), exec i s = .next t →
    ∃ r, t.responses = s.responses ++ [r] ∧ r.err ≠ .structureViolation ∧
      (r.err = .ok ∨ (r.err = .truncated ∧ i = .decEnd) ∨
        (r.err ≠ .truncated ∧ t = s.raise r.err))

/-- R34, R248 (log 3): a latched fault stays, with its code, until reset or `CLEAR`, whatever the
word. -/
def Obligations.FaultStaysLatched : Prop :=
  ∀ (s t : State) (w : Word) (rest : List HostEvent),
    s.port = .command w :: rest → s.fault = true → decode 8 w ≠ .command .clear → step s = .next t →
    t.fault = true ∧ t.faultCode = s.faultCode

/-- R241, R151 (log 6): the model's only stop. A tree with a single-child node that is not the
synthetic root stops `GEN_CODES` when it is the root, and `DEC_BYTE` when the cursor is on it. -/
def Obligations.BrokenTreeStopsModel : Prop :=
  (∀ s : State, s.fault = false → s.treeValid = true → s.root ≠ .null →
    s.structureBroken s.root = true → exec .genCodes s = .fault .structuralInvariant) ∧
  (∀ (s : State) (byte : Byte) (nbits : BitVec 4), s.fault = false → s.treeValid = true →
    1 ≤ nbits.toNat → nbits.toNat ≤ 8 → s.decBits.toNat + nbits.toNat ≤ 2 ^ 32 - 1 →
    s.decCursor ≠ .null → s.structureBroken s.decCursor = true →
    exec (.decByte byte nbits) s = .fault .structuralInvariant)

/-! ## Control commands (spec/40_control.md, spec/10_state.md R35, R36) -/

/-- R100: `NOP` answers (OK, STATUS) in every state and changes nothing else. -/
def Obligations.NopAnswersStatus : Prop :=
  ∀ s : State, exec .nop s = .next { s with responses := s.responses ++ [⟨.ok, s.status⟩] }

/-- R35, R33, R32: the fields of `STATUS`. -/
def Obligations.StatusLayout : Prop :=
  ∀ s : State,
    s.status.getLsbD 0 = s.treeValid ∧ s.status.getLsbD 1 = s.codesValid ∧
    s.status.getLsbD 2 = s.fault ∧
    s.status.getLsbD 3 = (s.treeValid && decide (s.decCursor ≠ s.root)) ∧
    s.status.extractLsb' 4 4 = (if s.fault then s.faultCode else 0) ∧
    s.status.extractLsb' 8 3 = BitVec.ofNat 3 s.encAcc.length ∧
    s.status.extractLsb' 11 5 = 0 ∧ s.status.extractLsb' 16 16 = s.distinct

/-- R36, R102: `REG_READ` answers the selected register zero-extended, in every state, and changes
nothing else; a selector above 8 is `ILLEGAL_OPERAND`. -/
def Obligations.RegReadValues : Prop :=
  ∀ s : State,
    (∀ sel : BitVec 4, sel.toNat ≤ 8 →
      ∃ v, exec (.regRead sel) s = .next { s with responses := s.responses ++ [⟨.ok, v⟩] } ∧
        (sel = 0 → v = s.status) ∧ (sel = 1 → v.toNat = s.total.toNat) ∧
        (sel = 2 → v.toNat = s.root.toNat) ∧ (sel = 3 → v.toNat = s.nodeCount.toNat) ∧
        (sel = 4 → v.toNat = s.encBits.toNat) ∧ (sel = 5 → v.toNat = s.decBits.toNat) ∧
        (sel = 6 → v.toNat = s.decCursor.toNat) ∧ (sel = 7 → v = 0x00FF2008) ∧
        (sel = 8 → v.toNat < 256 ∧
          ∀ i, i < 8 → v.getLsbD (7 - i) = s.encAcc.getD i false)) ∧
    (∀ sel : BitVec 4, 8 < sel.toNat → exec (.regRead sel) s = .next (s.raise .illegalOperand))

/-! ## Frequency accumulator (spec/41_frequency_accumulator.md) -/

/-- R120: `ACCUM` with room and no tree counts one occurrence: the symbol's count and `TOTAL` grow
by 1, `DISTINCT` when the symbol was absent; the answer is the new count. Nothing else changes. -/
def Obligations.AccumCounts : Prop :=
  ∀ (sym : Sym) (s : State), s.fault = false → s.treeValid = false →
    s.total.toNat < 2 ^ 32 - 1 →
    ∃ m : CountMem,
      exec (.accum (symField sym)) s = .next { s with
        count := m, total := s.total + 1,
        distinct := if s.countAt sym = 0 then s.distinct + 1 else s.distinct,
        responses := s.responses ++ [⟨.ok, s.countAt sym + 1⟩] } ∧
      ∀ x : Sym, readCount m x = if x = sym then s.countAt sym + 1 else s.countAt x

/-- R121: `COUNT_READ` answers the count, in every phase, and changes nothing else. -/
def Obligations.CountReadAnswers : Prop :=
  ∀ (sym : Sym) (s : State), s.fault = false →
    exec (.countRead (symField sym)) s =
      .next { s with responses := s.responses ++ [⟨.ok, s.countAt sym⟩] }

/-- R122: after the `ACCUM`s of a sequence from cleared counts, `count[s]` is the number of
occurrences of `s`, `TOTAL` the length and `DISTINCT` the number of distinct symbols, in whatever
order the symbols came. -/
def Obligations.AccumsCountOccurrences : Prop :=
  ∀ (xs : List Sym) (s : State), s.AtReset → xs.length ≤ 2 ^ 32 - 1 →
    ∃ t, execAll exec (countSeq xs) s = .next t ∧
      (∀ x : Sym, (t.countAt x).toNat = xs.count x) ∧ t.total.toNat = xs.length ∧
      t.distinct.toNat = xs.dedup.length

/-- R24, R25, R26: only `ACCUM` and `CLEAR` write the counts, `TOTAL` and `DISTINCT`. -/
def Obligations.OnlyAccumWritesCounts : Prop :=
  ∀ (i : Instr) (s t : State), (∀ sym, i ≠ .accum sym) → i ≠ .clear → exec i s = .next t →
    t.count = s.count ∧ t.total = s.total ∧ t.distinct = s.distinct

/-! ## Tree builder (spec/42_tree_builder.md) -/

/-- R143: `BUILD` with no tree completes. It writes the arena, `ROOT`, `NODE_COUNT` and
`TREE_VALID`, puts the decoder at the root with no bit consumed, leaves the queue empty, and answers
`NODE_COUNT`. Nothing else changes, and slots at or above `NODE_COUNT` keep their contents. -/
def Obligations.BuildCompletes : Prop :=
  ∀ s : State, s.fault = false → s.treeValid = false → s.pq = [] →
    ∃ (node : Arena) (r n : NodeIdx),
      exec .build s = .next { s with
        node := node, root := r, nodeCount := n, treeValid := true, decCursor := r,
        decBits := 0, responses := s.responses ++ [⟨.ok, n.setWidth 32⟩] } ∧
      ∀ i : NodeIdx, ¬ i < n → readNode node i = s.nodeAt i

/-- R144: the empty tree. -/
def Obligations.BuildEmptyTree : Prop :=
  ∀ s : State, s.fault = false → s.treeValid = false → (∀ sym, s.countAt sym = 0) →
    ∃ t, exec .build s = .next t ∧ t.root = 0 ∧ t.nodeCount = 1 ∧
      t.nodeAt 0 = ⟨.sentinel, 0, 0, .null, .null⟩

/-- R145: the tree of one symbol, a leaf below a synthetic root with an absent right child. -/
def Obligations.BuildOneSymbolTree : Prop :=
  ∀ (s : State) (sym : Sym), s.fault = false → s.treeValid = false → s.countAt sym ≠ 0 →
    (∀ x, x ≠ sym → s.countAt x = 0) →
    ∃ t, exec .build s = .next t ∧ t.root = 1 ∧ t.nodeCount = 2 ∧
      t.nodeAt 0 = ⟨.leaf, sym, s.countAt sym, .null, .null⟩ ∧
      t.nodeAt 1 = ⟨.internal, 0, s.countAt sym, 0, .null⟩

/-- R140, R142, R146: the tree of two symbols or more. Leaves stand in ascending symbol order; each
of the `k - 1` merges takes the two entries of the queue that come first by (weight, index), the
first as the left child; the root is at `2k - 2`. -/
def Obligations.BuildMergesGreedily : Prop :=
  ∀ s : State, s.fault = false → s.treeValid = false →
    2 ≤ (presentSyms s.count).length →
    ∃ t k, exec .build s = .next t ∧ k = (presentSyms s.count).length ∧
      t.nodeCount.toNat = 2 * k - 1 ∧ t.root.toNat = 2 * k - 2 ∧
      (∀ (i : Nat) (sym : Sym), (presentSyms s.count)[i]? = some sym →
        t.nodeAt (BitVec.ofNat (8 + 1) i) = ⟨.leaf, sym, s.countAt sym, .null, .null⟩) ∧
      ∀ m, m < k - 1 →
        ∃ a b, t.nodeAt (BitVec.ofNat (8 + 1) (k + m)) =
            ⟨.internal, 0, (t.nodeAt a).weight + (t.nodeAt b).weight, a, b⟩ ∧
          a ≠ b ∧ Available t k m a ∧ Available t k m b ∧
          (∀ x, Available t k m x → x ≠ a → EntryBefore t a x) ∧
          (∀ x, Available t k m x → x ≠ a → x ≠ b → EntryBefore t b x)

/-- R38, R147, R210: the tree `BUILD` makes of a count memory has every tree invariant, and the
decoder's cursor is in place. -/
def Obligations.BuildMakesWellFormedTree : Prop :=
  ∀ s : State, s.fault = false → s.treeValid = false → s.CountsOk →
    ∃ t, exec .build s = .next t ∧ t.TreeOk ∧ t.CursorOk

/-- R148: equal count memories give identical trees, whatever the states hold otherwise. -/
def Obligations.EqualCountsEqualTrees : Prop :=
  ∀ s t : State, s.fault = false → t.fault = false → s.treeValid = false → t.treeValid = false →
    s.count = t.count →
    ∃ s' t', exec .build s = .next s' ∧ exec .build t = .next t' ∧ s'.root = t'.root ∧
      s'.nodeCount = t'.nodeCount ∧ ∀ i, s'.InTree i → s'.nodeAt i = t'.nodeAt i

/-- R149, R150, R27: `NODE_READ` answers the selected field group of the record, or of the fixed empty
record at or above `NODE_COUNT`, and changes nothing else. The kinds read 0 `EMPTY`, 1 `LEAF`,
2 `INTERNAL`, 3 `SENTINEL`. -/
def Obligations.NodeReadAnswers : Prop :=
  ∀ (idx : NodeIdx) (nsel : BitVec 2) (s : State), s.fault = false → s.treeValid = true →
    idx.toNat ≤ 510 → nsel.toNat ≤ 2 →
    ∃ (v : Word) (r : NodeRec 8 32),
      exec (.nodeRead (idxField idx) nsel) s = .next { s with responses := s.responses ++ [⟨.ok, v⟩] } ∧
      (r = if idx < s.nodeCount then s.nodeAt idx else ⟨.empty, 0, 0, .null, .null⟩) ∧
      (nsel = 0 → v.extractLsb' 30 2 = (match r.kind with
          | .empty => 0
          | .leaf => 1
          | .internal => 2
          | .sentinel => 3) ∧
        v.extractLsb' 16 14 = 0 ∧ (v.extractLsb' 0 16).toNat = r.sym.toNat) ∧
      (nsel = 1 → v = r.weight) ∧
      (nsel = 2 → (v.extractLsb' 16 16).toNat = r.left.toNat ∧
        (v.extractLsb' 0 16).toNat = r.right.toNat)

/-- R28: only `BUILD` sets the tree and only `CLEAR` clears it; no other command changes the arena,
`TREE_VALID`, `ROOT` or `NODE_COUNT`, and a tree once built stays until `CLEAR`. -/
def Obligations.OnlyBuildWritesTree : Prop :=
  (∀ (i : Instr) (s t : State), i ≠ .build → i ≠ .clear → exec i s = .next t →
    t.node = s.node ∧ t.treeValid = s.treeValid ∧ t.root = s.root ∧ t.nodeCount = s.nodeCount) ∧
  (∀ (i : Instr) (s t : State), i ≠ .clear → s.treeValid = true → exec i s = .next t →
    t.node = s.node ∧ t.treeValid = true ∧ t.root = s.root ∧ t.nodeCount = s.nodeCount)

/-! ## Code table (spec/43_code_table.md) -/

/-- R171: with a tree `GEN_CODES` completes: it writes the table and `CODES_VALID` and answers
`DISTINCT`; nothing else changes. The table holds exactly the root-to-leaf paths (R170, R39). The
premise `TreeOk` is R38, an invariant of its own (StepKeepsInvariant). -/
def Obligations.GenCodesCompletes : Prop :=
  ∀ s : State, s.fault = false → s.treeValid = true → s.TreeOk →
    ∃ table : CodeTable,
      exec .genCodes s = .next { s with
        code := table, codesValid := true,
        responses := s.responses ++ [⟨.ok, s.distinct.setWidth 32⟩] } ∧
      State.For.CodesOk { s with code := table }

/-- R172: `GEN_CODES` issued again rewrites the same table, and it touches neither the encoder nor
the decoder. -/
def Obligations.GenCodesIdempotent : Prop :=
  ∀ s t : State, exec .genCodes s = .next t →
    t.encAcc = s.encAcc ∧ t.encBits = s.encBits ∧ t.decCursor = s.decCursor ∧
    t.decBits = s.decBits ∧
    ∃ r, exec .genCodes t = .next { t with responses := t.responses ++ [r] }

/-- R39, R173 item 1: no valid code is a prefix of another symbol's valid code. -/
def Obligations.CodesArePrefixFree : Prop :=
  ∀ (s : State) (x y : Sym), s.CodesOk → (s.codeAt x).valid = true →
    (s.codeAt y).valid = true → x ≠ y → ¬ (s.codeAt x).bits <+: (s.codeAt y).bits

/-- R173 item 2: every valid code has length between 1 and `max(1, DISTINCT - 1)`. -/
def Obligations.CodeLengthsBounded : Prop :=
  ∀ (s : State) (x : Sym), s.CountsOk → s.TreeOk → s.CodesOk → (s.codeAt x).valid = true →
    1 ≤ (s.codeAt x).bits.length ∧ (s.codeAt x).bits.length ≤ max 1 (s.distinct.toNat - 1)

/-- R174: `CODE_LEN` answers the valid bit and the length, and changes nothing else. -/
def Obligations.CodeLenAnswers : Prop :=
  ∀ (sym : Sym) (s : State), s.fault = false → s.codesValid = true →
    ∃ v : Word,
      exec (.codeLen (symField sym)) s = .next { s with responses := s.responses ++ [⟨.ok, v⟩] } ∧
      v.getLsbD 31 = (s.codeAt sym).valid ∧ v.extractLsb' 16 15 = 0 ∧
      v.extractLsb' 0 16 = BitVec.ofNat 16 (s.codeAt sym).bits.length

/-- R175, R55: `CODE_BITS` answers bits `32*w` to `32*w + 31` of the code, first bit at 31, 0 past
its end, and changes nothing else. -/
def Obligations.CodeBitsAnswers : Prop :=
  ∀ (sym : Sym) (word : BitVec 8) (s : State), s.fault = false → s.codesValid = true →
    word.toNat < 8 →
    ∃ v : Word,
      exec (.codeBits (symField sym) word) s = .next { s with responses := s.responses ++ [⟨.ok, v⟩] } ∧
      ∀ j, j < 32 → v.getLsbD (31 - j) = (s.codeAt sym).bits.getD (32 * word.toNat + j) false

/-- R30, R31: only `GEN_CODES` and `CLEAR` write the code table and `CODES_VALID`. -/
def Obligations.OnlyGenCodesWritesCodes : Prop :=
  ∀ (i : Instr) (s t : State), i ≠ .genCodes → i ≠ .clear → exec i s = .next t →
    t.code = s.code ∧ t.codesValid = s.codesValid

/-! ## Encoder (spec/44_encoder.md) -/

/-- R190, R191: `ENC_SYM` of a symbol with a code completes. The pending bits and the code, read on
from the bytes emitted into the new pending bits, are the same bit sequence; `ENC_BITS` grows by the
code's length, `ENC_PENDING` is the sum's remainder by 8, and the answer is the number of bytes.
Nothing else changes. The premise on `ENC_ACC` is R32 (StepKeepsEncoderState). -/
def Obligations.EncSymAppendsCode : Prop :=
  ∀ (sym : Sym) (s : State), s.fault = false → s.codesValid = true →
    (s.codeAt sym).valid = true → s.encAcc.length < 8 →
    s.encBits.toNat + (s.codeAt sym).bits.length ≤ 2 ^ 32 - 1 →
    ∃ (acc : Bits) (out : List Byte),
      exec (.encSym (symField sym)) s = .next { s with
        encAcc := acc, encBits := s.encBits + BitVec.ofNat 32 (s.codeAt sym).bits.length,
        bytesOut := s.bytesOut ++ out,
        responses := s.responses ++ [⟨.ok, BitVec.ofNat 32 out.length⟩] } ∧
      out.flatMap (fun b => firstBits b 8) ++ acc = s.encAcc ++ (s.codeAt sym).bits ∧
      acc.length = (s.encAcc.length + (s.codeAt sym).bits.length) % 8

/-- R192, R193: `ENC_FLUSH` emits the pending bits from the top of one byte, zeros below, or no byte
when none is pending; it answers the message's bit count and leaves the encoder empty. Nothing else
changes. -/
def Obligations.EncFlushEndsMessage : Prop :=
  ∀ s : State, s.fault = false → s.codesValid = true →
    ∃ out : List Byte,
      exec .encFlush s = .next { s with
        encAcc := [], encBits := 0, bytesOut := s.bytesOut ++ out,
        responses := s.responses ++ [⟨.ok, s.encBits⟩] } ∧
      (s.encAcc = [] → out = []) ∧
      (s.encAcc ≠ [] → ∃ b : Byte, out = [b] ∧
        ∀ i, i < 8 → b.getLsbD (7 - i) = s.encAcc.getD i false)

/-- R194, R53: a message of coded symbols emits `ceil(t/8)` bytes, `t` being what its `ENC_FLUSH`
answers: the codes one after another, bit `j` in byte `j/8` at position `7 - j mod 8`, zeros after
the last. -/
def Obligations.MessagePacksCodes : Prop :=
  ∀ (s : State) (xs : List Sym), s.fault = false → s.codesValid = true → s.encAcc = [] →
    s.encBits = 0 → (∀ x ∈ xs, (s.codeAt x).valid = true) →
    (xs.flatMap fun x => (s.codeAt x).bits).length ≤ 2 ^ 32 - 1 →
    ∃ (t : State) (bytes : List Byte) (n : Nat),
      n = (xs.flatMap fun x => (s.codeAt x).bits).length ∧
      execAll exec (encodeSeq xs) s = .next t ∧ t.bytesOut = s.bytesOut ++ bytes ∧
      t.responses.getLast? = some ⟨.ok, BitVec.ofNat 32 n⟩ ∧ bytes.length = (n + 7) / 8 ∧
      ∀ j, j < 8 * bytes.length →
        (bytes.getD (j / 8) 0).getLsbD (7 - j % 8) =
          (xs.flatMap fun x => (s.codeAt x).bits).getD j false

/-- R32: only `ENC_SYM`, `ENC_FLUSH` and `CLEAR` write the encoder, and only the first two emit
bytes. -/
def Obligations.OnlyEncoderCommandsWriteEncoder : Prop :=
  ∀ (i : Instr) (s t : State), (∀ sym, i ≠ .encSym sym) → i ≠ .encFlush → exec i s = .next t →
    t.bytesOut = s.bytesOut ∧ (i ≠ .clear → t.encAcc = s.encAcc ∧ t.encBits = s.encBits)

/-! ## Decoder (spec/45_decoder.md) -/

/-- R212: `DEC_BYTE` completes on a well-formed tree (R38) with the cursor in place (R210): the
cursor and the symbols are those of the bit steps of its `NBITS` first bits, `DEC_BITS` grows by
`NBITS`, and the answer is the number of symbols, at most `NBITS`. Nothing else changes. -/
def Obligations.DecByteCompletes : Prop :=
  ∀ (byte : Byte) (nbits : BitVec 4) (s : State), s.fault = false → s.treeValid = true →
    1 ≤ nbits.toNat → nbits.toNat ≤ 8 → s.decBits.toNat + nbits.toNat ≤ 2 ^ 32 - 1 →
    s.TreeOk → s.CursorOk →
    ∃ (c : NodeIdx) (out : List Sym),
      exec (.decByte byte nbits) s = .next { s with
        decCursor := c, decBits := s.decBits + nbits.setWidth 32, symsOut := s.symsOut ++ out,
        responses := s.responses ++ [⟨.ok, BitVec.ofNat 32 out.length⟩] } ∧
      decRun s ⟨s.decCursor, []⟩ (firstBits byte nbits.toNat) = some ⟨c, out⟩ ∧
      out.length ≤ nbits.toNat

/-- R211: one decoder bit step, as a `DEC_BYTE` of one bit. A skipped bit is counted; a leaf is
emitted and the cursor returns to the root; any other child becomes the cursor. The second premise
on the cursor leaves out the states of BrokenTreeStopsModel. -/
def Obligations.DecByteOneBit : Prop :=
  ∀ (byte : Byte) (s : State), s.fault = false → s.treeValid = true →
    s.decBits.toNat < 2 ^ 32 - 1 → s.structureBroken s.decCursor = false →
    ∃ (c d : NodeIdx) (out : List Sym),
      c = (if byte.getLsbD 7 then (s.nodeAt s.decCursor).right
        else (s.nodeAt s.decCursor).left) ∧
      exec (.decByte byte 1) s = .next { s with
        decCursor := d, decBits := s.decBits + 1, symsOut := s.symsOut ++ out,
        responses := s.responses ++ [⟨.ok, BitVec.ofNat 32 out.length⟩] } ∧
      (if s.decCursor = .null ∨ (s.nodeAt s.decCursor).kind = .sentinel then
        d = s.decCursor ∧ out = []
      else if c ≠ .null ∧ (s.nodeAt c).kind = .leaf then d = s.root ∧ out = [(s.nodeAt c).sym]
      else d = c ∧ out = [])

/-- R212, R214: a byte's bits may be split over two `DEC_BYTE`s at any position; the decoder and the
symbols end the same, and the two answers add up. -/
def Obligations.DecByteSplits : Prop :=
  ∀ (byte : Byte) (m n : BitVec 4) (s : State), s.fault = false → s.treeValid = true →
    1 ≤ m.toNat → 1 ≤ n.toNat → m.toNat + n.toNat ≤ 8 →
    s.decBits.toNat + m.toNat + n.toNat ≤ 2 ^ 32 - 1 → s.TreeOk → s.CursorOk →
    ∃ (t u v : State) (a b c : Word),
      exec (.decByte byte (m + n)) s = .next t ∧ exec (.decByte byte m) s = .next u ∧
      exec (.decByte (byte <<< m.toNat) n) u = .next v ∧
      t.responses = s.responses ++ [⟨.ok, a⟩] ∧
      v.responses = s.responses ++ [⟨.ok, b⟩, ⟨.ok, c⟩] ∧ a = b + c ∧
      { v with responses := t.responses } = t

/-- R212, R193: the bits below the first `NBITS` of a byte are never read. -/
def Obligations.PaddingNeverRead : Prop :=
  ∀ (b1 b2 : Byte) (nbits : BitVec 4) (s : State),
    (∀ i, i < nbits.toNat → b1.getLsbD (7 - i) = b2.getLsbD (7 - i)) →
    exec (.decByte b1 nbits) s = exec (.decByte b2 nbits) s

/-- R213, R242: `DEC_END` with a tree completes: the cursor returns to the root, `DEC_BITS` to 0,
and the answer is the bits consumed, `TRUNCATED` exactly when the cursor was not at the root.
Nothing else changes, `FAULT` and `FAULT_CODE` among it. -/
def Obligations.DecEndEndsPayload : Prop :=
  ∀ s : State, s.fault = false → s.treeValid = true →
    ∃ e : Err,
      exec .decEnd s = .next { s with
        decCursor := s.root, decBits := 0, responses := s.responses ++ [⟨e, s.decBits⟩] } ∧
      (s.decCursor = s.root → e = .ok) ∧ (s.decCursor ≠ s.root → e = .truncated)

/-- R33: only `BUILD`, `DEC_BYTE`, `DEC_END` and `CLEAR` write the decoder, and only `DEC_BYTE`
emits symbols. -/
def Obligations.OnlyDecoderCommandsWriteDecoder : Prop :=
  (∀ (i : Instr) (s t : State), (∀ b n, i ≠ .decByte b n) → exec i s = .next t →
    t.symsOut = s.symsOut) ∧
  (∀ (i : Instr) (s t : State), (∀ b n, i ≠ .decByte b n) → i ≠ .decEnd → i ≠ .build →
    i ≠ .clear → exec i s = .next t → t.decCursor = s.decCursor ∧ t.decBits = s.decBits)

/-- R216: the round trip. In a session with a code table, with the encoder empty and the decoder at
the root, a message of coded symbols encodes to bytes and a bit count, and that payload decodes, in
the state the encoding left, to exactly the message; its `DEC_END` answers OK and the bit count. -/
def Obligations.RoundTrip : Prop :=
  ∀ (s : State) (xs : List Sym), s.Inv → s.fault = false → s.codesValid = true →
    s.encAcc = [] → s.encBits = 0 → s.decCursor = s.root → s.decBits = 0 →
    (∀ x ∈ xs, (s.codeAt x).valid = true) →
    (xs.flatMap fun x => (s.codeAt x).bits).length ≤ 2 ^ 32 - 1 →
    ∃ (t u : State) (bytes : List Byte) (n : Nat),
      execAll exec (encodeSeq xs) s = .next t ∧ t.bytesOut = s.bytesOut ++ bytes ∧
      t.responses.getLast? = some ⟨.ok, BitVec.ofNat 32 n⟩ ∧ n ≤ 2 ^ 32 - 1 ∧
      execAll exec (decodePayload bytes n) t = .next u ∧ u.symsOut = s.symsOut ++ xs ∧
      u.responses.getLast? = some ⟨.ok, BitVec.ofNat 32 n⟩

/-! ## The whole machine -/

/-- R59: the readout commands have no side effect: all they do is answer, and issued twice they
answer the same. -/
def Obligations.ReadoutsHaveNoEffect : Prop :=
  ∀ (i : Instr) (s : State),
    (i = .nop ∨ (∃ x, i = .regRead x) ∨ (∃ x, i = .countRead x) ∨ (∃ x y, i = .nodeRead x y) ∨
      (∃ x, i = .codeLen x) ∨ (∃ x y, i = .codeBits x y)) →
    (∃ e, e ≠ .ok ∧ exec i s = .next (s.raise e)) ∨
    (∃ d t, exec i s = .next t ∧ t = { s with responses := s.responses ++ [⟨.ok, d⟩] } ∧
      exec i t = .next { t with responses := t.responses ++ [⟨.ok, d⟩] })

/-- R42, R103 (log 3): a step takes back no output and no response, a command word gets exactly one
response, and what the host will present changes only by the event taken. -/
def Obligations.OutputsOnlyGrow : Prop :=
  ∀ s t : State, step s = .next t →
    s.bytesOut <+: t.bytesOut ∧ s.symsOut <+: t.symsOut ∧ t.port = s.port.tail ∧
    ∃ rs, t.responses = s.responses ++ rs ∧
      rs.length = (match s.port with
        | .command _ :: _ => 1
        | _ => 0)

/-- R38 to R43: every invariant of the core holds in the reset state. -/
def Obligations.ResetHasInvariant : Prop := State.reset.Inv

/-- R25, R26 (log 3): every step keeps `TOTAL` the sum of the counts and `DISTINCT` the number of
counted symbols. -/
def Obligations.StepKeepsCounts : Prop :=
  ∀ s t : State, s.CountsOk → step s = .next t → t.CountsOk

/-- R43, R32 (log 3): every step keeps `ENC_BITS mod 8 = ENC_PENDING = len(ENC_ACC)`, at most 7. -/
def Obligations.StepKeepsEncoderState : Prop :=
  ∀ s t : State, s.EncoderOk → step s = .next t → t.EncoderOk

/-- R34, R241 (log 3): every step keeps `FAULT_CODE` at 0 while `FAULT = 0`, and at the code of a
fatal error that commands raise while `FAULT = 1`. -/
def Obligations.StepKeepsFaultCode : Prop :=
  ∀ s t : State, s.FaultOk → step s = .next t → t.FaultOk

/-- R28, R29, R31, R33 (log 3): every step keeps what holds while there is no tree, that a code
table needs a tree, and that the priority queue is empty. -/
def Obligations.StepKeepsPhase : Prop :=
  ∀ s t : State, s.PhaseOk → step s = .next t → t.PhaseOk

/-- R38, R39, R43 and the rest (log 3): every step keeps every invariant of the core. -/
def Obligations.StepKeepsInvariant : Prop :=
  ∀ s t : State, s.Inv → step s = .next t → t.Inv

/-- R151, R241 (log 3, log 6): from a state with the invariants no step stops the model. -/
def Obligations.InvariantStatesNeverStop : Prop :=
  ∀ s : State, s.Inv → isNext (step s) = true

/-- R41, R150 (log 2, log 3): the unspecified contents can never be observed. Two states that differ
only in such contents take steps to two states that again differ only so; their answers and outputs
are equal. -/
def Obligations.UnspecifiedContentsUnobservable : Prop :=
  ∀ s t : State, s.Inv → t.Inv → s.SameVisible t →
    ∃ s' t', step s = .next s' ∧ step t = .next t' ∧ s'.SameVisible t'
end

