-- ==== Sys2Proof/Laws/Memory.lean ====
section
/-!
SUPPORT. Read after write of the three memories (spec/20_memory.md rule R50), and the bounds of
their indexes.
-/

namespace Sys2Proof.Machine

variable {wSym wCnt : Nat}

theorem nodeIdx_lt_nNodes_iff (i : NodeIdx wSym) : i.toNat < 2 * 2 ^ wSym - 1 ↔ i ≠ .null := by
  have h := i.isLt
  rw [ne_eq, ← BitVec.toNat_inj]
  simp only [NodeIdx.null, BitVec.toNat_allOnes]
  rw [Nat.pow_succ] at h ⊢
  omega

/-- R73, R78: the symbol that its own field names. -/
@[simp] theorem fieldSym_symField (h : wSym ≤ 16) (sym : Sym wSym) : fieldSym (symField sym) = sym := by
  simp [fieldSym, BitVec.setWidth_setWidth_of_le, h]

/-- R76, R78: the node that its own field names. -/
@[simp] theorem fieldIdx_idxField (h : wSym < 16) (idx : NodeIdx wSym) :
    fieldIdx (idxField idx) = idx := by
  simp [fieldIdx, BitVec.setWidth_setWidth_of_le, h]

/-- R73: a symbol's field is in range. -/
theorem symField_lt (h : wSym ≤ 16) (sym : Sym wSym) : (symField sym).toNat < 2 ^ wSym := by
  rw [symField, BitVec.toNat_setWidth, Nat.mod_eq_of_lt]
  · exact sym.isLt
  · exact Nat.lt_of_lt_of_le sym.isLt (Nat.pow_le_pow_right (by decide) h)

@[simp] theorem readCount_writeCount (m : CountMem wSym wCnt) (a b : Sym wSym) (v : Count wCnt) :
    readCount (writeCount m a v) b = if a = b then v else readCount m b := by
  simp only [readCount, writeCount, Vector.getElem_set, BitVec.toNat_inj]

@[simp] theorem readCode_writeCode (m : CodeTable wSym) (a b : Sym wSym) (r : CodeRec) :
    readCode (writeCode m a r) b = if a = b then r else readCode m b := by
  simp only [readCode, writeCode, Vector.getElem_set, BitVec.toNat_inj]

theorem readNode_null (m : Arena wSym wCnt) : readNode m .null = .empty := by
  have h : ¬ ((NodeIdx.null : NodeIdx wSym).toNat < 2 * 2 ^ wSym - 1) := by
    rw [nodeIdx_lt_nNodes_iff]; exact fun h => h rfl
  simp only [readNode, dif_neg h]

theorem readNode_writeNode (m : Arena wSym wCnt) (i j : NodeIdx wSym) (r : NodeRec wSym wCnt) (hi : i ≠ .null) :
    readNode (writeNode m i r) j = if i = j then r else readNode m j := by
  have hi' := (nodeIdx_lt_nNodes_iff i).2 hi
  by_cases hj : j.toNat < 2 * 2 ^ wSym - 1
  · simp only [readNode, writeNode, dif_pos hj, Vector.getElem_setIfInBounds, BitVec.toNat_inj]
  · have hne : i ≠ j := fun h => hj (h ▸ hi')
    simp only [readNode, dif_neg hj, if_neg hne]

/-- `NULL` names no entry, so a write there changes nothing. -/
theorem writeNode_null (m : Arena wSym wCnt) (r : NodeRec wSym wCnt) : writeNode m .null r = m := by
  have h : ¬ ((NodeIdx.null : NodeIdx wSym).toNat < 2 * 2 ^ wSym - 1) := by
    rw [nodeIdx_lt_nNodes_iff]; exact fun h => h rfl
  ext1 k hk
  have hne : (NodeIdx.null : NodeIdx wSym).toNat ≠ k := fun h' => h (h' ▸ hk)
  simp only [writeNode, Vector.getElem_setIfInBounds, if_neg hne]

@[simp] theorem readCount_replicate (sym : Sym wSym) (v : Count wCnt) :
    readCount (Vector.replicate (2 ^ wSym) v) sym = v := by
  simp only [readCount, Vector.getElem_replicate]

@[simp] theorem readCode_replicate (sym : Sym wSym) (r : CodeRec) :
    readCode (Vector.replicate (2 ^ wSym) r) sym = r := by
  simp only [readCode, Vector.getElem_replicate]

end Sys2Proof.Machine
end

