-- ==== Sys2Proof/Laws/Builder.lean ====
section
/-!
SUPPORT. The priority queue and the builder's operations (spec/42_tree_builder.md rules R140 to
R146).
-/

namespace Sys2Proof.Machine

variable {wSym wCnt : Nat}

theorem QEntry.before_iff (a b : QEntry wSym wCnt) :
    a.before b = true ↔
      a.weight.toNat < b.weight.toNat ∨
        (a.weight = b.weight ∧ a.index.toNat < b.index.toNat) := by
  simp [QEntry.before, BitVec.lt_def]

/-- R141: the order is irreflexive. -/
theorem QEntry.before_irrefl (a : QEntry wSym wCnt) : a.before a = false := by
  rw [Bool.eq_false_iff, ne_eq, QEntry.before_iff]
  omega

/-- R141: the order is transitive. -/
theorem QEntry.before_trans {a b c : QEntry wSym wCnt} (h1 : a.before b = true) (h2 : b.before c = true) :
    a.before c = true := by
  rw [QEntry.before_iff] at *
  rcases h1 with h1 | ⟨e1, h1⟩ <;> rcases h2 with h2 | ⟨e2, h2⟩
  · exact .inl (by omega)
  · exact .inl (e2 ▸ h1)
  · exact .inl (e1 ▸ h2)
  · exact .inr ⟨e1.trans e2, by omega⟩

/-- R141: the order is total on entries with different indexes. -/
theorem QEntry.before_total (a b : QEntry wSym wCnt) :
    a.before b = true ∨ b.before a = true ∨ a = b := by
  simp only [QEntry.before_iff]
  by_cases hw : a.weight = b.weight
  · by_cases hi : a.index = b.index
    · exact .inr (.inr (by cases a; cases b; simp_all))
    · have : a.index.toNat ≠ b.index.toNat := fun h => hi (BitVec.eq_of_toNat_eq h)
      rcases Nat.lt_or_gt_of_ne this with h | h
      · exact .inl (.inr ⟨hw, h⟩)
      · exact .inr (.inl (.inr ⟨hw.symm, h⟩))
  · have : a.weight.toNat ≠ b.weight.toNat := fun h => hw (BitVec.eq_of_toNat_eq h)
    omega

theorem minEntry_mem (m : QEntry wSym wCnt) (q : List (QEntry wSym wCnt)) : minEntry m q ∈ m :: q := by
  induction q generalizing m with
  | nil => simp [minEntry]
  | cons e q ih =>
    have h := ih (if e.before m then e else m)
    simp only [minEntry, List.foldl_cons, List.mem_cons] at h ⊢
    rcases h with h | h
    · rw [h]
      split <;> simp
    · exact .inr (.inr h)

/-- R142: no entry of the queue comes before the one extracted. -/
theorem minEntry_le (m : QEntry wSym wCnt) (q : List (QEntry wSym wCnt)) :
    ∀ x ∈ m :: q, x.before (minEntry m q) = false := by
  induction q generalizing m with
  | nil => simp [minEntry, QEntry.before_irrefl]
  | cons e q ih =>
    have h := ih (if e.before m then e else m)
    have hstep : minEntry m (e :: q) = minEntry (if e.before m then e else m) q := rfl
    rw [hstep]
    intro x hx
    have hle : ∀ y, (if e.before m then e else m).before y = false → ∀ z, z = m ∨ z = e →
        z.before y = false := by
      intro y hy z hz
      rw [Bool.eq_false_iff]
      intro hzy
      rcases hz with rfl | rfl
      · split at hy
        · rename_i hc
          rw [QEntry.before_trans hc hzy] at hy
          exact Bool.noConfusion hy
        · rw [hzy] at hy
          exact Bool.noConfusion hy
      · split at hy
        · rw [hzy] at hy
          exact Bool.noConfusion hy
        · rename_i hc
          rcases QEntry.before_total z m with h1 | h1 | h1
          · exact hc h1
          · rw [QEntry.before_trans h1 hzy] at hy
            exact Bool.noConfusion hy
          · rw [← h1, hzy] at hy
            exact Bool.noConfusion hy
    simp only [List.mem_cons] at hx h
    rcases hx with rfl | rfl | hx
    · exact hle _ (h _ (.inl rfl)) _ (.inl rfl)
    · exact hle _ (h _ (.inl rfl)) _ (.inr rfl)
    · exact h x (.inr hx)

/-- Everything `extract_min` can do: on a queue with an entry it answers the first in the order and
leaves the others. -/
theorem extractMin_spec {q rest : List (QEntry wSym wCnt)} {e : QEntry wSym wCnt} (h : extractMin q = some (e, rest)) :
    e ∈ q ∧ rest = q.erase e ∧ rest.length + 1 = q.length ∧ ∀ x ∈ q, x.before e = false := by
  cases q with
  | nil => simp [extractMin] at h
  | cons a q =>
    simp only [extractMin, Option.some.injEq, Prod.mk.injEq] at h
    obtain ⟨rfl, rfl⟩ := h
    refine ⟨minEntry_mem a q, rfl, ?_, minEntry_le a q⟩
    rw [List.length_erase_of_mem (minEntry_mem a q)]
    simp

theorem extractMin_eq_none_iff (q : List (QEntry wSym wCnt)) : extractMin q = none ↔ q = [] := by
  cases q <;> simp [extractMin]

@[simp] theorem Builder.add_next (b : Builder wSym wCnt) (r : NodeRec wSym wCnt) : (b.add r).next = b.next + 1 := rfl

@[simp] theorem Builder.add_queue (b : Builder wSym wCnt) (r : NodeRec wSym wCnt) :
    (b.add r).queue = b.queue ++ [⟨r.weight, BitVec.ofNat (wSym + 1) b.next⟩] := rfl

@[simp] theorem Builder.add_node (b : Builder wSym wCnt) (r : NodeRec wSym wCnt) :
    (b.add r).node = writeNode b.node (BitVec.ofNat (wSym + 1) b.next) r := rfl

@[simp] theorem Builder.addLeaves_nil (b : Builder wSym wCnt) (m : CountMem wSym wCnt) : b.addLeaves m [] = b := rfl

@[simp] theorem Builder.addLeaves_cons (b : Builder wSym wCnt) (m : CountMem wSym wCnt) (s : Sym wSym) (syms : List (Sym wSym)) :
    b.addLeaves m (s :: syms) = (b.add (.leaf s (readCount m s))).addLeaves m syms := rfl

@[simp] theorem Builder.addLeaves_next (b : Builder wSym wCnt) (m : CountMem wSym wCnt) (syms : List (Sym wSym)) :
    (b.addLeaves m syms).next = b.next + syms.length := by
  induction syms generalizing b with
  | nil => rfl
  | cons s syms ih => rw [addLeaves_cons, ih]; simp; omega

@[simp] theorem Builder.addLeaves_queue_length (b : Builder wSym wCnt) (m : CountMem wSym wCnt) (syms : List (Sym wSym)) :
    (b.addLeaves m syms).queue.length = b.queue.length + syms.length := by
  induction syms generalizing b with
  | nil => rfl
  | cons s syms ih => rw [addLeaves_cons, ih]; simp; omega

/-- Everything one merge can do with two entries or more (R146). -/
theorem Builder.merge_spec (b : Builder wSym wCnt) (h : 2 ≤ b.queue.length) :
    ∃ x y q1 q2, extractMin b.queue = some (x, q1) ∧ extractMin q1 = some (y, q2) ∧
      b.merge =
        ({ b with queue := q2 } : Builder wSym wCnt).add (.internal (x.weight + y.weight) x.index y.index) := by
  cases h1 : extractMin b.queue with
  | none => rw [extractMin_eq_none_iff] at h1; simp [h1] at h
  | some p =>
    obtain ⟨x, q1⟩ := p
    have hl := (extractMin_spec h1).2.2.1
    cases h2 : extractMin q1 with
    | none => rw [extractMin_eq_none_iff] at h2; simp [h2] at hl; omega
    | some p =>
      obtain ⟨y, q2⟩ := p
      exact ⟨x, y, q1, q2, rfl, h2, by simp [merge, h1, h2]⟩

theorem Builder.merge_next (b : Builder wSym wCnt) (h : 2 ≤ b.queue.length) :
    b.merge.next = b.next + 1 := by
  obtain ⟨x, y, q1, q2, _, _, hm⟩ := b.merge_spec h
  simp [hm]

theorem Builder.merge_queue_length (b : Builder wSym wCnt) (h : 2 ≤ b.queue.length) :
    b.merge.queue.length + 1 = b.queue.length := by
  obtain ⟨x, y, q1, q2, h1, h2, hm⟩ := b.merge_spec h
  have l1 := (extractMin_spec h1).2.2.1
  have l2 := (extractMin_spec h2).2.2.1
  simp [hm]
  omega

/-- R146: `n` merges take `n` entries off the queue and hand out `n` indexes. -/
theorem Builder.merges_spec (n : Nat) (b : Builder wSym wCnt) (h : n < b.queue.length) :
    (Builder.merges n b).queue.length + n = b.queue.length ∧
      (Builder.merges n b).next = b.next + n := by
  induction n generalizing b with
  | zero => simp [merges]
  | succ n ih =>
    have hl := b.merge_queue_length (by omega)
    have hn := b.merge_next (by omega)
    have := ih b.merge (by omega)
    simp only [merges]
    omega

/-- R140: the symbols with a count are listed, each once, in increasing order. -/
theorem mem_presentSyms (m : CountMem wSym wCnt) (s : Sym wSym) : s ∈ presentSyms m ↔ readCount m s ≠ 0 := by
  simp only [presentSyms, List.mem_filter, List.mem_map, List.mem_range, bne_iff_ne, ne_eq]
  constructor
  · exact fun h => h.2
  · exact fun h => ⟨⟨s.toNat, s.isLt, by simp⟩, h⟩

theorem presentSyms_sorted (m : CountMem wSym wCnt) :
    (presentSyms m).Pairwise fun a b => a.toNat < b.toNat := by
  apply List.Pairwise.filter
  rw [List.pairwise_map]
  refine List.Pairwise.imp_of_mem ?_ List.pairwise_lt_range
  intro a b ha hb hab
  rw [List.mem_range] at ha hb
  simp only [BitVec.toNat_ofNat]
  rwa [Nat.mod_eq_of_lt ha, Nat.mod_eq_of_lt hb]

theorem presentSyms_length_le (m : CountMem wSym wCnt) : (presentSyms m).length ≤ 2 ^ wSym := by
  refine (List.length_filter_le _ _).trans ?_
  simp

end Sys2Proof.Machine
end

