-- ==== Sys2Proof/Laws/CodeTable.lean ====
section
/-!
SUPPORT. The walk of `GEN_CODES` (spec/43_code_table.md rule R171), case by case.
-/

namespace Sys2Proof.Machine

variable {wSym wCnt : Nat}

@[simp] theorem walk_null (s : State.For wSym wCnt) (fuel : Nat) (p : Bits) (t : CodeTable wSym) :
    walk s (fuel + 1) .null p t = some t := by simp [walk]

theorem walk_sentinel (s : State.For wSym wCnt) (fuel : Nat) {i : NodeIdx wSym} (p : Bits) (t : CodeTable wSym)
    (hk : (s.nodeAt i).kind = .sentinel) : walk s (fuel + 1) i p t = some t := by
  by_cases hi : i = .null <;> simp [walk, hi, hk]

theorem walk_leaf (s : State.For wSym wCnt) (fuel : Nat) {i : NodeIdx wSym} (p : Bits) (t : CodeTable wSym)
    (hi : i ≠ .null) (hk : (s.nodeAt i).kind = .leaf) :
    walk s (fuel + 1) i p t = some (writeCode t (s.nodeAt i).sym ⟨true, p⟩) := by
  simp [walk, hi, hk]

theorem walk_internal (s : State.For wSym wCnt) (fuel : Nat) {i : NodeIdx wSym} (p : Bits) (t : CodeTable wSym)
    (hi : i ≠ .null) (hk : (s.nodeAt i).kind = .internal) (hs : s.structureBroken i = false) :
    walk s (fuel + 1) i p t =
      (walk s fuel (s.nodeAt i).left (p ++ [false]) t).bind fun t =>
        walk s fuel (s.nodeAt i).right (p ++ [true]) t := by
  simp only [walk, if_neg hi, hk, hs, Bool.false_eq_true, if_false]
  cases walk s fuel (s.nodeAt i).left (p ++ [false]) t <;> rfl

@[simp] theorem readCode_emptyTable (sym : Sym wSym) : readCode emptyTable sym = .invalid := by
  simp [emptyTable, readCode]

end Sys2Proof.Machine
end

