-- ==== Sys2Proof/Laws/Decoder.lean ====
section
/-!
SUPPORT. The bit steps of the decoder (spec/45_decoder.md rules R211, R212, R214).
-/

namespace Sys2Proof.Machine

variable {wSym wCnt : Nat}

@[simp] theorem decRun_nil (s : State.For wSym wCnt) (d : Decoder wSym) : decRun s d [] = some d := rfl

theorem decRun_cons (s : State.For wSym wCnt) (d : Decoder wSym) (b : Bool) (bs : Bits) :
    decRun s d (b :: bs) = (decBit s d b).bind fun d => decRun s d bs := by
  cases h : decBit s d b <;> simp [decRun, h]

/-- The bit steps of two bit sequences, one after the other. -/
theorem decRun_append (s : State.For wSym wCnt) (d : Decoder wSym) (a b : Bits) :
    decRun s d (a ++ b) = (decRun s d a).bind fun d => decRun s d b := by
  induction a generalizing d with
  | nil => rfl
  | cons x a ih =>
    simp only [List.cons_append, decRun_cons]
    cases decBit s d x with
    | none => rfl
    | some d => exact ih d

/-- Everything one bit step can do (R211): skip, emit and reset, move, or meet a tree that breaks
R38. -/
theorem decBit_cases (s : State.For wSym wCnt) (d : Decoder wSym) (b : Bool) :
    ((d.cursor = .null ∨ (s.nodeAt d.cursor).kind = .sentinel) ∧ decBit s d b = some d) ∨
    (s.structureBroken d.cursor = true ∧ decBit s d b = none) ∨
    ∃ c, c = (if b then (s.nodeAt d.cursor).right else (s.nodeAt d.cursor).left) ∧
      (decBit s d b = some ⟨s.root, d.out ++ [(s.nodeAt c).sym]⟩ ∧ c ≠ .null ∧
          (s.nodeAt c).kind = .leaf ∨
        decBit s d b = some ⟨c, d.out⟩ ∧ ¬(c ≠ .null ∧ (s.nodeAt c).kind = .leaf)) := by
  unfold decBit
  by_cases h1 : d.cursor = .null ∨ (s.nodeAt d.cursor).kind = .sentinel
  · exact .inl ⟨h1, if_pos h1⟩
  · refine .inr ?_
    rw [if_neg h1]
    cases h2 : s.structureBroken d.cursor with
    | true => exact .inl ⟨rfl, by simp⟩
    | false =>
      refine .inr ⟨_, rfl, ?_⟩
      simp only [Bool.false_eq_true, if_false]
      by_cases h3 : (if b then (s.nodeAt d.cursor).right else (s.nodeAt d.cursor).left) ≠ .null ∧
          (s.nodeAt (if b then (s.nodeAt d.cursor).right
            else (s.nodeAt d.cursor).left)).kind = .leaf
      · exact .inl ⟨if_pos h3, h3.1, h3.2⟩
      · exact .inr ⟨if_neg h3, h3⟩

/-- Symbols already emitted are not touched. -/
theorem decBit_out (s : State.For wSym wCnt) (c : NodeIdx wSym) (out : List (Sym wSym)) (b : Bool) :
    decBit s ⟨c, out⟩ b = (decBit s ⟨c, []⟩ b).map fun d => ⟨d.cursor, out ++ d.out⟩ := by
  simp only [decBit]
  split_ifs <;> simp

theorem decRun_out (s : State.For wSym wCnt) (c : NodeIdx wSym) (out : List (Sym wSym)) (bits : Bits) :
    decRun s ⟨c, out⟩ bits = (decRun s ⟨c, []⟩ bits).map fun d => ⟨d.cursor, out ++ d.out⟩ := by
  induction bits generalizing c out with
  | nil => simp
  | cons b bs ih =>
    rw [decRun_cons, decRun_cons, decBit_out]
    cases h : decBit s ⟨c, []⟩ b with
    | none => rfl
    | some d =>
      simp only [Option.map_some, Option.bind_some]
      rw [ih, ih d.cursor d.out]
      cases decRun s ⟨d.cursor, []⟩ bs <;> simp

end Sys2Proof.Machine
end

