-- ==== Sys2Proof/Laws/Operands.lean ====
section
/-!
SUPPORT. The MSB-first placing of bit sequences (spec/20_memory.md rules R53 to R55).
-/

namespace Sys2Proof.Machine

theorem cons_getMsbD_zero {n : Nat} (b : Bool) (v : BitVec n) :
    (BitVec.cons b v).getMsbD 0 = b := by
  simp [BitVec.getMsbD, BitVec.getElem_cons]

theorem cons_getMsbD_succ {n : Nat} (b : Bool) (v : BitVec n) (i : Nat) (hi : i < n) :
    (BitVec.cons b v).getMsbD (i + 1) = v.getMsbD i := by
  have h1 : n - 1 - i ≠ n := by omega
  have h2 : n - (i + 1) = n - 1 - i := by omega
  simp [BitVec.getMsbD, BitVec.getLsbD_cons, h1, hi, h2]

/-- R53, R55: bit `i` of the sequence stands at bit `n-1-i`, with zeros past its end. -/
theorem packMsb_getMsbD (n : Nat) (bits : Bits) (i : Nat) (hi : i < n) :
    (packMsb n bits).getMsbD i = bits.getD i false := by
  induction n generalizing bits i with
  | zero => omega
  | succ n ih =>
    cases bits <;> cases i <;> simp only [packMsb, cons_getMsbD_zero] <;>
      first
        | rfl
        | rw [cons_getMsbD_succ _ _ _ (by omega), ih _ _ (by omega)]; rfl

@[simp] theorem packMsb_nil (n : Nat) : packMsb n [] = 0#n := by
  induction n with
  | zero => rfl
  | succ n ih => rw [packMsb, ih]; simp

@[simp] theorem firstBits_length {w : Nat} (v : BitVec w) (n : Nat) :
    (firstBits v n).length = n := by simp [firstBits]

theorem firstBits_getD {w : Nat} (v : BitVec w) (n i : Nat) (hi : i < n) :
    (firstBits v n).getD i false = v.getMsbD i := by
  simp [firstBits, List.getD, hi]

/-- R54: bits taken MSB first from a packed byte are the bits that were packed. -/
theorem firstBits_packMsb (n : Nat) (bits : Bits) (h : bits.length ≤ n) :
    firstBits (packMsb n bits) bits.length = bits := by
  apply List.ext_getElem (by simp)
  intro i h1 h2
  have hi : i < n := by omega
  have := packMsb_getMsbD n bits i hi
  simp only [firstBits, List.getElem_map, List.getElem_range, this]
  simp [List.getD, h2]

end Sys2Proof.Machine
end

