-- ==== Sys2Proof/Laws/Encoder.lean ====
section
/-!
SUPPORT. The bit writer (spec/44_encoder.md rule R190).
-/

namespace Sys2Proof.Machine

@[simp] theorem BitWriter.appendAll_nil (w : BitWriter) : w.appendAll [] = w := rfl

@[simp] theorem BitWriter.appendAll_cons (w : BitWriter) (b : Bool) (bs : Bits) :
    w.appendAll (b :: bs) = (w.append b).appendAll bs := rfl

theorem BitWriter.appendAll_append (w : BitWriter) (a b : Bits) :
    w.appendAll (a ++ b) = (w.appendAll a).appendAll b := by
  simp [appendAll, List.foldl_append]

/-- Everything one appended bit can do to a writer with room (R190). -/
theorem BitWriter.append_spec (w : BitWriter) (b : Bool) (h : w.acc.length < 8) :
    (w.acc.length < 7 ∧ w.append b = ⟨w.acc ++ [b], w.out⟩) ∨
    (w.acc.length = 7 ∧ w.append b = ⟨[], w.out ++ [packMsb 8 (w.acc ++ [b])]⟩) := by
  unfold append
  by_cases h7 : w.acc.length = 7
  · exact .inr ⟨h7, by simp [h7]⟩
  · refine .inl ⟨by omega, ?_⟩
    rw [if_neg]
    simp
    omega

/-- The pending bits stay under a byte, and no bit is lost: what is pending and emitted counts every
bit appended (R190, R194). -/
theorem BitWriter.appendAll_length (w : BitWriter) (bits : Bits) (h : w.acc.length < 8) :
    (w.appendAll bits).acc.length < 8 ∧
      8 * (w.appendAll bits).out.length + (w.appendAll bits).acc.length =
        8 * w.out.length + w.acc.length + bits.length := by
  induction bits generalizing w with
  | nil => simp [h]
  | cons b bs ih =>
    rw [appendAll_cons]
    rcases w.append_spec b h with ⟨h7, he⟩ | ⟨h7, he⟩
    · have := ih (w.append b) (by simp [he]; omega)
      simp only [he, List.length_append, List.length_cons, List.length_nil] at this ⊢
      omega
    · have := ih (w.append b) (by simp [he])
      simp only [he, List.length_append, List.length_cons, List.length_nil] at this ⊢
      omega

/-- Bytes already emitted are not touched. -/
theorem BitWriter.appendAll_out (acc : Bits) (out : List Byte) (bits : Bits) :
    BitWriter.appendAll ⟨acc, out⟩ bits =
      ⟨(BitWriter.appendAll ⟨acc, []⟩ bits).acc, out ++ (BitWriter.appendAll ⟨acc, []⟩ bits).out⟩ := by
  induction bits generalizing acc out with
  | nil => simp
  | cons b bs ih =>
    simp only [appendAll_cons, append]
    split
    · rw [ih [], ih [] ([] ++ _)]; simp
    · rw [ih]

end Sys2Proof.Machine
end

