-- ==== Sys2Proof/Laws/State.lean ====
section
/-!
SUPPORT. One lemma per field of State per named update of Machine/Ops.lean, so that no proof unfolds
a record update.
-/

namespace Sys2Proof.Machine

variable {wSym wCnt : Nat} (s : State.For wSym wCnt)

@[simp] theorem State.For.respond_count (err : Err) (data : Word) :
    (s.respond err data).count = s.count := rfl
@[simp] theorem State.For.respond_total (err : Err) (data : Word) :
    (s.respond err data).total = s.total := rfl
@[simp] theorem State.For.respond_distinct (err : Err) (data : Word) :
    (s.respond err data).distinct = s.distinct := rfl
@[simp] theorem State.For.respond_node (err : Err) (data : Word) :
    (s.respond err data).node = s.node := rfl
@[simp] theorem State.For.respond_treeValid (err : Err) (data : Word) :
    (s.respond err data).treeValid = s.treeValid := rfl
@[simp] theorem State.For.respond_root (err : Err) (data : Word) :
    (s.respond err data).root = s.root := rfl
@[simp] theorem State.For.respond_nodeCount (err : Err) (data : Word) :
    (s.respond err data).nodeCount = s.nodeCount := rfl
@[simp] theorem State.For.respond_pq (err : Err) (data : Word) :
    (s.respond err data).pq = s.pq := rfl
@[simp] theorem State.For.respond_code (err : Err) (data : Word) :
    (s.respond err data).code = s.code := rfl
@[simp] theorem State.For.respond_codesValid (err : Err) (data : Word) :
    (s.respond err data).codesValid = s.codesValid := rfl
@[simp] theorem State.For.respond_encAcc (err : Err) (data : Word) :
    (s.respond err data).encAcc = s.encAcc := rfl
@[simp] theorem State.For.respond_encBits (err : Err) (data : Word) :
    (s.respond err data).encBits = s.encBits := rfl
@[simp] theorem State.For.respond_decCursor (err : Err) (data : Word) :
    (s.respond err data).decCursor = s.decCursor := rfl
@[simp] theorem State.For.respond_decBits (err : Err) (data : Word) :
    (s.respond err data).decBits = s.decBits := rfl
@[simp] theorem State.For.respond_fault (err : Err) (data : Word) :
    (s.respond err data).fault = s.fault := rfl
@[simp] theorem State.For.respond_faultCode (err : Err) (data : Word) :
    (s.respond err data).faultCode = s.faultCode := rfl
@[simp] theorem State.For.respond_bytesOut (err : Err) (data : Word) :
    (s.respond err data).bytesOut = s.bytesOut := rfl
@[simp] theorem State.For.respond_symsOut (err : Err) (data : Word) :
    (s.respond err data).symsOut = s.symsOut := rfl
@[simp] theorem State.For.respond_responses (err : Err) (data : Word) :
    (s.respond err data).responses = s.responses ++ [⟨err, data⟩] := rfl
@[simp] theorem State.For.respond_port (err : Err) (data : Word) :
    (s.respond err data).port = s.port := rfl
@[simp] theorem State.For.respond_draws (err : Err) (data : Word) :
    (s.respond err data).draws = s.draws := rfl

@[simp] theorem State.For.writeCounts_count (sym : Sym wSym) (v total : Count wCnt)
    (distinct : BitVec 16) :
    (s.writeCounts sym v total distinct).count = writeCount s.count sym v := rfl
@[simp] theorem State.For.writeCounts_total (sym : Sym wSym) (v total : Count wCnt)
    (distinct : BitVec 16) :
    (s.writeCounts sym v total distinct).total = total := rfl
@[simp] theorem State.For.writeCounts_distinct (sym : Sym wSym) (v total : Count wCnt)
    (distinct : BitVec 16) :
    (s.writeCounts sym v total distinct).distinct = distinct := rfl
@[simp] theorem State.For.writeCounts_node (sym : Sym wSym) (v total : Count wCnt)
    (distinct : BitVec 16) :
    (s.writeCounts sym v total distinct).node = s.node := rfl
@[simp] theorem State.For.writeCounts_treeValid (sym : Sym wSym) (v total : Count wCnt)
    (distinct : BitVec 16) :
    (s.writeCounts sym v total distinct).treeValid = s.treeValid := rfl
@[simp] theorem State.For.writeCounts_root (sym : Sym wSym) (v total : Count wCnt)
    (distinct : BitVec 16) :
    (s.writeCounts sym v total distinct).root = s.root := rfl
@[simp] theorem State.For.writeCounts_nodeCount (sym : Sym wSym) (v total : Count wCnt)
    (distinct : BitVec 16) :
    (s.writeCounts sym v total distinct).nodeCount = s.nodeCount := rfl
@[simp] theorem State.For.writeCounts_pq (sym : Sym wSym) (v total : Count wCnt)
    (distinct : BitVec 16) :
    (s.writeCounts sym v total distinct).pq = s.pq := rfl
@[simp] theorem State.For.writeCounts_code (sym : Sym wSym) (v total : Count wCnt)
    (distinct : BitVec 16) :
    (s.writeCounts sym v total distinct).code = s.code := rfl
@[simp] theorem State.For.writeCounts_codesValid (sym : Sym wSym) (v total : Count wCnt)
    (distinct : BitVec 16) :
    (s.writeCounts sym v total distinct).codesValid = s.codesValid := rfl
@[simp] theorem State.For.writeCounts_encAcc (sym : Sym wSym) (v total : Count wCnt)
    (distinct : BitVec 16) :
    (s.writeCounts sym v total distinct).encAcc = s.encAcc := rfl
@[simp] theorem State.For.writeCounts_encBits (sym : Sym wSym) (v total : Count wCnt)
    (distinct : BitVec 16) :
    (s.writeCounts sym v total distinct).encBits = s.encBits := rfl
@[simp] theorem State.For.writeCounts_decCursor (sym : Sym wSym) (v total : Count wCnt)
    (distinct : BitVec 16) :
    (s.writeCounts sym v total distinct).decCursor = s.decCursor := rfl
@[simp] theorem State.For.writeCounts_decBits (sym : Sym wSym) (v total : Count wCnt)
    (distinct : BitVec 16) :
    (s.writeCounts sym v total distinct).decBits = s.decBits := rfl
@[simp] theorem State.For.writeCounts_fault (sym : Sym wSym) (v total : Count wCnt)
    (distinct : BitVec 16) :
    (s.writeCounts sym v total distinct).fault = s.fault := rfl
@[simp] theorem State.For.writeCounts_faultCode (sym : Sym wSym) (v total : Count wCnt)
    (distinct : BitVec 16) :
    (s.writeCounts sym v total distinct).faultCode = s.faultCode := rfl
@[simp] theorem State.For.writeCounts_bytesOut (sym : Sym wSym) (v total : Count wCnt)
    (distinct : BitVec 16) :
    (s.writeCounts sym v total distinct).bytesOut = s.bytesOut := rfl
@[simp] theorem State.For.writeCounts_symsOut (sym : Sym wSym) (v total : Count wCnt)
    (distinct : BitVec 16) :
    (s.writeCounts sym v total distinct).symsOut = s.symsOut := rfl
@[simp] theorem State.For.writeCounts_responses (sym : Sym wSym) (v total : Count wCnt)
    (distinct : BitVec 16) :
    (s.writeCounts sym v total distinct).responses = s.responses := rfl
@[simp] theorem State.For.writeCounts_port (sym : Sym wSym) (v total : Count wCnt)
    (distinct : BitVec 16) :
    (s.writeCounts sym v total distinct).port = s.port := rfl
@[simp] theorem State.For.writeCounts_draws (sym : Sym wSym) (v total : Count wCnt)
    (distinct : BitVec 16) :
    (s.writeCounts sym v total distinct).draws = s.draws := rfl

@[simp] theorem State.For.writeTree_count (node : Arena wSym wCnt)
    (root nodeCount : NodeIdx wSym) (pq : List (QEntry wSym wCnt)) :
    (s.writeTree node root nodeCount pq).count = s.count := rfl
@[simp] theorem State.For.writeTree_total (node : Arena wSym wCnt)
    (root nodeCount : NodeIdx wSym) (pq : List (QEntry wSym wCnt)) :
    (s.writeTree node root nodeCount pq).total = s.total := rfl
@[simp] theorem State.For.writeTree_distinct (node : Arena wSym wCnt)
    (root nodeCount : NodeIdx wSym) (pq : List (QEntry wSym wCnt)) :
    (s.writeTree node root nodeCount pq).distinct = s.distinct := rfl
@[simp] theorem State.For.writeTree_node (node : Arena wSym wCnt)
    (root nodeCount : NodeIdx wSym) (pq : List (QEntry wSym wCnt)) :
    (s.writeTree node root nodeCount pq).node = node := rfl
@[simp] theorem State.For.writeTree_treeValid (node : Arena wSym wCnt)
    (root nodeCount : NodeIdx wSym) (pq : List (QEntry wSym wCnt)) :
    (s.writeTree node root nodeCount pq).treeValid = true := rfl
@[simp] theorem State.For.writeTree_root (node : Arena wSym wCnt)
    (root nodeCount : NodeIdx wSym) (pq : List (QEntry wSym wCnt)) :
    (s.writeTree node root nodeCount pq).root = root := rfl
@[simp] theorem State.For.writeTree_nodeCount (node : Arena wSym wCnt)
    (root nodeCount : NodeIdx wSym) (pq : List (QEntry wSym wCnt)) :
    (s.writeTree node root nodeCount pq).nodeCount = nodeCount := rfl
@[simp] theorem State.For.writeTree_pq (node : Arena wSym wCnt)
    (root nodeCount : NodeIdx wSym) (pq : List (QEntry wSym wCnt)) :
    (s.writeTree node root nodeCount pq).pq = pq := rfl
@[simp] theorem State.For.writeTree_code (node : Arena wSym wCnt)
    (root nodeCount : NodeIdx wSym) (pq : List (QEntry wSym wCnt)) :
    (s.writeTree node root nodeCount pq).code = s.code := rfl
@[simp] theorem State.For.writeTree_codesValid (node : Arena wSym wCnt)
    (root nodeCount : NodeIdx wSym) (pq : List (QEntry wSym wCnt)) :
    (s.writeTree node root nodeCount pq).codesValid = s.codesValid := rfl
@[simp] theorem State.For.writeTree_encAcc (node : Arena wSym wCnt)
    (root nodeCount : NodeIdx wSym) (pq : List (QEntry wSym wCnt)) :
    (s.writeTree node root nodeCount pq).encAcc = s.encAcc := rfl
@[simp] theorem State.For.writeTree_encBits (node : Arena wSym wCnt)
    (root nodeCount : NodeIdx wSym) (pq : List (QEntry wSym wCnt)) :
    (s.writeTree node root nodeCount pq).encBits = s.encBits := rfl
@[simp] theorem State.For.writeTree_decCursor (node : Arena wSym wCnt)
    (root nodeCount : NodeIdx wSym) (pq : List (QEntry wSym wCnt)) :
    (s.writeTree node root nodeCount pq).decCursor = root := rfl
@[simp] theorem State.For.writeTree_decBits (node : Arena wSym wCnt)
    (root nodeCount : NodeIdx wSym) (pq : List (QEntry wSym wCnt)) :
    (s.writeTree node root nodeCount pq).decBits = 0 := rfl
@[simp] theorem State.For.writeTree_fault (node : Arena wSym wCnt)
    (root nodeCount : NodeIdx wSym) (pq : List (QEntry wSym wCnt)) :
    (s.writeTree node root nodeCount pq).fault = s.fault := rfl
@[simp] theorem State.For.writeTree_faultCode (node : Arena wSym wCnt)
    (root nodeCount : NodeIdx wSym) (pq : List (QEntry wSym wCnt)) :
    (s.writeTree node root nodeCount pq).faultCode = s.faultCode := rfl
@[simp] theorem State.For.writeTree_bytesOut (node : Arena wSym wCnt)
    (root nodeCount : NodeIdx wSym) (pq : List (QEntry wSym wCnt)) :
    (s.writeTree node root nodeCount pq).bytesOut = s.bytesOut := rfl
@[simp] theorem State.For.writeTree_symsOut (node : Arena wSym wCnt)
    (root nodeCount : NodeIdx wSym) (pq : List (QEntry wSym wCnt)) :
    (s.writeTree node root nodeCount pq).symsOut = s.symsOut := rfl
@[simp] theorem State.For.writeTree_responses (node : Arena wSym wCnt)
    (root nodeCount : NodeIdx wSym) (pq : List (QEntry wSym wCnt)) :
    (s.writeTree node root nodeCount pq).responses = s.responses := rfl
@[simp] theorem State.For.writeTree_port (node : Arena wSym wCnt)
    (root nodeCount : NodeIdx wSym) (pq : List (QEntry wSym wCnt)) :
    (s.writeTree node root nodeCount pq).port = s.port := rfl
@[simp] theorem State.For.writeTree_draws (node : Arena wSym wCnt)
    (root nodeCount : NodeIdx wSym) (pq : List (QEntry wSym wCnt)) :
    (s.writeTree node root nodeCount pq).draws = s.draws := rfl

@[simp] theorem State.For.writeCodes_count (code : CodeTable wSym) :
    (s.writeCodes code).count = s.count := rfl
@[simp] theorem State.For.writeCodes_total (code : CodeTable wSym) :
    (s.writeCodes code).total = s.total := rfl
@[simp] theorem State.For.writeCodes_distinct (code : CodeTable wSym) :
    (s.writeCodes code).distinct = s.distinct := rfl
@[simp] theorem State.For.writeCodes_node (code : CodeTable wSym) :
    (s.writeCodes code).node = s.node := rfl
@[simp] theorem State.For.writeCodes_treeValid (code : CodeTable wSym) :
    (s.writeCodes code).treeValid = s.treeValid := rfl
@[simp] theorem State.For.writeCodes_root (code : CodeTable wSym) :
    (s.writeCodes code).root = s.root := rfl
@[simp] theorem State.For.writeCodes_nodeCount (code : CodeTable wSym) :
    (s.writeCodes code).nodeCount = s.nodeCount := rfl
@[simp] theorem State.For.writeCodes_pq (code : CodeTable wSym) :
    (s.writeCodes code).pq = s.pq := rfl
@[simp] theorem State.For.writeCodes_code (code : CodeTable wSym) :
    (s.writeCodes code).code = code := rfl
@[simp] theorem State.For.writeCodes_codesValid (code : CodeTable wSym) :
    (s.writeCodes code).codesValid = true := rfl
@[simp] theorem State.For.writeCodes_encAcc (code : CodeTable wSym) :
    (s.writeCodes code).encAcc = s.encAcc := rfl
@[simp] theorem State.For.writeCodes_encBits (code : CodeTable wSym) :
    (s.writeCodes code).encBits = s.encBits := rfl
@[simp] theorem State.For.writeCodes_decCursor (code : CodeTable wSym) :
    (s.writeCodes code).decCursor = s.decCursor := rfl
@[simp] theorem State.For.writeCodes_decBits (code : CodeTable wSym) :
    (s.writeCodes code).decBits = s.decBits := rfl
@[simp] theorem State.For.writeCodes_fault (code : CodeTable wSym) :
    (s.writeCodes code).fault = s.fault := rfl
@[simp] theorem State.For.writeCodes_faultCode (code : CodeTable wSym) :
    (s.writeCodes code).faultCode = s.faultCode := rfl
@[simp] theorem State.For.writeCodes_bytesOut (code : CodeTable wSym) :
    (s.writeCodes code).bytesOut = s.bytesOut := rfl
@[simp] theorem State.For.writeCodes_symsOut (code : CodeTable wSym) :
    (s.writeCodes code).symsOut = s.symsOut := rfl
@[simp] theorem State.For.writeCodes_responses (code : CodeTable wSym) :
    (s.writeCodes code).responses = s.responses := rfl
@[simp] theorem State.For.writeCodes_port (code : CodeTable wSym) :
    (s.writeCodes code).port = s.port := rfl
@[simp] theorem State.For.writeCodes_draws (code : CodeTable wSym) :
    (s.writeCodes code).draws = s.draws := rfl

@[simp] theorem State.For.writeEncoder_count (acc : Bits) (bits : BitCount) (out : List Byte) :
    (s.writeEncoder acc bits out).count = s.count := rfl
@[simp] theorem State.For.writeEncoder_total (acc : Bits) (bits : BitCount) (out : List Byte) :
    (s.writeEncoder acc bits out).total = s.total := rfl
@[simp] theorem State.For.writeEncoder_distinct (acc : Bits) (bits : BitCount) (out : List Byte) :
    (s.writeEncoder acc bits out).distinct = s.distinct := rfl
@[simp] theorem State.For.writeEncoder_node (acc : Bits) (bits : BitCount) (out : List Byte) :
    (s.writeEncoder acc bits out).node = s.node := rfl
@[simp] theorem State.For.writeEncoder_treeValid (acc : Bits) (bits : BitCount) (out : List Byte) :
    (s.writeEncoder acc bits out).treeValid = s.treeValid := rfl
@[simp] theorem State.For.writeEncoder_root (acc : Bits) (bits : BitCount) (out : List Byte) :
    (s.writeEncoder acc bits out).root = s.root := rfl
@[simp] theorem State.For.writeEncoder_nodeCount (acc : Bits) (bits : BitCount) (out : List Byte) :
    (s.writeEncoder acc bits out).nodeCount = s.nodeCount := rfl
@[simp] theorem State.For.writeEncoder_pq (acc : Bits) (bits : BitCount) (out : List Byte) :
    (s.writeEncoder acc bits out).pq = s.pq := rfl
@[simp] theorem State.For.writeEncoder_code (acc : Bits) (bits : BitCount) (out : List Byte) :
    (s.writeEncoder acc bits out).code = s.code := rfl
@[simp] theorem State.For.writeEncoder_codesValid (acc : Bits) (bits : BitCount) (out : List Byte) :
    (s.writeEncoder acc bits out).codesValid = s.codesValid := rfl
@[simp] theorem State.For.writeEncoder_encAcc (acc : Bits) (bits : BitCount) (out : List Byte) :
    (s.writeEncoder acc bits out).encAcc = acc := rfl
@[simp] theorem State.For.writeEncoder_encBits (acc : Bits) (bits : BitCount) (out : List Byte) :
    (s.writeEncoder acc bits out).encBits = bits := rfl
@[simp] theorem State.For.writeEncoder_decCursor (acc : Bits) (bits : BitCount) (out : List Byte) :
    (s.writeEncoder acc bits out).decCursor = s.decCursor := rfl
@[simp] theorem State.For.writeEncoder_decBits (acc : Bits) (bits : BitCount) (out : List Byte) :
    (s.writeEncoder acc bits out).decBits = s.decBits := rfl
@[simp] theorem State.For.writeEncoder_fault (acc : Bits) (bits : BitCount) (out : List Byte) :
    (s.writeEncoder acc bits out).fault = s.fault := rfl
@[simp] theorem State.For.writeEncoder_faultCode (acc : Bits) (bits : BitCount) (out : List Byte) :
    (s.writeEncoder acc bits out).faultCode = s.faultCode := rfl
@[simp] theorem State.For.writeEncoder_bytesOut (acc : Bits) (bits : BitCount) (out : List Byte) :
    (s.writeEncoder acc bits out).bytesOut = s.bytesOut ++ out := rfl
@[simp] theorem State.For.writeEncoder_symsOut (acc : Bits) (bits : BitCount) (out : List Byte) :
    (s.writeEncoder acc bits out).symsOut = s.symsOut := rfl
@[simp] theorem State.For.writeEncoder_responses (acc : Bits) (bits : BitCount) (out : List Byte) :
    (s.writeEncoder acc bits out).responses = s.responses := rfl
@[simp] theorem State.For.writeEncoder_port (acc : Bits) (bits : BitCount) (out : List Byte) :
    (s.writeEncoder acc bits out).port = s.port := rfl
@[simp] theorem State.For.writeEncoder_draws (acc : Bits) (bits : BitCount) (out : List Byte) :
    (s.writeEncoder acc bits out).draws = s.draws := rfl

@[simp] theorem State.For.writeDecoder_count (cursor : NodeIdx wSym) (bits : BitCount)
    (out : List (Sym wSym)) :
    (s.writeDecoder cursor bits out).count = s.count := rfl
@[simp] theorem State.For.writeDecoder_total (cursor : NodeIdx wSym) (bits : BitCount)
    (out : List (Sym wSym)) :
    (s.writeDecoder cursor bits out).total = s.total := rfl
@[simp] theorem State.For.writeDecoder_distinct (cursor : NodeIdx wSym) (bits : BitCount)
    (out : List (Sym wSym)) :
    (s.writeDecoder cursor bits out).distinct = s.distinct := rfl
@[simp] theorem State.For.writeDecoder_node (cursor : NodeIdx wSym) (bits : BitCount)
    (out : List (Sym wSym)) :
    (s.writeDecoder cursor bits out).node = s.node := rfl
@[simp] theorem State.For.writeDecoder_treeValid (cursor : NodeIdx wSym) (bits : BitCount)
    (out : List (Sym wSym)) :
    (s.writeDecoder cursor bits out).treeValid = s.treeValid := rfl
@[simp] theorem State.For.writeDecoder_root (cursor : NodeIdx wSym) (bits : BitCount)
    (out : List (Sym wSym)) :
    (s.writeDecoder cursor bits out).root = s.root := rfl
@[simp] theorem State.For.writeDecoder_nodeCount (cursor : NodeIdx wSym) (bits : BitCount)
    (out : List (Sym wSym)) :
    (s.writeDecoder cursor bits out).nodeCount = s.nodeCount := rfl
@[simp] theorem State.For.writeDecoder_pq (cursor : NodeIdx wSym) (bits : BitCount)
    (out : List (Sym wSym)) :
    (s.writeDecoder cursor bits out).pq = s.pq := rfl
@[simp] theorem State.For.writeDecoder_code (cursor : NodeIdx wSym) (bits : BitCount)
    (out : List (Sym wSym)) :
    (s.writeDecoder cursor bits out).code = s.code := rfl
@[simp] theorem State.For.writeDecoder_codesValid (cursor : NodeIdx wSym) (bits : BitCount)
    (out : List (Sym wSym)) :
    (s.writeDecoder cursor bits out).codesValid = s.codesValid := rfl
@[simp] theorem State.For.writeDecoder_encAcc (cursor : NodeIdx wSym) (bits : BitCount)
    (out : List (Sym wSym)) :
    (s.writeDecoder cursor bits out).encAcc = s.encAcc := rfl
@[simp] theorem State.For.writeDecoder_encBits (cursor : NodeIdx wSym) (bits : BitCount)
    (out : List (Sym wSym)) :
    (s.writeDecoder cursor bits out).encBits = s.encBits := rfl
@[simp] theorem State.For.writeDecoder_decCursor (cursor : NodeIdx wSym) (bits : BitCount)
    (out : List (Sym wSym)) :
    (s.writeDecoder cursor bits out).decCursor = cursor := rfl
@[simp] theorem State.For.writeDecoder_decBits (cursor : NodeIdx wSym) (bits : BitCount)
    (out : List (Sym wSym)) :
    (s.writeDecoder cursor bits out).decBits = bits := rfl
@[simp] theorem State.For.writeDecoder_fault (cursor : NodeIdx wSym) (bits : BitCount)
    (out : List (Sym wSym)) :
    (s.writeDecoder cursor bits out).fault = s.fault := rfl
@[simp] theorem State.For.writeDecoder_faultCode (cursor : NodeIdx wSym) (bits : BitCount)
    (out : List (Sym wSym)) :
    (s.writeDecoder cursor bits out).faultCode = s.faultCode := rfl
@[simp] theorem State.For.writeDecoder_bytesOut (cursor : NodeIdx wSym) (bits : BitCount)
    (out : List (Sym wSym)) :
    (s.writeDecoder cursor bits out).bytesOut = s.bytesOut := rfl
@[simp] theorem State.For.writeDecoder_symsOut (cursor : NodeIdx wSym) (bits : BitCount)
    (out : List (Sym wSym)) :
    (s.writeDecoder cursor bits out).symsOut = s.symsOut ++ out := rfl
@[simp] theorem State.For.writeDecoder_responses (cursor : NodeIdx wSym) (bits : BitCount)
    (out : List (Sym wSym)) :
    (s.writeDecoder cursor bits out).responses = s.responses := rfl
@[simp] theorem State.For.writeDecoder_port (cursor : NodeIdx wSym) (bits : BitCount)
    (out : List (Sym wSym)) :
    (s.writeDecoder cursor bits out).port = s.port := rfl
@[simp] theorem State.For.writeDecoder_draws (cursor : NodeIdx wSym) (bits : BitCount)
    (out : List (Sym wSym)) :
    (s.writeDecoder cursor bits out).draws = s.draws := rfl

@[simp] theorem State.For.clearCore_count :
    (s.clearCore).count = Vector.replicate (2 ^ wSym) 0 := rfl
@[simp] theorem State.For.clearCore_total : (s.clearCore).total = 0 := rfl
@[simp] theorem State.For.clearCore_distinct : (s.clearCore).distinct = 0 := rfl
@[simp] theorem State.For.clearCore_node : (s.clearCore).node = .free s.draws := rfl
@[simp] theorem State.For.clearCore_treeValid : (s.clearCore).treeValid = false := rfl
@[simp] theorem State.For.clearCore_root : (s.clearCore).root = .null := rfl
@[simp] theorem State.For.clearCore_nodeCount : (s.clearCore).nodeCount = 0 := rfl
@[simp] theorem State.For.clearCore_pq : (s.clearCore).pq = [] := rfl
@[simp] theorem State.For.clearCore_code : (s.clearCore).code = .free s.draws := rfl
@[simp] theorem State.For.clearCore_codesValid : (s.clearCore).codesValid = false := rfl
@[simp] theorem State.For.clearCore_encAcc : (s.clearCore).encAcc = [] := rfl
@[simp] theorem State.For.clearCore_encBits : (s.clearCore).encBits = 0 := rfl
@[simp] theorem State.For.clearCore_decCursor : (s.clearCore).decCursor = .null := rfl
@[simp] theorem State.For.clearCore_decBits : (s.clearCore).decBits = 0 := rfl
@[simp] theorem State.For.clearCore_fault : (s.clearCore).fault = false := rfl
@[simp] theorem State.For.clearCore_faultCode : (s.clearCore).faultCode = 0 := rfl
@[simp] theorem State.For.clearCore_bytesOut : (s.clearCore).bytesOut = s.bytesOut := rfl
@[simp] theorem State.For.clearCore_symsOut : (s.clearCore).symsOut = s.symsOut := rfl
@[simp] theorem State.For.clearCore_responses : (s.clearCore).responses = s.responses := rfl
@[simp] theorem State.For.clearCore_port : (s.clearCore).port = s.port := rfl
@[simp] theorem State.For.clearCore_draws : (s.clearCore).draws = s.draws + 1 := rfl

@[simp] theorem State.For.takeEvent_count (rest : List HostEvent) :
    (s.takeEvent rest).count = s.count := rfl
@[simp] theorem State.For.takeEvent_total (rest : List HostEvent) :
    (s.takeEvent rest).total = s.total := rfl
@[simp] theorem State.For.takeEvent_distinct (rest : List HostEvent) :
    (s.takeEvent rest).distinct = s.distinct := rfl
@[simp] theorem State.For.takeEvent_node (rest : List HostEvent) :
    (s.takeEvent rest).node = s.node := rfl
@[simp] theorem State.For.takeEvent_treeValid (rest : List HostEvent) :
    (s.takeEvent rest).treeValid = s.treeValid := rfl
@[simp] theorem State.For.takeEvent_root (rest : List HostEvent) :
    (s.takeEvent rest).root = s.root := rfl
@[simp] theorem State.For.takeEvent_nodeCount (rest : List HostEvent) :
    (s.takeEvent rest).nodeCount = s.nodeCount := rfl
@[simp] theorem State.For.takeEvent_pq (rest : List HostEvent) : (s.takeEvent rest).pq = s.pq := rfl
@[simp] theorem State.For.takeEvent_code (rest : List HostEvent) :
    (s.takeEvent rest).code = s.code := rfl
@[simp] theorem State.For.takeEvent_codesValid (rest : List HostEvent) :
    (s.takeEvent rest).codesValid = s.codesValid := rfl
@[simp] theorem State.For.takeEvent_encAcc (rest : List HostEvent) :
    (s.takeEvent rest).encAcc = s.encAcc := rfl
@[simp] theorem State.For.takeEvent_encBits (rest : List HostEvent) :
    (s.takeEvent rest).encBits = s.encBits := rfl
@[simp] theorem State.For.takeEvent_decCursor (rest : List HostEvent) :
    (s.takeEvent rest).decCursor = s.decCursor := rfl
@[simp] theorem State.For.takeEvent_decBits (rest : List HostEvent) :
    (s.takeEvent rest).decBits = s.decBits := rfl
@[simp] theorem State.For.takeEvent_fault (rest : List HostEvent) :
    (s.takeEvent rest).fault = s.fault := rfl
@[simp] theorem State.For.takeEvent_faultCode (rest : List HostEvent) :
    (s.takeEvent rest).faultCode = s.faultCode := rfl
@[simp] theorem State.For.takeEvent_bytesOut (rest : List HostEvent) :
    (s.takeEvent rest).bytesOut = s.bytesOut := rfl
@[simp] theorem State.For.takeEvent_symsOut (rest : List HostEvent) :
    (s.takeEvent rest).symsOut = s.symsOut := rfl
@[simp] theorem State.For.takeEvent_responses (rest : List HostEvent) :
    (s.takeEvent rest).responses = s.responses := rfl
@[simp] theorem State.For.takeEvent_port (rest : List HostEvent) :
    (s.takeEvent rest).port = rest := rfl
@[simp] theorem State.For.takeEvent_draws (rest : List HostEvent) :
    (s.takeEvent rest).draws = s.draws := rfl

@[simp] theorem State.For.present_count (w : Word) : (s.present w).count = s.count := rfl
@[simp] theorem State.For.present_total (w : Word) : (s.present w).total = s.total := rfl
@[simp] theorem State.For.present_distinct (w : Word) : (s.present w).distinct = s.distinct := rfl
@[simp] theorem State.For.present_node (w : Word) : (s.present w).node = s.node := rfl
@[simp] theorem State.For.present_treeValid (w : Word) :
    (s.present w).treeValid = s.treeValid := rfl
@[simp] theorem State.For.present_root (w : Word) : (s.present w).root = s.root := rfl
@[simp] theorem State.For.present_nodeCount (w : Word) :
    (s.present w).nodeCount = s.nodeCount := rfl
@[simp] theorem State.For.present_pq (w : Word) : (s.present w).pq = s.pq := rfl
@[simp] theorem State.For.present_code (w : Word) : (s.present w).code = s.code := rfl
@[simp] theorem State.For.present_codesValid (w : Word) :
    (s.present w).codesValid = s.codesValid := rfl
@[simp] theorem State.For.present_encAcc (w : Word) : (s.present w).encAcc = s.encAcc := rfl
@[simp] theorem State.For.present_encBits (w : Word) : (s.present w).encBits = s.encBits := rfl
@[simp] theorem State.For.present_decCursor (w : Word) :
    (s.present w).decCursor = s.decCursor := rfl
@[simp] theorem State.For.present_decBits (w : Word) : (s.present w).decBits = s.decBits := rfl
@[simp] theorem State.For.present_fault (w : Word) : (s.present w).fault = s.fault := rfl
@[simp] theorem State.For.present_faultCode (w : Word) :
    (s.present w).faultCode = s.faultCode := rfl
@[simp] theorem State.For.present_bytesOut (w : Word) : (s.present w).bytesOut = s.bytesOut := rfl
@[simp] theorem State.For.present_symsOut (w : Word) : (s.present w).symsOut = s.symsOut := rfl
@[simp] theorem State.For.present_responses (w : Word) :
    (s.present w).responses = s.responses := rfl
@[simp] theorem State.For.present_port (w : Word) : (s.present w).port = .command w :: s.port := rfl
@[simp] theorem State.For.present_draws (w : Word) : (s.present w).draws = s.draws := rfl

@[simp] theorem State.For.latch_count (e : Err) : (s.latch e).count = s.count := by
  unfold State.For.latch; split <;> rfl
@[simp] theorem State.For.latch_total (e : Err) : (s.latch e).total = s.total := by
  unfold State.For.latch; split <;> rfl
@[simp] theorem State.For.latch_distinct (e : Err) : (s.latch e).distinct = s.distinct := by
  unfold State.For.latch; split <;> rfl
@[simp] theorem State.For.latch_node (e : Err) : (s.latch e).node = s.node := by
  unfold State.For.latch; split <;> rfl
@[simp] theorem State.For.latch_treeValid (e : Err) : (s.latch e).treeValid = s.treeValid := by
  unfold State.For.latch; split <;> rfl
@[simp] theorem State.For.latch_root (e : Err) : (s.latch e).root = s.root := by
  unfold State.For.latch; split <;> rfl
@[simp] theorem State.For.latch_nodeCount (e : Err) : (s.latch e).nodeCount = s.nodeCount := by
  unfold State.For.latch; split <;> rfl
@[simp] theorem State.For.latch_pq (e : Err) : (s.latch e).pq = s.pq := by
  unfold State.For.latch; split <;> rfl
@[simp] theorem State.For.latch_code (e : Err) : (s.latch e).code = s.code := by
  unfold State.For.latch; split <;> rfl
@[simp] theorem State.For.latch_codesValid (e : Err) : (s.latch e).codesValid = s.codesValid := by
  unfold State.For.latch; split <;> rfl
@[simp] theorem State.For.latch_encAcc (e : Err) : (s.latch e).encAcc = s.encAcc := by
  unfold State.For.latch; split <;> rfl
@[simp] theorem State.For.latch_encBits (e : Err) : (s.latch e).encBits = s.encBits := by
  unfold State.For.latch; split <;> rfl
@[simp] theorem State.For.latch_decCursor (e : Err) : (s.latch e).decCursor = s.decCursor := by
  unfold State.For.latch; split <;> rfl
@[simp] theorem State.For.latch_decBits (e : Err) : (s.latch e).decBits = s.decBits := by
  unfold State.For.latch; split <;> rfl
@[simp] theorem State.For.latch_bytesOut (e : Err) : (s.latch e).bytesOut = s.bytesOut := by
  unfold State.For.latch; split <;> rfl
@[simp] theorem State.For.latch_symsOut (e : Err) : (s.latch e).symsOut = s.symsOut := by
  unfold State.For.latch; split <;> rfl
@[simp] theorem State.For.latch_responses (e : Err) : (s.latch e).responses = s.responses := by
  unfold State.For.latch; split <;> rfl
@[simp] theorem State.For.latch_port (e : Err) : (s.latch e).port = s.port := by
  unfold State.For.latch; split <;> rfl
@[simp] theorem State.For.latch_draws (e : Err) : (s.latch e).draws = s.draws := by
  unfold State.For.latch; split <;> rfl

@[simp] theorem State.For.latch_fault (e : Err) : (s.latch e).fault = (s.fault || e.fatal) := by
  unfold State.For.latch; cases he : e.fatal <;> cases hf : s.fault <;> simp [hf]

/-- R243: the first fatal error's code stays in `FAULT_CODE`. -/
@[simp] theorem State.For.latch_faultCode (e : Err) :
    (s.latch e).faultCode = if e.fatal && !s.fault then e.code else s.faultCode := by
  unfold State.For.latch; split <;> rfl

@[simp] theorem State.For.raise_count (e : Err) :
    (s.raise e).count = s.count := by
  simp [State.For.raise]
@[simp] theorem State.For.raise_total (e : Err) :
    (s.raise e).total = s.total := by
  simp [State.For.raise]
@[simp] theorem State.For.raise_distinct (e : Err) :
    (s.raise e).distinct = s.distinct := by
  simp [State.For.raise]
@[simp] theorem State.For.raise_node (e : Err) :
    (s.raise e).node = s.node := by
  simp [State.For.raise]
@[simp] theorem State.For.raise_treeValid (e : Err) :
    (s.raise e).treeValid = s.treeValid := by
  simp [State.For.raise]
@[simp] theorem State.For.raise_root (e : Err) :
    (s.raise e).root = s.root := by
  simp [State.For.raise]
@[simp] theorem State.For.raise_nodeCount (e : Err) :
    (s.raise e).nodeCount = s.nodeCount := by
  simp [State.For.raise]
@[simp] theorem State.For.raise_pq (e : Err) :
    (s.raise e).pq = s.pq := by
  simp [State.For.raise]
@[simp] theorem State.For.raise_code (e : Err) :
    (s.raise e).code = s.code := by
  simp [State.For.raise]
@[simp] theorem State.For.raise_codesValid (e : Err) :
    (s.raise e).codesValid = s.codesValid := by
  simp [State.For.raise]
@[simp] theorem State.For.raise_encAcc (e : Err) :
    (s.raise e).encAcc = s.encAcc := by
  simp [State.For.raise]
@[simp] theorem State.For.raise_encBits (e : Err) :
    (s.raise e).encBits = s.encBits := by
  simp [State.For.raise]
@[simp] theorem State.For.raise_decCursor (e : Err) :
    (s.raise e).decCursor = s.decCursor := by
  simp [State.For.raise]
@[simp] theorem State.For.raise_decBits (e : Err) :
    (s.raise e).decBits = s.decBits := by
  simp [State.For.raise]
@[simp] theorem State.For.raise_fault (e : Err) :
    (s.raise e).fault = (s.fault || e.fatal) := by
  simp [State.For.raise]
@[simp] theorem State.For.raise_faultCode (e : Err) :
    (s.raise e).faultCode = if e.fatal && !s.fault then e.code else s.faultCode := by
  simp [State.For.raise]
@[simp] theorem State.For.raise_bytesOut (e : Err) :
    (s.raise e).bytesOut = s.bytesOut := by
  simp [State.For.raise]
@[simp] theorem State.For.raise_symsOut (e : Err) :
    (s.raise e).symsOut = s.symsOut := by
  simp [State.For.raise]
@[simp] theorem State.For.raise_responses (e : Err) :
    (s.raise e).responses = s.responses ++ [⟨e, 0⟩] := by
  simp [State.For.raise]
@[simp] theorem State.For.raise_port (e : Err) :
    (s.raise e).port = s.port := by
  simp [State.For.raise]
@[simp] theorem State.For.raise_draws (e : Err) :
    (s.raise e).draws = s.draws := by
  simp [State.For.raise]

@[simp] theorem State.For.idle_eq : s.idle = s := rfl

end Sys2Proof.Machine
end

