-- ==== Sys2Proof/Laws/Ops.lean ====
section
/-!
SUPPORT. What the command cycle can do (spec/60_exceptions.md rules R243, R245): one lemma per
shared operation of Machine/Ops.lean.
-/

namespace Sys2Proof.Machine

variable {wSym wCnt : Nat}

@[simp] theorem firstError_nil : firstError [] = none := rfl

@[simp] theorem firstError_cons (failed : Bool) (e : Err) (rest : List (Bool × Err)) :
    firstError ((failed, e) :: rest) = if failed then some e else firstError rest := rfl

/-- R245 step 6: a command passes exactly when no check fails. -/
theorem firstError_eq_none_iff (cs : List (Bool × Err)) :
    firstError cs = none ↔ ∀ c ∈ cs, c.1 = false := by
  induction cs with
  | nil => simp
  | cons c cs ih =>
    obtain ⟨failed, e⟩ := c
    cases failed <;> simp [ih]

/-- The error of a command is the error of one of its failing checks. -/
theorem firstError_mem {cs : List (Bool × Err)} {e : Err} (h : firstError cs = some e) :
    (true, e) ∈ cs := by
  induction cs with
  | nil => simp at h
  | cons c cs ih =>
    obtain ⟨failed, f⟩ := c
    cases failed with
    | true => simp at h; simp [h]
    | false => simp at h; exact List.mem_cons_of_mem _ (ih h)

@[simp] theorem runChecked_nil (s : State.For wSym wCnt) (run : Outcome wSym wCnt) : runChecked s [] run = run := rfl

theorem runChecked_cons (s : State.For wSym wCnt) (failed : Bool) (e : Err) (rest : List (Bool × Err))
    (run : Outcome wSym wCnt) :
    runChecked s ((failed, e) :: rest) run =
      if failed then .next (s.raise e) else runChecked s rest run := by
  cases failed <;> rfl

/-- Every outcome of a checked command: the error of a failing check is raised, or no check fails
and the command runs. -/
theorem runChecked_cases (s : State.For wSym wCnt) (cs : List (Bool × Err)) (run : Outcome wSym wCnt) :
    (∃ e, (true, e) ∈ cs ∧ firstError cs = some e ∧ runChecked s cs run = .next (s.raise e)) ∨
    (firstError cs = none ∧ runChecked s cs run = run) := by
  unfold runChecked
  cases h : firstError cs with
  | none => exact .inr ⟨rfl, rfl⟩
  | some e => exact .inl ⟨e, firstError_mem h, rfl, rfl⟩

/-- A checked command that gives a next state raised an error or ran. -/
theorem runChecked_next {s t : State.For wSym wCnt} {cs : List (Bool × Err)} {run : Outcome wSym wCnt}
    (h : runChecked s cs run = .next t) :
    (∃ e, (true, e) ∈ cs ∧ t = s.raise e) ∨ ((∀ c ∈ cs, c.1 = false) ∧ run = .next t) := by
  rcases runChecked_cases s cs run with ⟨e, hm, _, hr⟩ | ⟨hn, hr⟩
  · rw [hr] at h
    cases h
    exact .inl ⟨e, hm, rfl⟩
  · exact .inr ⟨(firstError_eq_none_iff cs).1 hn, hr ▸ h⟩

@[simp] theorem gate_eq (s : State.For wSym wCnt) (i : Instr) :
    gate s i = [(s.fault, .faulted), (!i.wf wSym, .illegalOperand)] := rfl

@[simp] theorem noGate_eq (i : Instr) : noGate wSym i = [(!i.wf wSym, .illegalOperand)] := rfl

/-- A rejection latches nothing (R243). -/
theorem State.For.latch_of_not_fatal (s : State.For wSym wCnt) {e : Err} (h : e.fatal = false) : s.latch e = s := by
  simp [State.For.latch, h]

/-- A later fatal error of the session latches nothing (R243). -/
theorem State.For.latch_of_fault (s : State.For wSym wCnt) (e : Err) (h : s.fault = true) : s.latch e = s := by
  simp [State.For.latch, h]

/-- What a word that is no command does: a rejection at the fault gate, or its verdict. -/
theorem State.For.rejectWord_cases (s : State.For wSym wCnt) (w : Word) (verdict : Err) :
    (s.fault = true ∧ isControlOpcode w = false ∧ s.rejectWord w verdict = s.raise .faulted) ∨
    ((s.fault = false ∨ isControlOpcode w = true) ∧ s.rejectWord w verdict = s.raise verdict) := by
  unfold State.For.rejectWord
  cases s.fault <;> cases isControlOpcode w <;> simp

end Sys2Proof.Machine
end

