-- ==== Sys2Proof/Laws/Exec.lean ====
section
/-!
SUPPORT. One inversion lemma per command: every next state it can give. Either an error was raised
(with one of the errors named), or every check passed and the state is the one the command's rule
gives. Invariants and frames follow from these without unfolding a meaning.
-/

namespace Sys2Proof.Machine

variable {wSym wCnt : Nat}

/-! The operand check of a command that names a symbol or a node by its own field (R73 to R76). -/

theorem wf_accum (h : wSym ≤ 16) (sym : Sym wSym) : Instr.wf wSym (.accum (symField sym)) = true := by
  simpa [Instr.wf] using symField_lt h sym

theorem wf_countRead (h : wSym ≤ 16) (sym : Sym wSym) :
    Instr.wf wSym (.countRead (symField sym)) = true := by
  simpa [Instr.wf] using symField_lt h sym

theorem wf_codeLen (h : wSym ≤ 16) (sym : Sym wSym) :
    Instr.wf wSym (.codeLen (symField sym)) = true := by
  simpa [Instr.wf] using symField_lt h sym

theorem wf_encSym (h : wSym ≤ 16) (sym : Sym wSym) :
    Instr.wf wSym (.encSym (symField sym)) = true := by
  simpa [Instr.wf] using symField_lt h sym

theorem wf_codeBits (h : wSym ≤ 16) (sym : Sym wSym) (word : BitVec 8) :
    Instr.wf wSym (.codeBits (symField sym) word) = decide (word.toNat < Config.codeWords wSym) := by
  simpa [Instr.wf] using fun _ => symField_lt h sym

theorem execNop_eq (s : State.For wSym wCnt) : execNop s = .next (s.respond .ok s.status) := rfl

theorem execClear_eq (s : State.For wSym wCnt) : execClear s = .next (s.clearCore.respond .ok 0) := rfl

theorem execRegRead_next {sel : BitVec 4} {s t : State.For wSym wCnt} (h : execRegRead sel s = .next t) :
    t = s.raise .illegalOperand ∨
      (Instr.wf wSym (.regRead sel) = true ∧ t = s.respond .ok (s.regValue sel)) := by
  rcases runChecked_next h with ⟨e, hm, rfl⟩ | ⟨hn, hr⟩
  · simp at hm; exact .inl (by rw [hm.2])
  · simp at hn; cases hr; exact .inr ⟨hn, rfl⟩

theorem execAccum_next {sym : BitVec 16} {s t : State.For wSym wCnt} (h : execAccum sym s = .next t) :
    (∃ e, e ∈ [Err.faulted, .illegalOperand, .sequence, .countOverflow] ∧ t = s.raise e) ∨
      (s.fault = false ∧ s.treeValid = false ∧ s.totalFull = false ∧
        t = (s.writeCounts (fieldSym sym) (s.countAt (fieldSym sym) + 1) (s.total + 1)
          (if s.countAt (fieldSym sym) = 0 then s.distinct + 1 else s.distinct)).respond .ok
            (zext32 (s.countAt (fieldSym sym) + 1))) := by
  rcases runChecked_next h with ⟨e, hm, rfl⟩ | ⟨hn, hr⟩
  · exact .inl ⟨e, by simp at hm ⊢; tauto, rfl⟩
  · simp at hn
    cases hr
    exact .inr ⟨by tauto, by tauto, by tauto, rfl⟩

theorem execCountRead_next {sym : BitVec 16} {s t : State.For wSym wCnt} (h : execCountRead sym s = .next t) :
    (∃ e, e ∈ [Err.faulted, .illegalOperand] ∧ t = s.raise e) ∨
      (s.fault = false ∧ t = s.respond .ok (zext32 (s.countAt (fieldSym sym)))) := by
  rcases runChecked_next h with ⟨e, hm, rfl⟩ | ⟨hn, hr⟩
  · exact .inl ⟨e, by simp at hm ⊢; tauto, rfl⟩
  · simp at hn
    cases hr
    exact .inr ⟨by tauto, rfl⟩

theorem execBuild_next {s t : State.For wSym wCnt} (h : execBuild s = .next t) :
    (∃ e, e ∈ [Err.faulted, .illegalOperand, .sequence] ∧ t = s.raise e) ∨
      (s.fault = false ∧ s.treeValid = false ∧
        t = (s.writeTree (buildTree s.count s.node s.pq).node (buildTree s.count s.node s.pq).root
          (buildTree s.count s.node s.pq).nodeCount
          (buildTree s.count s.node s.pq).queue).respond .ok
            (zext32 (buildTree s.count s.node s.pq).nodeCount)) := by
  rcases runChecked_next h with ⟨e, hm, rfl⟩ | ⟨hn, hr⟩
  · exact .inl ⟨e, by simp at hm ⊢; tauto, rfl⟩
  · simp at hn
    cases hr
    exact .inr ⟨by tauto, by tauto, rfl⟩

theorem execNodeRead_next {idx : BitVec 16} {nsel : BitVec 2} {s t : State.For wSym wCnt}
    (h : execNodeRead idx nsel s = .next t) :
    (∃ e, e ∈ [Err.faulted, .illegalOperand, .sequence] ∧ t = s.raise e) ∨
      (s.fault = false ∧ Instr.wf wSym (.nodeRead idx nsel) = true ∧ s.treeValid = true ∧
        t = s.respond .ok (nodeField (s.visibleNode (fieldIdx idx)) nsel)) := by
  rcases runChecked_next h with ⟨e, hm, rfl⟩ | ⟨hn, hr⟩
  · exact .inl ⟨e, by simp at hm ⊢; tauto, rfl⟩
  · simp at hn
    cases hr
    exact .inr ⟨by tauto, by tauto, by tauto, rfl⟩

theorem execGenCodes_next {s t : State.For wSym wCnt} (h : execGenCodes s = .next t) :
    (∃ e, e ∈ [Err.faulted, .illegalOperand, .sequence] ∧ t = s.raise e) ∨
      (s.fault = false ∧ s.treeValid = true ∧ ∃ table, genTable s = some table ∧
        t = (s.writeCodes table).respond .ok (zext32 s.distinct)) := by
  rcases runChecked_next h with ⟨e, hm, rfl⟩ | ⟨hn, hr⟩
  · exact .inl ⟨e, by simp at hm ⊢; tauto, rfl⟩
  · simp at hn
    cases ht : genTable s with
    | none => rw [ht] at hr; cases hr
    | some table =>
      rw [ht] at hr
      cases hr
      exact .inr ⟨by tauto, by tauto, table, rfl, rfl⟩

theorem execCodeLen_next {sym : BitVec 16} {s t : State.For wSym wCnt} (h : execCodeLen sym s = .next t) :
    (∃ e, e ∈ [Err.faulted, .illegalOperand, .sequence] ∧ t = s.raise e) ∨
      (s.fault = false ∧ s.codesValid = true ∧ t = s.respond .ok (codeLenData (s.codeAt (fieldSym sym)))) := by
  rcases runChecked_next h with ⟨e, hm, rfl⟩ | ⟨hn, hr⟩
  · exact .inl ⟨e, by simp at hm ⊢; tauto, rfl⟩
  · simp at hn
    cases hr
    exact .inr ⟨by tauto, by tauto, rfl⟩

theorem execCodeBits_next {sym : BitVec 16} {word : BitVec 8} {s t : State.For wSym wCnt}
    (h : execCodeBits sym word s = .next t) :
    (∃ e, e ∈ [Err.faulted, .illegalOperand, .sequence] ∧ t = s.raise e) ∨
      (s.fault = false ∧ Instr.wf wSym (.codeBits sym word) = true ∧ s.codesValid = true ∧
        t = s.respond .ok (codeBitsData (s.codeAt (fieldSym sym)) word)) := by
  rcases runChecked_next h with ⟨e, hm, rfl⟩ | ⟨hn, hr⟩
  · exact .inl ⟨e, by simp at hm ⊢; tauto, rfl⟩
  · simp at hn
    cases hr
    exact .inr ⟨by tauto, by tauto, by tauto, rfl⟩

theorem execEncSym_next {sym : BitVec 16} {s t : State.For wSym wCnt} (h : execEncSym sym s = .next t) :
    (∃ e, e ∈ [Err.faulted, .illegalOperand, .sequence, .symbolNotInTable, .bitcountOverflow] ∧
        t = s.raise e) ∨
      (s.fault = false ∧ s.codesValid = true ∧ (s.codeAt (fieldSym sym)).valid = true ∧
        bitCountOverflows s.encBits (s.codeAt (fieldSym sym)).len = false ∧
        t = (s.writeEncoder (BitWriter.appendAll ⟨s.encAcc, []⟩ (s.codeAt (fieldSym sym)).bits).acc
          (s.encBits + BitVec.ofNat 32 (s.codeAt (fieldSym sym)).len)
          (BitWriter.appendAll ⟨s.encAcc, []⟩ (s.codeAt (fieldSym sym)).bits).out).respond .ok
            (BitVec.ofNat 32
              (BitWriter.appendAll ⟨s.encAcc, []⟩ (s.codeAt (fieldSym sym)).bits).out.length)) := by
  rcases runChecked_next h with ⟨e, hm, rfl⟩ | ⟨hn, hr⟩
  · exact .inl ⟨e, by simp at hm ⊢; tauto, rfl⟩
  · simp at hn
    cases hr
    exact .inr ⟨by tauto, by tauto, by tauto, by tauto, rfl⟩

theorem execEncFlush_next {s t : State.For wSym wCnt} (h : execEncFlush s = .next t) :
    (∃ e, e ∈ [Err.faulted, .illegalOperand, .sequence] ∧ t = s.raise e) ∨
      (s.fault = false ∧ s.codesValid = true ∧
        t = (s.writeEncoder [] 0 (flushBytes s.encAcc)).respond .ok (zext32 s.encBits)) := by
  rcases runChecked_next h with ⟨e, hm, rfl⟩ | ⟨hn, hr⟩
  · exact .inl ⟨e, by simp at hm ⊢; tauto, rfl⟩
  · simp at hn
    cases hr
    exact .inr ⟨by tauto, by tauto, rfl⟩

theorem execDecByte_next {byte : Byte} {nbits : BitVec 4} {s t : State.For wSym wCnt}
    (h : execDecByte byte nbits s = .next t) :
    (∃ e, e ∈ [Err.faulted, .illegalOperand, .sequence, .bitcountOverflow] ∧ t = s.raise e) ∨
      (s.fault = false ∧ Instr.wf wSym (.decByte byte nbits) = true ∧ s.treeValid = true ∧
        bitCountOverflows s.decBits nbits.toNat = false ∧
        ∃ d, decRun s ⟨s.decCursor, []⟩ (firstBits byte nbits.toNat) = some d ∧
          t = (s.writeDecoder d.cursor (s.decBits + nbits.setWidth 32) d.out).respond
            .ok (BitVec.ofNat 32 d.out.length)) := by
  rcases runChecked_next h with ⟨e, hm, rfl⟩ | ⟨hn, hr⟩
  · exact .inl ⟨e, by simp at hm ⊢; tauto, rfl⟩
  · simp at hn
    cases hd : decRun s ⟨s.decCursor, []⟩ (firstBits byte nbits.toNat) with
    | none => rw [hd] at hr; cases hr
    | some d =>
      rw [hd] at hr
      cases hr
      exact .inr ⟨by tauto, by tauto, by tauto, by tauto, d, rfl, rfl⟩

theorem execDecEnd_next {s t : State.For wSym wCnt} (h : execDecEnd s = .next t) :
    (∃ e, e ∈ [Err.faulted, .illegalOperand, .sequence] ∧ t = s.raise e) ∨
      (s.fault = false ∧ s.treeValid = true ∧
        t = (s.writeDecoder s.root 0 []).respond
          (if s.decCursor ≠ s.root then .truncated else .ok) (zext32 s.decBits)) := by
  rcases runChecked_next h with ⟨e, hm, rfl⟩ | ⟨hn, hr⟩
  · exact .inl ⟨e, by simp at hm ⊢; tauto, rfl⟩
  · simp at hn
    cases hr
    exact .inr ⟨by tauto, by tauto, rfl⟩

/-- R8: at this hardware's parameters the meaning for any parameters is `exec`. -/
theorem execFor_eq_exec : execFor = exec := by
  funext i s
  cases i <;> rfl

theorem stepFor_eq_step : stepFor = step := by
  funext s
  rw [stepFor, step, execFor_eq_exec]

/-- Everything one step can do: nothing presented, a reset, a command, or a word that is none. -/
theorem runEvents_cases (run : Instr → State.For wSym wCnt → Outcome wSym wCnt)
    (s : State.For wSym wCnt) (events : List HostEvent) :
    (events = [] ∧ runEvents run s events = .next s) ∨
    (∃ rest, events = .reset :: rest ∧
      runEvents run s events = .next (s.takeEvent rest).clearCore) ∨
    (∃ w rest i, events = .command w :: rest ∧ decode wSym w = .command i ∧
      runEvents run s events = run i (s.takeEvent rest)) ∨
    (∃ w rest verdict, events = .command w :: rest ∧
      (verdict = .illegalOpcode ∨ verdict = .illegalOperand) ∧
      runEvents run s events = .next ((s.takeEvent rest).rejectWord w verdict)) := by
  match events with
  | [] => exact .inl ⟨rfl, rfl⟩
  | .reset :: rest => exact .inr (.inl ⟨rest, rfl, rfl⟩)
  | .command w :: rest =>
    cases hd : decode wSym w with
    | command i => exact .inr (.inr (.inl ⟨w, rest, i, rfl, hd, by simp [runEvents, runWord, hd]⟩))
    | illegalOpcode =>
      exact .inr (.inr (.inr ⟨w, rest, _, rfl, .inl rfl, by simp [runEvents, runWord, hd]⟩))
    | illegalOperand =>
      exact .inr (.inr (.inr ⟨w, rest, _, rfl, .inr rfl, by simp [runEvents, runWord, hd]⟩))

end Sys2Proof.Machine
end

