-- ==== Sys2Proof/Laws/Parameters.lean ====
section
/-!
SUPPORT. The widths and sizes of the model's types are the parameters of spec/00_scope.md rule R8
and the entry widths of spec/20_memory.md rule R50, for every `W_SYM` and `W_CNT`; and the types with
no argument are this hardware's.
-/

namespace Sys2Proof

variable (wSym wCnt : Nat)

theorem nodeIdx_width : NodeIdx wSym = BitVec (Config.wIdx wSym) := rfl

theorem bitCount_width : BitCount = BitVec Config.wBitCnt := rfl

/-- R8: `NULL` is `2^W_IDX - 1`. -/
theorem null_value : (NodeIdx.null : NodeIdx wSym).toNat = 2 ^ Config.wIdx wSym - 1 :=
  BitVec.toNat_allOnes

theorem countMem_size : Machine.CountMem wSym wCnt = Vector (Count wCnt) (Config.kMax wSym) := rfl

theorem arena_size :
    Machine.Arena wSym wCnt = Vector (Machine.NodeRec wSym wCnt) (Config.nNodes wSym) := rfl

theorem codeTable_size : Machine.CodeTable wSym = Vector Machine.CodeRec (Config.kMax wSym) := rfl

/-- R8: for every legal `W_SYM`, the code words can be named by an 8-bit field. -/
theorem codeWords_le (h : Config.legal wSym wCnt = true) : Config.codeWords wSym ≤ 256 := by
  have h' : wSym ≤ 13 := by simp [Config.legal] at h; exact h.2.1
  have hp : 2 ^ wSym ≤ 2 ^ 13 := Nat.pow_le_pow_right (by decide) h'
  simp only [Config.codeWords, Config.lMax]
  omega

/-- R8: this hardware. -/
theorem state_parameters : Machine.State = Machine.State.For Config.wSym Config.wCnt ∧
    Sym = Sym Config.wSym ∧ Count = Count Config.wCnt ∧ NodeIdx = NodeIdx Config.wSym :=
  ⟨rfl, rfl, rfl, rfl⟩

end Sys2Proof
end

