-- ==== Sys2Proof/Laws/PerInstr.lean ====
section
/-!
SUPPORT. The per-command family MatchMask: the word of every command has the fixed bits that
spec/30_encoding.md rule R79 gives its row (match and mask).
-/

namespace Sys2Proof.Laws

/-- The mask of each row of R79: the bits fixed for every parameter value. -/
def tableMask : Instr → Word
  | .nop => 0xFFFFFFFF
  | .clear => 0xFFFFFFFF
  | .regRead _ => 0xFFFFFFF0
  | .accum _ => 0xFFFF0000
  | .countRead _ => 0xFFFF0000
  | .build => 0xFFFFFFFF
  | .nodeRead _ _ => 0xFFFC0000
  | .genCodes => 0xFFFFFFFF
  | .codeLen _ => 0xFFFF0000
  | .codeBits _ _ => 0xFF000000
  | .encSym _ => 0xFFFF0000
  | .encFlush => 0xFFFFFFFF
  | .decByte _ _ => 0xFFFFF000
  | .decEnd => 0xFFFFFFFF

/-- The match of each row of R79: the value of its fixed bits. -/
def tableMatch : Instr → Word
  | .nop => 0x00000000
  | .clear => 0x01000000
  | .regRead _ => 0x02000000
  | .accum _ => 0x10000000
  | .countRead _ => 0x11000000
  | .build => 0x20000000
  | .nodeRead _ _ => 0x21000000
  | .genCodes => 0x30000000
  | .codeLen _ => 0x31000000
  | .codeBits _ _ => 0x32000000
  | .encSym _ => 0x40000000
  | .encFlush => 0x41000000
  | .decByte _ _ => 0x50000000
  | .decEnd => 0x51000000

end Sys2Proof.Laws

namespace Sys2Proof.Laws.MatchMask

/-- The command word of the command has its row's fixed bits. -/
def Statement (i : Instr) : Prop := encode i &&& tableMask i = tableMatch i

theorem and_append_split {a b : Nat} (x u : BitVec a) (y v : BitVec b) :
    (x ++ y) &&& (u ++ v) = (x &&& u) ++ (y &&& v) := by
  ext i hi
  simp only [BitVec.getElem_and, BitVec.getElem_append]
  split <;> rfl

theorem zero_append {m n : Nat} (x : BitVec n) : (0 : BitVec m) ++ x = x.setWidth (m + n) := by
  apply BitVec.eq_of_toNat_eq
  have := x.isLt
  rw [BitVec.toNat_append, BitVec.toNat_setWidth, Nat.mod_eq_of_lt]
  · simp
  · exact Nat.lt_of_lt_of_le this (Nat.pow_le_pow_right (by decide) (by omega))

theorem zero_append_append {m a b : Nat} (x : BitVec a) (y : BitVec b) :
    (0 : BitVec m) ++ x ++ y = (x ++ y).setWidth (m + a + b) := by
  apply BitVec.eq_of_toNat_eq
  have hx := x.isLt
  have hxy := (x ++ y).isLt
  rw [zero_append, BitVec.toNat_append, BitVec.toNat_setWidth, BitVec.toNat_setWidth,
    Nat.mod_eq_of_lt, Nat.mod_eq_of_lt, BitVec.toNat_append]
  · exact Nat.lt_of_lt_of_le hxy (Nat.pow_le_pow_right (by decide) (by omega))
  · exact Nat.lt_of_lt_of_le hx (Nat.pow_le_pow_right (by decide) (by omega))

theorem tableMatch_eq (i : Instr) : tableMatch i = opcodeOf i ++ 0#24 := by
  cases i <;> simp only [tableMatch, opcodeOf] <;> decide

/-- A command whose operand fields are the low `n` bits of the operand area: every bit of theirs is
free, and the bits above them are 0. -/
theorem statement_of_fields {n : Nat} (i : Instr) (x : BitVec n)
    (he : operandArea i = x.setWidth 24)
    (hm : tableMask i = 0xFF#8 ++ ((BitVec.allOnes 24) <<< n)) : Statement i := by
  unfold Statement encode
  rw [he, hm, tableMatch_eq, and_append_split]
  have h1 : opcodeOf i &&& 0xFF#8 = opcodeOf i := BitVec.and_allOnes
  have h2 : x.setWidth 24 &&& ((BitVec.allOnes 24) <<< n) = 0#24 := by
    ext j hj
    simp
    intro h
    by_cases hjn : j < n
    · exact fun hn' => absurd hjn (by omega)
    · simp [BitVec.getLsbD_of_ge _ _ (by omega : n ≤ j)] at h
  rw [h1, h2]

theorem nop : Statement .nop := by unfold Statement; decide
theorem clear : Statement .clear := by unfold Statement; decide
theorem regRead (sel : BitVec 4) : Statement (.regRead sel) :=
  statement_of_fields _ sel (zero_append sel) rfl
theorem accum (sym : BitVec 16) : Statement (.accum sym) :=
  statement_of_fields _ sym (zero_append sym) rfl
theorem countRead (sym : BitVec 16) : Statement (.countRead sym) :=
  statement_of_fields _ sym (zero_append sym) rfl
theorem build : Statement .build := by unfold Statement; decide
theorem nodeRead (idx : BitVec 16) (nsel : BitVec 2) : Statement (.nodeRead idx nsel) :=
  statement_of_fields _ (nsel ++ idx)
    (zero_append_append nsel idx) rfl
theorem genCodes : Statement .genCodes := by unfold Statement; decide
theorem codeLen (sym : BitVec 16) : Statement (.codeLen sym) :=
  statement_of_fields _ sym (zero_append sym) rfl
theorem codeBits (sym : BitVec 16) (word : BitVec 8) : Statement (.codeBits sym word) :=
  statement_of_fields _ (word ++ sym) (BitVec.setWidth_eq (word ++ sym)).symm rfl
theorem encSym (sym : BitVec 16) : Statement (.encSym sym) :=
  statement_of_fields _ sym (zero_append sym) rfl
theorem encFlush : Statement .encFlush := by unfold Statement; decide
theorem decByte (byte : Byte) (nbits : BitVec 4) : Statement (.decByte byte nbits) :=
  statement_of_fields _ (nbits ++ byte)
    (zero_append_append nbits byte) rfl
theorem decEnd : Statement .decEnd := by unfold Statement; decide

end Sys2Proof.Laws.MatchMask
end

