-- ==== Sys2Proof/Machine/Assembler.lean ====
section
/-!
DEFINITION. The assembler syntax (spec/30_encoding.md rules R83, R84): from the text of a program to
its command words, for a core whose symbols have `W_SYM` bits. The core never sees this text. What the
rules leave open is in log 11.
-/

namespace Sys2Proof.Machine

/-- The tokens of a line. -/
inductive Token where
  /-- A mnemonic, a name or a number. -/
  | word (cs : List Char)
  /-- A character literal. -/
  | symbol (c : Char)
  /-- A quoted text. -/
  | text (cs : List Char)
  /-- A comma or a parenthesis. -/
  | mark (c : Char)
  deriving DecidableEq, Repr

/-- The word read so far, if any, in front of the tokens after it. -/
def flushWord (w : List Char) (ts : List Token) : List Token :=
  if w = [] then ts else .word w.reverse :: ts

/-- The tokens of one line: `;` starts a comment (R83). The word read so far is held in reverse;
the flag says that a quoted text is open. Character 34 is the double quote, 39 the single one. -/
def tokenize : List Char → List Char → Bool → Option (List Token)
  | [], w, quoted => if quoted then none else some (flushWord w [])
  | c :: cs, w, true =>
    if c.toNat = 34 then (tokenize cs [] false).map fun ts => .text w.reverse :: ts
    else tokenize cs (c :: w) true
  | c :: cs, w, false =>
    if c.toNat = 34 then (tokenize cs [] true).map (flushWord w)
    else if c.toNat = 39 then
      match cs with
      | x :: q :: rest =>
        if q.toNat = 39 then (tokenize rest [] false).map fun ts => flushWord w (.symbol x :: ts)
        else none
      | _ => none
    else if c = ';' then some (flushWord w [])
    else if c = ' ' ∨ c = '\t' ∨ c = '\r' then (tokenize cs [] false).map (flushWord w)
    else if c = ',' ∨ c = '(' ∨ c = ')' then
      (tokenize cs [] false).map fun ts => flushWord w (.mark c :: ts)
    else tokenize cs (c :: w) false

/-- The value of a decimal or hexadecimal digit. -/
def digitValue (c : Char) : Option Nat :=
  if '0' ≤ c ∧ c ≤ '9' then some (c.toNat - 48)
  else if 'a' ≤ c ∧ c ≤ 'f' then some (c.toNat - 87)
  else if 'A' ≤ c ∧ c ≤ 'F' then some (c.toNat - 55)
  else none

/-- The number that digits of a base spell, after those read so far. -/
def digits (base : Nat) : Nat → List Char → Option Nat
  | n, [] => some n
  | n, c :: cs =>
    match digitValue c with
    | some d => if d < base then digits base (n * base + d) cs else none
    | none => none

/-- "A number is decimal, or hexadecimal with `0x`" (R83). -/
def number : List Char → Option Nat
  | [] => none
  | ['0', 'x'] => none
  | '0' :: 'x' :: cs => digits 16 0 cs
  | cs => digits 10 0 cs

/-- A number, or a character literal, which stands for its code unit (R83). DESIGN CHOICE (log 11):
R83 names only symbol operands; the model takes a literal for `IDX`, `WORD`, `BYTE` and `NBITS`, and
for the bytes and `T` of `decode_payload`, too. -/
def symbolValue : Token → Option Nat
  | .word cs => number cs
  | .symbol c => some c.toNat
  | .text _ => none
  | .mark _ => none

/-- A number, or one of the names that stand for the numbers from 0 up (R83). -/
def selectorValue (names : List String) : Token → Option Nat
  | .word cs =>
    match names.findIdx? fun name => name.toList == cs with
    | some i => some i
    | none => number cs
  | .symbol _ => none
  | .text _ => none
  | .mark _ => none

/-- The operands of a field of `n` bits: a value that fits it. -/
def fieldValue (n : Nat) (v : Option Nat) : Option (BitVec n) :=
  v.bind fun v => if v < 2 ^ n then some (BitVec.ofNat n v) else none

/-- The selector names of `reg_read` (R83), for selectors 0 to 8. -/
def regNames : List String :=
  ["status", "total", "root", "node_count", "enc_bits", "dec_bits", "dec_cursor", "params",
    "enc_acc"]

/-- The selector names of `node_read` (R83), for `NSEL` 0 to 2. -/
def nodeFieldNames : List String := ["kind", "weight", "children"]

/-- The mnemonics with no operand, and their opcodes (R79). -/
def formatNNames : List (String × BitVec 8) :=
  [("nop", 0x00), ("clear", 0x01), ("build", 0x20), ("gen_codes", 0x30), ("enc_flush", 0x41),
    ("dec_end", 0x51)]

/-- The mnemonics with one symbol, and their opcodes (R79). -/
def formatSNames : List (String × BitVec 8) :=
  [("accum", 0x10), ("count_read", 0x11), ("code_len", 0x31), ("enc_sym", 0x40)]

/-- The opcode of a mnemonic in a table. -/
def opcodeNamed (table : List (String × BitVec 8)) (m : List Char) : Option (BitVec 8) :=
  (table.find? fun r => r.1.toList == m).map fun r => r.2

/-- The word of one command (R83), its operands put into their fields (R72 to R77). An operand that
fits its field and is out of the command's range gives an illegal word, as `reg_read 9` does
(log 11). -/
def assembleCommand : List Token → Option Word
  | [.word m] => (opcodeNamed formatNNames m).map fun op => op ++ (0 : BitVec 24)
  | [.word m, a] =>
    if m = "reg_read".toList then
      (fieldValue 4 (selectorValue regNames a)).map fun sel =>
        (0x02 : BitVec 8) ++ (0 : BitVec 20) ++ sel
    else
      (opcodeNamed formatSNames m).bind fun op =>
        (fieldValue 16 (symbolValue a)).map fun sym => op ++ (0 : BitVec 8) ++ sym
  | [.word m, a, .mark ',', b] =>
    if m = "node_read".toList then
      (fieldValue 16 (symbolValue a)).bind fun idx =>
        (fieldValue 2 (selectorValue nodeFieldNames b)).map fun nsel =>
          (0x21 : BitVec 8) ++ (0 : BitVec 6) ++ nsel ++ idx
    else if m = "code_bits".toList then
      (fieldValue 16 (symbolValue a)).bind fun sym =>
        (fieldValue 8 (symbolValue b)).map fun word => (0x32 : BitVec 8) ++ word ++ sym
    else if m = "dec_byte".toList then
      (fieldValue 8 (symbolValue a)).bind fun byte =>
        (fieldValue 4 (symbolValue b)).map fun nbits =>
          (0x50 : BitVec 8) ++ (0 : BitVec 12) ++ nbits ++ byte
    else none
  | _ => none

/-- Values of `n` bits, separated by commas. -/
def valueList (n : Nat) : List Token → Option (List (BitVec n))
  | [] => some []
  | [t] => (fieldValue n (symbolValue t)).map fun v => [v]
  | t :: .mark ',' :: u :: ts =>
    (fieldValue n (symbolValue t)).bind fun v => (valueList n (u :: ts)).map fun vs => v :: vs
  | _ => none

/-- The symbols of a sequence: a quoted text, or symbols separated by commas, or none (R84). DESIGN
CHOICE (log 11): a symbol of `K_MAX` or above, in a list or in a text, gives no words, although it may
fit the 16-bit `SYM` field and `accum` of it as a line of its own gives the illegal word. -/
def symbolSeq (wSym : Nat) : List Token → Option (List (Sym wSym))
  | [.text cs] => cs.mapM fun c => fieldValue wSym (some c.toNat)
  | ts => valueList wSym ts

/-- The tokens up to the closing parenthesis, and those after it. -/
def untilClose : List Token → Option (List Token × List Token)
  | [] => none
  | .mark ')' :: ts => some ([], ts)
  | t :: ts => (untilClose ts).map fun p => (t :: p.1, p.2)

/-- The operands of `decode_payload`: `m = ceil(T / 8)` bytes in parentheses, then `T` (R84). DESIGN
CHOICE (log 11): another number of bytes, or a value that is no byte, gives no words. -/
def assemblePayload (ts : List Token) : Option (List Instr) :=
  match untilClose ts with
  | some (bytes, [.mark ',', total]) =>
    (valueList 8 bytes).bind fun bytes => (symbolValue total).bind fun total =>
      if bytes.length = (total + 7) / 8 then some (decodePayload bytes total) else none
  | _ => none

/-- The commands of a pseudo-instruction (R84). DESIGN CHOICE (log 11): `huffman_setup`, which R84 gives
only with a quoted text, takes a sequence in each form that `count_seq` takes. -/
def assemblePseudo (wSym : Nat) : List Token → Option (List Instr)
  | .word m :: .mark '(' :: ts =>
    if m = "decode_payload".toList then assemblePayload ts else none
  | .word m :: ts =>
    if m = "status".toList ∧ ts = [] then some pseudoStatus
    else if m = "count_seq".toList then (symbolSeq wSym ts).map countSeq
    else if m = "encode_seq".toList then (symbolSeq wSym ts).map encodeSeq
    else if m = "huffman_setup".toList then (symbolSeq wSym ts).map huffmanSetup
    else none
  | _ => none

/-- A line that is a bare command word, as `0xFF000000` in spec/95_test_vectors.md P4. DESIGN CHOICE
(log 11): R83 lists no such form; the model takes a number of at most 32 bits as that word. -/
def assembleBare : List Token → Option Word
  | [.word cs] => fieldValue 32 (number cs)
  | _ => none

/-- The words of one line: none for an empty line or a comment, the word of a command, a bare word,
or the words of a pseudo-instruction's expansion (R83, R84). -/
def assembleLine (wSym : Nat) (line : List Char) : Option (List Word) :=
  (tokenize line [] false).bind fun ts =>
    if ts = [] then some []
    else
      match assembleCommand ts, assembleBare ts with
      | some w, _ => some [w]
      | none, some w => some [w]
      | none, none => (assemblePseudo wSym ts).map fun is => is.map encode

/-- The lines of a text, the line read so far held in reverse. -/
def textLines : List Char → List Char → List (List Char)
  | [], line => [line.reverse]
  | c :: cs, line => if c = '\n' then line.reverse :: textLines cs [] else textLines cs (c :: line)

/-- The words of a program, one command per line (R83); none when a line is no command. `W_SYM` left
out is this hardware's. -/
def assemble (program : String) (wSym : Nat := 8) : Option (List Word) :=
  ((textLines program.toList []).mapM (assembleLine wSym)).map List.flatten

end Sys2Proof.Machine
end

