-- ==== Sys2Proof/Tests/Slice0.lean ====
section
/-!
SUPPORT. Tests of the model against spec/95_test_vectors.md and spec/30_encoding.md, the WellFormed
smoke, and a witness for the hypotheses of every statement. Expected values are the spec's.
-/

namespace Sys2Proof.Tests

open Sys2Proof.Machine

-- One theorem at a time: many of them wait on the kernel, each with a thread of its own.
set_option Elab.async false

/-! ## Small states -/

/-- The answer and the outputs of a command, next to what the vector expects. -/
def gives {wSym wCnt : Nat} (o : Outcome wSym wCnt) (err : Err) (data : Word) (bytes : List Byte)
    (syms : List (Sym wSym)) : Bool :=
  match o with
  | .next t => t.responses == [⟨err, data⟩] && t.bytesOut == bytes && t.symsOut == syms
  | .fault _ => false
  | .refused _ => false

/-- The state an outcome gives, for a look at its registers. -/
def after (o : Outcome) : State :=
  match o with
  | .next t => t
  | .fault _ => State.reset
  | .refused _ => State.reset

/-- The `STATUS` an outcome leaves. -/
def statusOf {wSym wCnt : Nat} (o : Outcome wSym wCnt) : Word :=
  match o with
  | .next t => t.status
  | .fault _ => 0
  | .refused _ => 0

/-- The counts of "aabbbcccc" (W4), no tree yet; the arena and the code table hold one of the
contents that R41 allows. -/
def counted : State :=
  { State.reset with
    node := Vector.replicate _ .empty, code := Vector.replicate _ .invalid
    count := writeCount (writeCount (writeCount State.reset.count 0x61 2) 0x62 3) 0x63 4
    total := 9, distinct := 3 }

/-- The tree of "aabbbcccc" (W4), decoder at the root. -/
def treed : State :=
  { counted with
    node := writeNode (writeNode (writeNode (writeNode (writeNode counted.node 0 (.leaf 0x61 2)) 1
      (.leaf 0x62 3)) 2 (.leaf 0x63 4)) 3 (.internal 5 0 1)) 4 (.internal 9 2 3)
    treeValid := true, root := 4, nodeCount := 5, decCursor := 4 }

/-- Its code table (V48). -/
def coded : State :=
  { treed with
    code := writeCode (writeCode (writeCode counted.code 0x61
      ⟨true, [true, false]⟩) 0x62 ⟨true, [true, true]⟩) 0x63 ⟨true, [false]⟩
    codesValid := true }

/-- The encoder of V13 (`ENC_ACC = "101011"`). -/
def pending : State :=
  { coded with encAcc := [true, false, true, false, true, true], encBits := 6 }

/-- The one-symbol tree of "aaaa" (V36). -/
def single : State :=
  { State.reset with
    count := writeCount State.reset.count 0x61 4, total := 4, distinct := 1,
    node := writeNode (writeNode counted.node 0 (.leaf 0x61 4)) 1 (.internal 4 0 .null)
    treeValid := true, root := 1, nodeCount := 2, decCursor := 1 }

/-- A latched fault (V68: `FAULT_CODE = 5`). -/
def faulted : State := { coded with fault := true, faultCode := 5 }

/-- A tree that breaks R38: the root has only a left child, and two symbols are counted. -/
def broken : State :=
  { State.reset with
    distinct := 2, treeValid := true, root := 2, nodeCount := 3, decCursor := 2
    node := writeNode counted.node 2 (.internal 2 0 .null) }

/-! ## WellFormed: each operand check refuses an ill-formed term (R74 to R77) -/

theorem test_wf_sel : Instr.wf 8 (.regRead 9) = false := by decide
theorem test_wf_idx : Instr.wf 8 (.nodeRead 511 0) = false := by decide
theorem test_wf_nsel : Instr.wf 8 (.nodeRead 0 3) = false := by decide
theorem test_wf_sym : Instr.wf 8 (.accum 256) = false := by decide
theorem test_wf_word : Instr.wf 8 (.codeBits 0x61 8) = false := by decide
theorem test_wf_nbits_zero : Instr.wf 8 (.decByte 0 0) = false := by decide
theorem test_wf_nbits_nine : Instr.wf 8 (.decByte 0 9) = false := by decide
theorem test_wf_bounds : (Instr.wf 8 (.regRead 8) && Instr.wf 8 (.nodeRead 510 2) &&
    Instr.wf 8 (.codeBits 0xFF 7) && Instr.wf 8 (.decByte 0xFF 8) && Instr.wf 8 (.decByte 0 1)) = true := by
  decide

/-! ## Decoding: a word of each command, OPCODE then operand fields (R72 to R79) -/

theorem test_decode_nop : decode 8 0b00000000_000000000000000000000000#32 = .command .nop := by decide
theorem test_decode_clear :
    decode 8 0b00000001_000000000000000000000000#32 = .command .clear := by decide
theorem test_decode_regRead :
    decode 8 0b00000010_00000000000000000000_0110#32 = .command (.regRead 6) := by decide
theorem test_decode_accum :
    decode 8 0b00010000_00000000_0000000001100001#32 = .command (.accum 0x61) := by decide
theorem test_decode_countRead :
    decode 8 0b00010001_00000000_0000000001100011#32 = .command (.countRead 0x63) := by decide
theorem test_decode_build :
    decode 8 0b00100000_000000000000000000000000#32 = .command .build := by decide
theorem test_decode_nodeRead :
    decode 8 0b00100001_000000_10_0000000111111110#32 = .command (.nodeRead 510 2) := by decide
theorem test_decode_genCodes :
    decode 8 0b00110000_000000000000000000000000#32 = .command .genCodes := by decide
theorem test_decode_codeLen :
    decode 8 0b00110001_00000000_0000000001100001#32 = .command (.codeLen 0x61) := by decide
theorem test_decode_codeBits :
    decode 8 0b00110010_00000111_0000000001100001#32 = .command (.codeBits 0x61 7) := by decide
theorem test_decode_encSym :
    decode 8 0b01000000_00000000_0000000001100010#32 = .command (.encSym 0x62) := by decide
theorem test_decode_encFlush :
    decode 8 0b01000001_000000000000000000000000#32 = .command .encFlush := by decide
theorem test_decode_decByte :
    decode 8 0b01010000_000000000000_0110_11000000#32 = .command (.decByte 0xC0 6) := by decide
theorem test_decode_decEnd :
    decode 8 0b01010001_000000000000000000000000#32 = .command .decEnd := by decide
/-- R80: the opcodes on both sides of each family's block are illegal. -/
theorem test_decode_illegal_opcodes :
    [0x03#32, 0x0F, 0x12, 0x1F, 0x22, 0x2F, 0x33, 0x3F, 0x42, 0x4F, 0x52, 0xFF].all
      (fun op => decode 8 (op <<< 24) == .illegalOpcode) = true := by decide
/-- V6 to V9, V24, V25, V28, V38, V39, V51, V67, V93. -/
theorem test_decode_illegal_operands :
    [0x02000009#32, 0x0200000F, 0x00000001, 0x01000001, 0x10000100, 0x10010061, 0x11000100,
      0x210001FF, 0x21030000, 0x21040000, 0x32080061, 0x400001FF, 0x50000000, 0x50000900].all
      (fun w => decode 8 w == .illegalOperand) = true := by decide

/-- R73, R75, R76: the operand ranges at the ends of the legal `W_SYM` (R8). -/
theorem test_decode_other_symbol_widths :
    decode 13 0x10001FFF = .command (.accum 0x1FFF) ∧ decode 13 0x10002000 = .illegalOperand ∧
    decode 13 0x21003FFE = .command (.nodeRead 0x3FFE 0) ∧ decode 13 0x21003FFF = .illegalOperand ∧
    decode 13 0x32FF0000 = .command (.codeBits 0 0xFF) ∧
    decode 1 0x10000001 = .command (.accum 1) ∧ decode 1 0x10000002 = .illegalOperand ∧
    decode 1 0x32010000 = .illegalOperand := by decide

/-! ## The assembler (R83, R84) -/

/-- Lines of Part 3 of the test vectors and V6. -/
theorem test_assemble_lines :
    assemble "accum 'a'          ; 0x10000061 -> (OK, 1)\ndec_byte 0xAF, 8   ; 0x500008AF" =
      some [0x10000061, 0x500008AF] ∧
    assemble "reg_read node_count; 0x02000003\nnode_read 4, children\nreg_read 9" =
      some [0x02000003, 0x21020004, 0x02000009] ∧
    assemble "0xFF000000         ; P4" = some [0xFF000000] := by decide +kernel
/-- V97, with the bytes written as R83 writes numbers, and R84's `huffman_setup`. -/
theorem test_assemble_pseudo :
    assemble "decode_payload (0x6E, 0x8A, 0xDC), 23" =
      some [0x5000086E, 0x5000088A, 0x500007DC, 0x51000000] ∧
    assemble "huffman_setup \"ab\"" =
      some [0x01000000, 0x10000061, 0x10000062, 0x20000000, 0x30000000] := by decide +kernel

/-! ## Control -/

/-- V13. -/
theorem test_nop_status : gives (exec .nop pending) .ok 0x00030603 [] [] = true := by decide +kernel
/-- V12, V107: `CLEAR` leaves the fault. -/
theorem test_clear_unlatches :
    (after (exec .clear faulted)).status = 0 ∧ gives (exec .clear faulted) .ok 0 [] [] = true := by
  decide +kernel
/-- V2. -/
theorem test_regRead_params :
    gives (exec (.regRead 7) State.reset) .ok 0x00FF2008 [] [] = true := by decide +kernel
/-- V14. -/
theorem test_regRead_encAcc :
    gives (exec (.regRead 8) pending) .ok 0x000000AC [] [] = true := by decide +kernel

/-! ## Frequency accumulator -/

/-- V20. -/
theorem test_accum_first : gives (exec (.accum 0x61) State.reset) .ok 1 [] [] = true ∧
    (after (exec (.accum 0x61) State.reset)).total = 1 ∧
    (after (exec (.accum 0x61) State.reset)).distinct = 1 := by decide +kernel
/-- V29 at this hardware's width: `TOTAL = 2^32 - 1`. -/
theorem test_accum_full :
    gives (exec (.accum 0x63) { State.reset with total := 0xFFFFFFFF }) .countOverflow 0 [] [] =
      true := by decide +kernel
/-- V26. -/
theorem test_countRead : gives (exec (.countRead 0x63) counted) .ok 4 [] [] = true := by
  decide +kernel
/-- V103. -/
theorem test_countRead_faulted :
    gives (exec (.countRead 0x61) faulted) .faulted 0 [] [] = true := by decide +kernel

/-! ## Tree builder -/

/-- V37, R146: the tree of "aabbbcccc". -/
theorem test_build_merges : gives (exec .build counted) .ok 5 [] [] = true ∧
    (after (exec .build counted)).root = 4 ∧
    (after (exec .build counted)).nodeAt 3 = ⟨.internal, 0, 5, 0, 1⟩ ∧
    (after (exec .build counted)).nodeAt 4 = ⟨.internal, 0, 9, 2, 3⟩ := by decide +kernel
/-- V40: the c/1 leaf is extracted before the b/2 leaf, so it is the left child. -/
theorem test_build_tie_order :
    (after (exec .build
      (counted.writeCounts 0x61 3 6 3 |>.writeCounts 0x62 2 6 3 |>.writeCounts 0x63 1 6 3))).nodeAt
        3 = ⟨.internal, 0, 3, 2, 1⟩ := by decide +kernel
/-- V33, R149 corner case d, V36, V35: the four kinds, `SENTINEL`, `INTERNAL`, `LEAF` and `EMPTY`. -/
theorem test_nodeRead_kinds :
    gives (exec (.nodeRead 0 0) (counted.writeTree (writeNode counted.node 0 .sentinel) 0 1 []))
      .ok 0xC0000000 [] [] = true ∧
    gives (exec (.nodeRead 3 0) treed) .ok 0x80000000 [] [] = true ∧
    gives (exec (.nodeRead 0 0) treed) .ok 0x40000061 [] [] = true ∧
    gives (exec (.nodeRead 5 0) treed) .ok 0x00000000 [] [] = true := by decide +kernel
/-- V37: `node_read 4, children`. -/
theorem test_nodeRead_children :
    gives (exec (.nodeRead 4 2) treed) .ok 0x00020003 [] [] = true := by decide +kernel
/-- V37, R150: a slot beyond the tree. -/
theorem test_nodeRead_beyond :
    gives (exec (.nodeRead 5 2) treed) .ok 0x01FF01FF [] [] = true := by decide +kernel

/-! ## Code table -/

/-- V48. -/
theorem test_genCodes : gives (exec .genCodes treed) .ok 3 [] [] = true ∧
    (after (exec .genCodes treed)).codeAt 0x61 = ⟨true, [true, false]⟩ ∧
    (after (exec .genCodes treed)).codeAt 0x63 = ⟨true, [false]⟩ := by decide +kernel
/-- V47: the one-symbol tree gives the code "0". -/
theorem test_genCodes_single : gives (exec .genCodes single) .ok 1 [] [] = true ∧
    (after (exec .genCodes single)).codeAt 0x61 = ⟨true, [false]⟩ := by decide +kernel
/-- V48. -/
theorem test_codeLen : gives (exec (.codeLen 0x61) coded) .ok 0x80000002 [] [] = true := by
  decide +kernel
/-- V57. -/
theorem test_codeLen_sequence : gives (exec (.codeLen 0x61) treed) .sequence 0 [] [] = true := by
  decide +kernel
/-- V48. -/
theorem test_codeBits : gives (exec (.codeBits 0x62 0) coded) .ok 0xC0000000 [] [] = true := by
  decide +kernel
/-- V50. -/
theorem test_codeBits_past_end : gives (exec (.codeBits 0x61 7) coded) .ok 0 [] [] = true := by
  decide +kernel

/-! ## Encoder -/

/-- V61. -/
theorem test_encSym_emits : gives (exec (.encSym 0x62) pending) .ok 1 [0xAF] [] = true ∧
    (after (exec (.encSym 0x62) pending)).encBits = 8 := by decide +kernel
/-- V72: the table check comes before the bit-count check. -/
theorem test_encSym_absent :
    gives (exec (.encSym 0x7A) { pending with encBits := 0xFFFFFFFE }) .symbolNotInTable 0 [] [] =
      true := by decide +kernel
/-- V62: one message bit 0 and seven padding zeros; here a 1 to see the padding. -/
theorem test_encFlush_pads :
    gives (exec .encFlush { coded with encAcc := [true], encBits := 9 }) .ok 9 [0x80] [] = true := by
  decide +kernel
/-- V63. -/
theorem test_encFlush_empty : gives (exec .encFlush coded) .ok 0 [] [] = true := by decide +kernel

/-! ## Decoder -/

/-- V81. -/
theorem test_decByte :
    gives (exec (.decByte 0xC0 6) treed) .ok 5 [] [0x62, 0x63, 0x63, 0x63, 0x63] = true := by
  decide +kernel
/-- V87: the absent right edge. -/
theorem test_decByte_absent_edge : gives (exec (.decByte 0x80 1) single) .ok 0 [] [] = true ∧
    (after (exec (.decByte 0x80 1) single)).decCursor = .null := by decide +kernel
/-- V86. -/
theorem test_decEnd_truncated :
    gives (exec .decEnd { treed with decCursor := 3, decBits := 1 }) .truncated 1 [] [] = true ∧
    (after (exec .decEnd { treed with decCursor := 3, decBits := 1 })).fault = false := by
  decide +kernel
/-- V82. -/
theorem test_decEnd_ok : gives (exec .decEnd { treed with decBits := 14 }) .ok 14 [] [] = true := by
  decide +kernel

/-! ## The command cycle -/

/-- V102: the fault gate comes before the opcode check. -/
theorem test_gate_before_opcode :
    gives (runWord exec 0xFF000000 faulted) .faulted 0 [] [] = true := by decide +kernel
/-- V104: `FAULT_CODE` stays 5. -/
theorem test_first_fault_stays :
    gives (runWord exec 0x02000009 faulted) .illegalOperand 0 [] [] = true ∧
    (after (runWord exec 0x02000009 faulted)).faultCode = 5 := by decide +kernel
/-- V67: the operand check comes before the phase check. -/
theorem test_operand_before_phase :
    gives (runWord exec 0x400001FF State.reset) .illegalOperand 0 [] [] = true := by decide +kernel
/-- V100. -/
theorem test_illegal_opcode :
    gives (runWord exec 0x03000000 State.reset) .illegalOpcode 0 [] [] = true ∧
    (after (runWord exec 0x03000000 State.reset)).status = 0x00000014 := by decide +kernel
/-- R270: a reset event keeps the outputs and answers nothing. -/
theorem test_reset_event :
    (after (step { faulted with port := [.reset], bytesOut := [0xAF] })).bytesOut = [0xAF] ∧
    (after (step { faulted with port := [.reset] })).responses = [] ∧
    (after (step { faulted with port := [.reset] })).status = 0 := by decide +kernel
/-- R103: the presented word is the next thing that runs. -/
theorem test_presented_word :
    gives (step (State.reset.withFetchWord 32 0x10000061)) .ok 1 [] [] = true := by decide +kernel

/-! ## Other parameters (R8): a core with `W_CNT = 2` -/

/-- The state of V29 and V30 after their three `ACCUM`s. -/
def narrow : State.For 8 2 :=
  (State.For.reset 8 2).writeCounts 0x61 2 2 1 |>.writeCounts 0x62 1 3 2

/-- V16. -/
theorem test_narrow_params :
    gives (execFor (.regRead 7) (State.For.reset 8 2)) .ok 0x00FF0208 [] [] = true := by
  decide +kernel
/-- V29, and V30's phase check before the overflow check. -/
theorem test_narrow_overflow :
    gives (stepFor (narrow.present 0x10000063)) .countOverflow 0 [] [] = true ∧
    statusOf (stepFor (narrow.present 0x10000063)) = 0x00020044 ∧
    gives (stepFor ({ narrow with treeValid := true }.present 0x10000061)) .sequence 0 [] [] =
      true := by decide +kernel

/-! ## The invariants hold of a state with a tree and codes -/

theorem coded_count : ∀ sym : Sym, coded.countAt sym ≠ 0 → sym = 0x61 ∨ sym = 0x62 ∨ sym = 0x63 := by
  decide +kernel

theorem coded_inTree : ∀ i : NodeIdx, coded.InTree i → i = 0 ∨ i = 1 ∨ i = 2 ∨ i = 3 ∨ i = 4 := by
  change ∀ i : BitVec (8 + 1), i < 5 → _
  decide +kernel

theorem coded_node0 : coded.nodeAt 0 = .leaf 0x61 2 := by decide +kernel
theorem coded_node1 : coded.nodeAt 1 = .leaf 0x62 3 := by decide +kernel
theorem coded_node2 : coded.nodeAt 2 = .leaf 0x63 4 := by decide +kernel
theorem coded_node3 : coded.nodeAt 3 = .internal 5 0 1 := by decide +kernel
theorem coded_node4 : coded.nodeAt 4 = .internal 9 2 3 := by decide +kernel

theorem coded_counts : coded.CountsOk := by
  unfold State.For.CountsOk countSum
  decide +kernel

theorem coded_phase : coded.PhaseOk := by
  refine ⟨fun _ => rfl, fun h => ?_, rfl⟩
  exact absurd h (by decide)

theorem coded_size : coded.TreeSize := by
  refine .inr (.inr ⟨by decide, by decide, by decide, ?_⟩)
  intro i hi
  rcases coded_inTree i hi with rfl | rfl | rfl | rfl | rfl
  · exact .inl (by rw [coded_node0]; rfl)
  · exact .inl (by rw [coded_node1]; rfl)
  · exact .inl (by rw [coded_node2]; rfl)
  · exact .inr (by rw [coded_node3]; decide)
  · exact .inr (by rw [coded_node4]; decide)

theorem coded_inner (i : NodeIdx) (h : coded.InnerAt i) : i = 3 ∨ i = 4 := by
  rcases coded_inTree i h.1 with rfl | rfl | rfl | hi
  · exact absurd h.2 (by rw [coded_node0]; decide)
  · exact absurd h.2 (by rw [coded_node1]; decide)
  · exact absurd h.2 (by rw [coded_node2]; decide)
  · exact hi

theorem coded_leaf (i : NodeIdx) (h : coded.InTree i) (hk : (coded.nodeAt i).kind = .leaf) :
    i = 0 ∨ i = 1 ∨ i = 2 := by
  rcases coded_inTree i h with rfl | rfl | rfl | rfl | rfl
  · exact .inl rfl
  · exact .inr (.inl rfl)
  · exact .inr (.inr rfl)
  · exact absurd hk (by rw [coded_node3]; decide)
  · exact absurd hk (by rw [coded_node4]; decide)

theorem coded_weights : coded.WeightsAdd := by
  intro i hi _
  rcases coded_inner i hi with rfl | rfl
  · simp only [coded_node3, NodeRec.internal, coded_node0, coded_node1, NodeRec.leaf]; decide
  · simp only [coded_node4, NodeRec.internal, coded_node2, coded_node3, NodeRec.leaf]; decide

theorem coded_leaves : coded.LeavesMatch := by
  refine ⟨?_, ?_, ?_, ?_⟩
  · have h : coded.root = 4 := rfl
    rw [h, coded_node4]; rfl
  · intro i hi hk
    rcases coded_leaf i hi hk with rfl | rfl | rfl
    · rw [coded_node0]; decide +kernel
    · rw [coded_node1]; decide +kernel
    · rw [coded_node2]; decide +kernel
  · intro sym h
    rcases coded_count sym h with rfl | rfl | rfl
    · exact ⟨0, by decide, by rw [coded_node0]; decide⟩
    · exact ⟨1, by decide, by rw [coded_node1]; decide⟩
    · exact ⟨2, by decide, by rw [coded_node2]; decide⟩
  · intro i j hi hj hki hkj h
    rcases coded_leaf i hi hki with rfl | rfl | rfl <;>
      rcases coded_leaf j hj hkj with rfl | rfl | rfl <;>
      first
      | rfl
      | (simp only [coded_node0, coded_node1, coded_node2, NodeRec.leaf] at h
         exact absurd h (by decide))

theorem coded_owned : coded.ChildrenOwned := by
  refine ⟨?_, ?_, ?_⟩
  · intro i hi
    rcases coded_inner i hi with rfl | rfl
    · rw [coded_node3]; decide
    · rw [coded_node4]; decide
  · intro c hc hr
    have h3 : coded.InnerAt 3 := ⟨by decide, by rw [coded_node3]; rfl⟩
    have h4 : coded.InnerAt 4 := ⟨by decide, by rw [coded_node4]; rfl⟩
    rcases coded_inTree c hc with rfl | rfl | rfl | rfl | rfl
    · exact ⟨3, h3, by rw [coded_node3]; decide⟩
    · exact ⟨3, h3, by rw [coded_node3]; decide⟩
    · exact ⟨4, h4, by rw [coded_node4]; decide⟩
    · exact ⟨4, h4, by rw [coded_node4]; decide⟩
    · exact absurd rfl hr
  · intro i j c hi hj _ h1 h2
    rcases coded_inner i hi with rfl | rfl <;> rcases coded_inner j hj with rfl | rfl
    · rfl
    · simp only [coded_node3, coded_node4, NodeRec.internal] at h1 h2
      rcases h1 with rfl | rfl <;> exact absurd h2 (by decide)
    · simp only [coded_node3, coded_node4, NodeRec.internal] at h1 h2
      rcases h1 with rfl | rfl <;> exact absurd h2 (by decide)
    · rfl

theorem coded_tree : coded.TreeOk := ⟨coded_size, coded_weights, coded_leaves, coded_owned⟩

theorem coded_cursor : coded.CursorOk := by
  refine .inr ⟨by decide, .inl ?_⟩
  have h : coded.decCursor = 4 := rfl
  rw [h, coded_node4]; rfl

theorem coded_codes : coded.CodesOk := by
  have hv : ∀ sym : Sym, ((coded.codeAt sym).valid = true ↔ coded.countAt sym ≠ 0) ∧
      ((coded.codeAt sym).valid = false → coded.codeAt sym = .invalid) := by decide +kernel
  intro sym
  refine ⟨(hv sym).1, (hv sym).2, fun h => ?_⟩
  rcases coded_count sym ((hv sym).1.1 h) with rfl | rfl | rfl
  · exact ⟨0, by decide +kernel, by decide, by rw [coded_node0]; decide⟩
  · exact ⟨1, by decide +kernel, by decide, by rw [coded_node1]; decide⟩
  · exact ⟨2, by decide +kernel, by decide, by rw [coded_node2]; decide⟩

theorem coded_inv : coded.Inv :=
  ⟨coded_counts, coded_phase, ⟨by decide, by decide⟩, ⟨fun _ => rfl, fun h => absurd h (by decide)⟩,
    fun _ => ⟨coded_tree, coded_cursor⟩, fun _ => coded_codes⟩

/-- The same invariants of a state with no tree. -/
theorem counted_counts : counted.CountsOk := by
  unfold State.For.CountsOk countSum
  decide +kernel

theorem counted_inv : counted.Inv :=
  ⟨counted_counts, ⟨fun h => absurd h (by decide), fun _ => ⟨rfl, rfl, rfl, rfl⟩, rfl⟩,
    ⟨by decide, by decide⟩, ⟨fun _ => rfl, fun h => absurd h (by decide)⟩,
    fun h => absurd h (by decide), fun h => absurd h (by decide)⟩

/-! ## Witnesses: a state and operands that meet the hypotheses of each statement -/

/-- `coded` with one command word presented. -/
def presenting (w : Word) : State := coded.present w

theorem isNext_iff {o : Outcome} (h : isNext o = true) : ∃ t, o = .next t := by
  cases o with
  | next t => exact ⟨t, rfl⟩
  | fault f => exact absurd h (Bool.eq_false_iff.1 rfl)
  | refused r => exact absurd h (Bool.eq_false_iff.1 rfl)

theorem follow_port_draws (s : State) (p : List HostEvent) (n : Nat) (i : NodeIdx) (bs : Bits) :
    State.For.follow { s with port := p, draws := n } i bs = s.follow i bs := by
  induction bs generalizing i with
  | nil => rfl
  | cons b bs ih =>
    simp only [State.For.follow, ih]
    rfl
theorem port_draws_inv (s : State) (p : List HostEvent) (n : Nat) (h : s.Inv) :
    State.For.Inv { s with port := p, draws := n } := by
  refine ⟨h.1, h.2.1, h.2.2.1, h.2.2.2.1, h.2.2.2.2.1, fun hc sym => ?_⟩
  have := h.2.2.2.2.2 hc sym
  refine ⟨this.1, this.2.1, fun hv => ?_⟩
  obtain ⟨i, hi, h'⟩ := this.2.2 hv
  exact ⟨i, (follow_port_draws s p n _ _).trans hi, h'⟩
theorem present_inv (s : State) (w : Word) (h : s.Inv) : (s.present w).Inv :=
  port_draws_inv s _ _ h
theorem draws_inv (s : State) (n : Nat) (h : s.Inv) : State.For.Inv { s with draws := n } :=
  port_draws_inv s _ _ h
theorem draws_sameVisible (s : State) (n : Nat) : s.SameVisible { s with draws := n } :=
  ⟨rfl, fun _ _ _ => rfl, fun _ => rfl⟩
theorem treeless_sameVisible (s : State) (node : Arena) (code : CodeTable)
    (ht : s.treeValid = false) (hc : s.codesValid = false) :
    s.SameVisible { s with node := node, code := code } :=
  ⟨rfl, fun h => absurd h (ht ▸ Bool.false_ne_true), fun h => absurd h (hc ▸ Bool.false_ne_true)⟩
theorem treeless_inv (s : State) (node : Arena) (code : CodeTable) (ht : s.treeValid = false)
    (hc : s.codesValid = false) (h : s.Inv) : State.For.Inv { s with node := node, code := code } :=
  ⟨h.1, h.2.1, h.2.2.1, h.2.2.2.1, fun h => absurd h (ht ▸ Bool.false_ne_true),
    fun h => absurd h (hc ▸ Bool.false_ne_true)⟩

theorem witness_DecodeOfEncode : Instr.wf 8 (.nodeRead 510 2) = true ∧
    Instr.wf 13 (.nodeRead 16382 2) = true := by decide
theorem witness_EncodeOfDecode : decode 8 0x210201FE = .command (.nodeRead 510 2) := by decide

/-- Each clause, with its opcode, on a legal word and on one just past the range. -/
theorem witness_FormatsLegalExactly :
    (((0x51 : BitVec 8), Instr.decEnd) ∈ [((0x00 : BitVec 8), Instr.nop), (0x01, .clear),
      (0x20, .build), (0x30, .genCodes), (0x41, .encFlush), (0x51, .decEnd)]) ∧
    (0x51000000 : Word).extractLsb' 24 8 = 0x51 ∧ (0x51000001 : Word).extractLsb' 24 8 = 0x51 ∧
    (0x100000FF : Word).extractLsb' 24 8 = 0x10 ∧ (0x10000100 : Word).extractLsb' 24 8 = 0x10 ∧
    (0x02000008 : Word).extractLsb' 24 8 = 0x02 ∧ (0x02000009 : Word).extractLsb' 24 8 = 0x02 ∧
    (0x320700FF : Word).extractLsb' 24 8 = 0x32 ∧ (0x32080000 : Word).extractLsb' 24 8 = 0x32 ∧
    (0x210201FE : Word).extractLsb' 24 8 = 0x21 ∧ (0x210301FF : Word).extractLsb' 24 8 = 0x21 ∧
    (0x500008FF : Word).extractLsb' 24 8 = 0x50 ∧ (0x50000900 : Word).extractLsb' 24 8 = 0x50 := by
  decide

theorem witness_StepRunsDecodedCommand :
    (presenting 0x40000062).port = .command 0x40000062 :: [] ∧
    decode 8 0x40000062 = .command (.encSym 0x62) := ⟨rfl, by decide⟩
theorem witness_StepHoldsStateWhenIdle : coded.port = [] := rfl
theorem witness_ResetAndClearValues :
    ({ faulted with port := [.reset, .reset] } : State).port = .reset :: [.reset] := rfl
theorem witness_ClearSameAsReset :
    ({ pending with port := [.reset] } : State).port = .reset :: [] := rfl

/-- Clause 1, then both sides of clause 2. -/
theorem witness_RaiseLatchesFirstFatal :
    (Err.structureViolation.fatal = true ∧ coded.fault = false) ∧
    Err.truncated.fatal = false ∧ faulted.fault = true := by decide

/-- A word passes all the checks, and each error is the first that fails somewhere. -/
theorem witness_ChecksInOrder :
    specChecks { treed with decBits := 0xFFFFFFF7 } 0x50000880 = none ∧
    specChecks faulted 0x03000000 = some .faulted ∧
    specChecks coded 0x03000000 = some .illegalOpcode ∧
    specChecks faulted 0x02000009 = some .illegalOperand ∧
    specChecks treed 0x40000061 = some .sequence ∧
    specChecks { counted with total := 0xFFFFFFFF } 0x10000061 = some .countOverflow ∧
    specChecks coded 0x4000007A = some .symbolNotInTable ∧
    specChecks { coded with encBits := 0xFFFFFFFE } 0x40000061 = some .bitcountOverflow ∧
    specChecks { coded with decBits := 0xFFFFFFF8 } 0x50000800 = some .bitcountOverflow := by
  decide +kernel

/-- Opcode 3 is gated; opcode 2 runs with `SEL = 8` and is turned away with `SEL = 9`. -/
theorem witness_FaultGate : faulted.fault = true ∧
    (¬ ((0x03000000 : Word).extractLsb' 24 8).toNat ≤ 2) ∧
    ((0x02000008 : Word).extractLsb' 24 8).toNat ≤ 2 ∧
    ((0x02000009 : Word).extractLsb' 24 8).toNat ≤ 2 := by decide

theorem witness_ErrorsArePrecise :
    ∃ t, exec .decEnd { coded with decCursor := 3, decBits := 1 } = .next t :=
  isNext_iff (by decide +kernel)
theorem witness_FaultStaysLatched : (faulted.present 0x03000000).port =
      .command 0x03000000 :: [] ∧ (faulted.present 0x03000000).fault = true ∧
    decode 8 0x03000000 ≠ .command .clear ∧ ∃ t, step (faulted.present 0x03000000) = .next t :=
  ⟨rfl, rfl, by decide, isNext_iff (by decide +kernel)⟩

/-- Both clauses; the second at `NBITS = 1` and `NBITS = 8`, with the last room in `DEC_BITS`. -/
theorem witness_BrokenTreeStopsModel :
    broken.fault = false ∧ broken.treeValid = true ∧ broken.root ≠ .null ∧
    broken.structureBroken broken.root = true ∧ broken.decCursor ≠ .null ∧
    broken.structureBroken broken.decCursor = true ∧ 1 ≤ (1 : BitVec 4).toNat ∧
    (8 : BitVec 4).toNat ≤ 8 ∧
    (0xFFFFFFF7 : BitCount).toNat + (8 : BitVec 4).toNat ≤ 2 ^ 32 - 1 := by decide +kernel

/-- The last register and the first selector that is none. -/
theorem witness_RegReadValues : (8 : BitVec 4).toNat ≤ 8 ∧ 8 < (9 : BitVec 4).toNat := by decide

/-- The last `ACCUM` that has room, of a symbol that was absent and of one that was not. -/
theorem witness_AccumCounts : counted.fault = false ∧ counted.treeValid = false ∧
    (0xFFFFFFFE : Count).toNat < 2 ^ 32 - 1 ∧ counted.countAt 0x7A = 0 ∧
    counted.countAt 0x61 ≠ 0 := by decide +kernel
theorem witness_CountReadAnswers : counted.fault = false := rfl

theorem reset_count (sym : Sym) : State.reset.countAt sym = 0 := readCount_replicate (wCnt := 32) sym 0

theorem reset_atReset : State.reset.AtReset :=
  ⟨reset_count, rfl, rfl, rfl, rfl, rfl, rfl, rfl, rfl, rfl, rfl, rfl, rfl, rfl⟩

theorem atReset_other (s : State) (out : List Byte) (node : Arena) (n : Nat) (h : s.AtReset) :
    State.For.AtReset { s with bytesOut := out, node := node, draws := n } := h

/-- `State.reset`, and a state with the reset values and outputs of an earlier session. -/
theorem witness_ReadsAfterReset : State.reset.AtReset ∧
    ({ State.reset with bytesOut := [0xAF], node := counted.node, draws := 9 } : State).AtReset :=
  ⟨reset_atReset, atReset_other _ _ _ _ reset_atReset⟩
theorem witness_AccumsCountOccurrences :
    State.reset.AtReset ∧ ([0x61, 0x62, 0x61] : List Sym).length ≤ 2 ^ 32 - 1 :=
  ⟨reset_atReset, by decide⟩
theorem witness_OnlyAccumWritesCounts : (∀ sym, Instr.build ≠ .accum sym) ∧
    Instr.build ≠ .clear ∧ ∃ t, exec .build counted = .next t :=
  ⟨(fun _ h => nomatch h), by decide, isNext_iff (by decide +kernel)⟩

theorem witness_BuildCompletes :
    counted.fault = false ∧ counted.treeValid = false ∧ counted.pq = [] := ⟨rfl, rfl, rfl⟩
theorem witness_BuildEmptyTree : State.reset.fault = false ∧ State.reset.treeValid = false ∧
    ∀ sym, State.reset.countAt sym = 0 := ⟨rfl, rfl, reset_count⟩

/-- Only `sym` counted, once. -/
def oneSymbol (sym : Sym) : State := State.reset.writeCounts sym 1 1 1

theorem witness_BuildOneSymbolTree : (oneSymbol 0xFF).fault = false ∧
    (oneSymbol 0xFF).treeValid = false ∧ (oneSymbol 0xFF).countAt 0xFF ≠ 0 ∧
    ∀ x, x ≠ 0xFF → (oneSymbol 0xFF).countAt x = 0 := by decide +kernel
/-- Three symbols, and the least number, two. -/
theorem witness_BuildMergesGreedily : counted.fault = false ∧ counted.treeValid = false ∧
    2 ≤ (presentSyms counted.count).length ∧
    2 ≤ (presentSyms ((oneSymbol 0xFF).writeCounts 0 1 2 2).count).length := by decide +kernel
theorem witness_BuildMakesWellFormedTree :
    counted.fault = false ∧ counted.treeValid = false ∧ counted.CountsOk :=
  ⟨rfl, rfl, counted_counts⟩
theorem witness_EqualCountsEqualTrees : counted.fault = false ∧
    ({ counted with node := single.node, bytesOut := [0] } : State).fault = false ∧
    counted.treeValid = false ∧
    ({ counted with node := single.node, bytesOut := [0] } : State).treeValid = false ∧
    counted.count = ({ counted with node := single.node, bytesOut := [0] } : State).count :=
  ⟨rfl, rfl, rfl, rfl, rfl⟩
/-- The last index, the first one beyond the tree, the last in it; each selector. -/
theorem witness_NodeReadAnswers : treed.fault = false ∧ treed.treeValid = true ∧
    (510 : NodeIdx).toNat ≤ 510 ∧ ¬ (5 : NodeIdx) < treed.nodeCount ∧
    (4 : NodeIdx) < treed.nodeCount ∧ (2 : BitVec 2).toNat ≤ 2 := by decide
theorem witness_OnlyBuildWritesTree :
    (Instr.genCodes ≠ .build ∧ Instr.genCodes ≠ .clear ∧ ∃ t, exec .genCodes treed = .next t) ∧
    Instr.build ≠ .clear ∧ treed.treeValid = true ∧ ∃ t, exec .build treed = .next t :=
  ⟨⟨by decide, by decide, isNext_iff (by decide +kernel)⟩, by decide, rfl,
    isNext_iff (by decide +kernel)⟩

theorem witness_GenCodesCompletes :
    coded.fault = false ∧ coded.treeValid = true ∧ coded.TreeOk := ⟨rfl, rfl, coded_tree⟩
theorem witness_GenCodesIdempotent : ∃ t, exec .genCodes treed = .next t :=
  isNext_iff (by decide +kernel)
theorem witness_CodesArePrefixFree : coded.CodesOk ∧ (coded.codeAt 0x61).valid = true ∧
    (coded.codeAt 0x62).valid = true ∧ (0x61 : Sym) ≠ 0x62 :=
  ⟨coded_codes, by decide +kernel, by decide +kernel, by decide⟩
theorem witness_CodeLengthsBounded : coded.CountsOk ∧ coded.TreeOk ∧ coded.CodesOk ∧
    (coded.codeAt 0x61).valid = true :=
  ⟨coded_counts, coded_tree, coded_codes, by decide +kernel⟩
theorem witness_CodeLenAnswers : coded.fault = false ∧ coded.codesValid = true := ⟨rfl, rfl⟩
theorem witness_CodeBitsAnswers :
    coded.fault = false ∧ coded.codesValid = true ∧ (7 : BitVec 8).toNat < 8 :=
  ⟨rfl, rfl, by decide⟩
theorem witness_OnlyGenCodesWritesCodes : Instr.encFlush ≠ .genCodes ∧
    Instr.encFlush ≠ .clear ∧ ∃ t, exec .encFlush coded = .next t :=
  ⟨by decide, by decide, isNext_iff (by decide +kernel)⟩

/-- The symbol fills `ENC_BITS` to its last value. -/
theorem witness_EncSymAppendsCode : pending.fault = false ∧ pending.codesValid = true ∧
    (pending.codeAt 0x62).valid = true ∧ pending.encAcc.length < 8 ∧
    (0xFFFFFFFD : BitCount).toNat + (pending.codeAt 0x62).bits.length ≤ 2 ^ 32 - 1 := by
  decide +kernel
/-- With nothing pending and with six bits pending. -/
theorem witness_EncFlushEndsMessage : coded.fault = false ∧ coded.codesValid = true ∧
    coded.encAcc = [] ∧ pending.fault = false ∧ pending.codesValid = true ∧
    pending.encAcc ≠ [] := by decide
theorem witness_MessagePacksCodes : coded.fault = false ∧ coded.codesValid = true ∧
    coded.encAcc = [] ∧ coded.encBits = 0 ∧
    (∀ x ∈ ([0x61, 0x63, 0x62] : List Sym), (coded.codeAt x).valid = true) ∧
    (([0x61, 0x63, 0x62] : List Sym).flatMap fun x => (coded.codeAt x).bits).length ≤
      2 ^ 32 - 1 := by decide +kernel
theorem witness_OnlyEncoderCommandsWriteEncoder :
    ((∀ sym, Instr.decEnd ≠ .encSym sym) ∧ Instr.decEnd ≠ .encFlush ∧ Instr.decEnd ≠ .clear ∧
      ∃ t, exec .decEnd pending = .next t) ∧
    (∀ sym, Instr.clear ≠ .encSym sym) ∧ Instr.clear ≠ .encFlush ∧
      ∃ t, exec .clear pending = .next t :=
  ⟨⟨(fun _ h => nomatch h), by decide, by decide, isNext_iff (by decide +kernel)⟩,
    (fun _ h => nomatch h), by decide, isNext_iff (by decide +kernel)⟩

/-- `NBITS` 1 and 8, the latter with the last room in `DEC_BITS`. -/
theorem witness_DecByteCompletes : coded.fault = false ∧ coded.treeValid = true ∧
    1 ≤ (1 : BitVec 4).toNat ∧ (8 : BitVec 4).toNat ≤ 8 ∧
    (0xFFFFFFF7 : BitCount).toNat + (8 : BitVec 4).toNat ≤ 2 ^ 32 - 1 ∧
    coded.TreeOk ∧ coded.CursorOk :=
  ⟨rfl, rfl, by decide, by decide, by decide, coded_tree, coded_cursor⟩
/-- A bit to a leaf and a bit to a node at `coded`'s root, and a skipped bit at `NULL`. -/
theorem witness_DecByteOneBit : coded.fault = false ∧ coded.treeValid = true ∧
    coded.decBits.toNat < 2 ^ 32 - 1 ∧ coded.structureBroken coded.decCursor = false ∧
    (coded.nodeAt (coded.nodeAt coded.decCursor).left).kind = .leaf ∧
    (coded.nodeAt (coded.nodeAt coded.decCursor).right).kind = .internal ∧
    single.fault = false ∧ single.treeValid = true ∧
    single.structureBroken single.decCursor = false ∧
    single.structureBroken .null = false := by decide +kernel
theorem witness_DecByteSplits : coded.fault = false ∧ coded.treeValid = true ∧
    1 ≤ (1 : BitVec 4).toNat ∧ 1 ≤ (7 : BitVec 4).toNat ∧
    (1 : BitVec 4).toNat + (7 : BitVec 4).toNat ≤ 8 ∧
    coded.decBits.toNat + (1 : BitVec 4).toNat + (7 : BitVec 4).toNat ≤ 2 ^ 32 - 1 ∧
    coded.TreeOk ∧ coded.CursorOk :=
  ⟨rfl, rfl, by decide, by decide, by decide, by decide, coded_tree, coded_cursor⟩
theorem witness_PaddingNeverRead : ∀ i, i < (6 : BitVec 4).toNat →
    (0xC0 : Byte).getLsbD (7 - i) = (0xC3 : Byte).getLsbD (7 - i) := by decide
/-- At the root, and below it. -/
theorem witness_DecEndEndsPayload : coded.fault = false ∧ coded.treeValid = true ∧
    coded.decCursor = coded.root ∧ ({ coded with decCursor := 3 } : State).decCursor ≠ coded.root :=
  ⟨rfl, rfl, rfl, by decide⟩
theorem witness_OnlyDecoderCommandsWriteDecoder :
    ((∀ b n, Instr.encFlush ≠ .decByte b n) ∧ Instr.encFlush ≠ .decEnd ∧
      Instr.encFlush ≠ .build ∧ Instr.encFlush ≠ .clear ∧ ∃ t, exec .encFlush pending = .next t) ∧
    (∀ b n, Instr.decEnd ≠ .decByte b n) ∧ ∃ t, exec .decEnd pending = .next t :=
  ⟨⟨(fun _ _ h => nomatch h), by decide, by decide, by decide, isNext_iff (by decide +kernel)⟩,
    (fun _ _ h => nomatch h), isNext_iff (by decide +kernel)⟩
theorem witness_RoundTrip : coded.Inv ∧ coded.fault = false ∧ coded.codesValid = true ∧
    coded.encAcc = [] ∧ coded.encBits = 0 ∧ coded.decCursor = coded.root ∧ coded.decBits = 0 ∧
    (∀ x ∈ ([0x61, 0x63, 0x62] : List Sym), (coded.codeAt x).valid = true) ∧
    (([0x61, 0x63, 0x62] : List Sym).flatMap fun x => (coded.codeAt x).bits).length ≤
      2 ^ 32 - 1 :=
  ⟨coded_inv, rfl, rfl, rfl, rfl, rfl, rfl, witness_MessagePacksCodes.2.2.2.2.1,
    witness_MessagePacksCodes.2.2.2.2.2⟩

theorem witness_ReadoutsHaveNoEffect : ∃ x y, Instr.codeBits 0x61 7 = .codeBits x y := ⟨_, _, rfl⟩
/-- Nothing presented, a reset, and a command word. -/
theorem witness_OutputsOnlyGrow : (∃ t, step coded = .next t) ∧
    (∃ t, step { coded with port := [.reset] } = .next t) ∧
    ∃ t, step (presenting 0x41000000) = .next t :=
  ⟨isNext_iff (by decide +kernel), isNext_iff (by decide +kernel), isNext_iff (by decide +kernel)⟩
theorem witness_StepKeepsCounts : (presenting 0x01000000).CountsOk ∧
    ∃ t, step (presenting 0x01000000) = .next t :=
  ⟨(present_inv _ _ coded_inv).1, isNext_iff (by decide +kernel)⟩
theorem witness_StepKeepsEncoderState : (pending.present 0x40000062).EncoderOk ∧
    ∃ t, step (pending.present 0x40000062) = .next t :=
  ⟨⟨by decide, by decide⟩, isNext_iff (by decide +kernel)⟩
theorem witness_StepKeepsFaultCode : (faulted.present 0x03000000).FaultOk ∧
    ∃ t, step (faulted.present 0x03000000) = .next t :=
  ⟨⟨fun h => absurd h (by decide), fun _ => by decide⟩, isNext_iff (by decide +kernel)⟩
theorem witness_StepKeepsPhase : (presenting 0x51000000).PhaseOk ∧
    ∃ t, step (presenting 0x51000000) = .next t :=
  ⟨(present_inv _ _ coded_inv).2.1, isNext_iff (by decide +kernel)⟩
theorem witness_StepKeepsInvariant : (presenting 0x51000000).Inv ∧
    ∃ t, step (presenting 0x51000000) = .next t :=
  ⟨present_inv _ _ coded_inv, isNext_iff (by decide +kernel)⟩
theorem witness_InvariantStatesNeverStop : coded.Inv ∧ counted.Inv := ⟨coded_inv, counted_inv⟩
/-- With a tree and codes, and with neither and other contents in the arena and the code table. -/
theorem witness_UnspecifiedContentsUnobservable :
    (coded.Inv ∧ ({ coded with draws := 7 } : State).Inv ∧
      coded.SameVisible { coded with draws := 7 }) ∧
    counted.Inv ∧ ({ counted with node := coded.node, code := coded.code } : State).Inv ∧
      counted.SameVisible { counted with node := coded.node, code := coded.code } :=
  ⟨⟨coded_inv, draws_inv _ _ coded_inv, draws_sameVisible _ _⟩, counted_inv,
    treeless_inv _ _ _ rfl rfl counted_inv, treeless_sameVisible _ _ _ rfl rfl⟩

end Sys2Proof.Tests
end

section
/-!
PROOFS, spec/00_scope.md. A command answers once: it raises one of six errors, or it runs and
responds (spec/00_scope.md rule R14, spec/60_exceptions.md rules R242, R246).
-/

namespace Sys2Proof.Machine

variable {wSym wCnt : Nat}

/-- The errors that the checks of the commands raise (R245). R240's other codes are not among them:
a word, not a command, answers `ILLEGAL_OPCODE`, nothing answers `STRUCTURE` (R151), and `TRUNCATED`
is no failed check (R242). -/
def raisedErrors : List Err :=
  [.faulted, .illegalOperand, .sequence, .countOverflow, .symbolNotInTable, .bitcountOverflow]

theorem ne_structureViolation_and_ne_truncated_of_mem_raisedErrors :
    ∀ e ∈ raisedErrors, e ≠ .structureViolation ∧ e ≠ .truncated := by decide

/-- The ways in which the command `i` takes `s` to `t` with one response: a failed check raised its
error, or the command's writes, which leave the responses alone, are followed by its answer. -/
inductive AnswersOnce (i : Instr) (s t : State.For wSym wCnt) : Prop
  | raised {e : Err} (he : e ∈ raisedErrors) (ht : t = s.raise e)
  | ok {u : State.For wSym wCnt} {data : Word} (ht : t = u.respond .ok data)
      (hu : u.responses = s.responses)
  | truncated {u : State.For wSym wCnt} {data : Word} (hi : i = .decEnd)
      (ht : t = u.respond .truncated data) (hu : u.responses = s.responses)

/-- The form of the inversion lemmas of Laws/Exec: one of the errors `es` was raised, or the
command ran as `ran` says. -/
theorem AnswersOnce.of_raised_or {i : Instr} {s t : State.For wSym wCnt} {es : List Err}
    {ran : Prop} (h : (∃ e, e ∈ es ∧ t = s.raise e) ∨ ran) (hes : es ⊆ raisedErrors)
    (hran : ran → AnswersOnce i s t) : AnswersOnce i s t := by
  obtain ⟨e, he, ht⟩ | hr := h
  · exact .raised (hes he) ht
  · exact hran hr

/-- `DEC_END` is the only command whose answer after its checks can be another than OK (R242). -/
theorem execDecEnd_answersOnce {s t : State.For wSym wCnt} (h : execDecEnd s = .next t) :
    AnswersOnce .decEnd s t := by
  refine .of_raised_or (execDecEnd_next h) (by decide) fun ⟨_, _, ht⟩ => ?_
  by_cases hc : s.decCursor = s.root
  · rw [if_neg (not_not.2 hc)] at ht
    exact .ok ht rfl
  · rw [if_pos hc] at ht
    exact .truncated rfl ht rfl

/-- Every command that gives a next state answers once. -/
theorem execFor_answersOnce {i : Instr} {s t : State.For wSym wCnt}
    (h : execFor i s = .next t) : AnswersOnce i s t := by
  cases i with
  | nop => cases (execNop_eq s).symm.trans h; exact .ok rfl rfl
  | clear => cases (execClear_eq s).symm.trans h; exact .ok rfl s.clearCore_responses
  | regRead sel =>
    obtain ht | ⟨_, ht⟩ := execRegRead_next h
    · exact .raised (by decide) ht
    · exact .ok ht rfl
  | accum sym =>
    exact .of_raised_or (execAccum_next h) (by decide) fun ⟨_, _, _, ht⟩ => .ok ht rfl
  | countRead sym =>
    exact .of_raised_or (execCountRead_next h) (by decide) fun ⟨_, ht⟩ => .ok ht rfl
  | build => exact .of_raised_or (execBuild_next h) (by decide) fun ⟨_, _, ht⟩ => .ok ht rfl
  | nodeRead idx nsel =>
    exact .of_raised_or (execNodeRead_next h) (by decide) fun ⟨_, _, _, ht⟩ => .ok ht rfl
  | genCodes =>
    exact .of_raised_or (execGenCodes_next h) (by decide) fun ⟨_, _, _, _, ht⟩ => .ok ht rfl
  | codeLen sym =>
    exact .of_raised_or (execCodeLen_next h) (by decide) fun ⟨_, _, ht⟩ => .ok ht rfl
  | codeBits sym word =>
    exact .of_raised_or (execCodeBits_next h) (by decide) fun ⟨_, _, _, ht⟩ => .ok ht rfl
  | encSym sym =>
    exact .of_raised_or (execEncSym_next h) (by decide) fun ⟨_, _, _, _, ht⟩ => .ok ht rfl
  | encFlush => exact .of_raised_or (execEncFlush_next h) (by decide) fun ⟨_, _, ht⟩ => .ok ht rfl
  | decByte byte nbits =>
    exact .of_raised_or (execDecByte_next h) (by decide)
      fun ⟨_, _, _, _, _, _, ht⟩ => .ok ht rfl
  | decEnd => exact execDecEnd_answersOnce h

theorem exec_answersOnce {i : Instr} {s t : State} (h : exec i s = .next t) :
    AnswersOnce i s t :=
  execFor_answersOnce (execFor_eq_exec ▸ h)

/-- Settles O15, from the three ways in which a command answers once. -/
theorem errorsArePrecise : Obligations.ErrorsArePrecise := by
  intro i s t h
  cases exec_answersOnce h with
  | @raised e he ht =>
    obtain ⟨hstructure, htruncated⟩ :=
      ne_structureViolation_and_ne_truncated_of_mem_raisedErrors e he
    exact ⟨⟨e, 0⟩, by simp [ht], hstructure, .inr (.inr ⟨htruncated, ht⟩)⟩
  | @ok u data ht hu => exact ⟨⟨.ok, data⟩, by simp [ht, hu], by simp, .inl rfl⟩
  | @truncated u data hi ht hu =>
    exact ⟨⟨.truncated, data⟩, by simp [ht, hu], by simp, .inr (.inl ⟨rfl, hi⟩)⟩

end Sys2Proof.Machine
end

section
/-!
PROOFS, spec/10_state.md. What a command word can do to the state, and from it who writes which
register and what every step keeps of the registers (R24 to R34, R40, R42, R43).
-/

namespace Sys2Proof.Machine

variable {wSym wCnt : Nat}

/-! ## The effects of a command -/

/-- The errors that a word can raise (R241): those of the commands, and that of a word whose opcode
is no command's. -/
def wordErrors : List Err := .illegalOpcode :: raisedErrors

/-- Everything the command `i` can do to the state: raise an error, as a word that is no command
does too, or pass its checks and make the writes of its rule with their guards. A readout, `NOP` and
`REG_READ` only answer. -/
inductive Effect : Instr → State.For wSym wCnt → State.For wSym wCnt → Prop
  | raised (i s) {e : Err} (he : e ∈ wordErrors) : Effect i s (s.raise e)
  | answered (i s) (data : Word) : Effect i s (s.respond .ok data)
  | cleared (s) : Effect .clear s (s.clearCore.respond .ok 0)
  | counted (s) (sym : BitVec 16) (htree : s.treeValid = false) (hroom : s.totalFull = false) :
      Effect (.accum sym) s
        ((s.writeCounts (fieldSym sym) (s.countAt (fieldSym sym) + 1) (s.total + 1)
          (if s.countAt (fieldSym sym) = 0 then s.distinct + 1 else s.distinct)).respond .ok
            (zext32 (s.countAt (fieldSym sym) + 1)))
  | built (s) (htree : s.treeValid = false) :
      Effect .build s
        ((s.writeTree (buildTree s.count s.node s.pq).node (buildTree s.count s.node s.pq).root
          (buildTree s.count s.node s.pq).nodeCount (buildTree s.count s.node s.pq).queue).respond
            .ok (zext32 (buildTree s.count s.node s.pq).nodeCount))
  | coded (s) {table : CodeTable wSym} (htree : s.treeValid = true)
      (htable : genTable s = some table) :
      Effect .genCodes s ((s.writeCodes table).respond .ok (zext32 s.distinct))
  | encoded (s) (sym : BitVec 16)
      (hroom : bitCountOverflows s.encBits (s.codeAt (fieldSym sym)).len = false) :
      Effect (.encSym sym) s
        ((s.writeEncoder (BitWriter.appendAll ⟨s.encAcc, []⟩ (s.codeAt (fieldSym sym)).bits).acc
          (s.encBits + BitVec.ofNat 32 (s.codeAt (fieldSym sym)).len)
          (BitWriter.appendAll ⟨s.encAcc, []⟩ (s.codeAt (fieldSym sym)).bits).out).respond .ok
            (BitVec.ofNat 32
              (BitWriter.appendAll ⟨s.encAcc, []⟩ (s.codeAt (fieldSym sym)).bits).out.length))
  | flushed (s) :
      Effect .encFlush s
        ((s.writeEncoder [] 0 (flushBytes s.encAcc)).respond .ok (zext32 s.encBits))
  | decoded (s) (byte : Byte) (nbits : BitVec 4) {d : Decoder wSym} (htree : s.treeValid = true)
      (hrun : decRun s ⟨s.decCursor, []⟩ (firstBits byte nbits.toNat) = some d) :
      Effect (.decByte byte nbits) s
        ((s.writeDecoder d.cursor (s.decBits + nbits.setWidth 32) d.out).respond
          .ok (BitVec.ofNat 32 d.out.length))
  | ended (s) (htree : s.treeValid = true) (err : Err) :
      Effect .decEnd s ((s.writeDecoder s.root 0 []).respond err (zext32 s.decBits))

/-- The form of the inversion lemmas of Laws/Exec: one of the errors `es` was raised, or the
command ran as `ran` says. -/
theorem Effect.of_raised_or {i : Instr} {s t : State.For wSym wCnt} {es : List Err} {ran : Prop}
    (h : (∃ e, e ∈ es ∧ t = s.raise e) ∨ ran) (hes : es ⊆ raisedErrors)
    (hran : ran → Effect i s t) : Effect i s t := by
  obtain ⟨e, he, rfl⟩ | hr := h
  · exact .raised i s (List.mem_cons_of_mem _ (hes he))
  · exact hran hr

/-- Every next state of a command is one of its effects. -/
theorem execFor_effect {i : Instr} {s t : State.For wSym wCnt} (h : execFor i s = .next t) :
    Effect i s t := by
  cases i with
  | nop => cases (execNop_eq s).symm.trans h; exact .answered ..
  | clear => cases (execClear_eq s).symm.trans h; exact .cleared s
  | regRead sel =>
    obtain rfl | ⟨_, rfl⟩ := execRegRead_next h
    · exact .raised _ s (by decide)
    · exact .answered ..
  | accum sym =>
    refine .of_raised_or (execAccum_next h) (by decide) ?_
    rintro ⟨_, htree, hroom, rfl⟩
    exact .counted s sym htree hroom
  | countRead sym =>
    refine .of_raised_or (execCountRead_next h) (by decide) ?_
    rintro ⟨_, rfl⟩
    exact .answered ..
  | build =>
    refine .of_raised_or (execBuild_next h) (by decide) ?_
    rintro ⟨_, htree, rfl⟩
    exact .built s htree
  | nodeRead idx nsel =>
    refine .of_raised_or (execNodeRead_next h) (by decide) ?_
    rintro ⟨_, _, _, rfl⟩
    exact .answered ..
  | genCodes =>
    refine .of_raised_or (execGenCodes_next h) (by decide) ?_
    rintro ⟨_, htree, table, htable, rfl⟩
    exact .coded s htree htable
  | codeLen sym =>
    refine .of_raised_or (execCodeLen_next h) (by decide) ?_
    rintro ⟨_, _, rfl⟩
    exact .answered ..
  | codeBits sym word =>
    refine .of_raised_or (execCodeBits_next h) (by decide) ?_
    rintro ⟨_, _, _, rfl⟩
    exact .answered ..
  | encSym sym =>
    refine .of_raised_or (execEncSym_next h) (by decide) ?_
    rintro ⟨_, _, _, hroom, rfl⟩
    exact .encoded s sym hroom
  | encFlush =>
    refine .of_raised_or (execEncFlush_next h) (by decide) ?_
    rintro ⟨_, _, rfl⟩
    exact .flushed s
  | decByte byte nbits =>
    refine .of_raised_or (execDecByte_next h) (by decide) ?_
    rintro ⟨_, _, htree, _, d, hrun, rfl⟩
    exact .decoded s byte nbits htree hrun
  | decEnd =>
    refine .of_raised_or (execDecEnd_next h) (by decide) ?_
    rintro ⟨_, htree, rfl⟩
    exact .ended s htree _

theorem exec_effect {i : Instr} {s t : State} (h : exec i s = .next t) : Effect i s t :=
  execFor_effect (execFor_eq_exec ▸ h)

/-- A word that is no command raises its error, as any command can. -/
theorem rejectWord_effect (i : Instr) (s : State.For wSym wCnt) (w : Word) {verdict : Err}
    (hv : verdict = .illegalOpcode ∨ verdict = .illegalOperand) :
    Effect i s (s.rejectWord w verdict) := by
  obtain ⟨_, _, hr⟩ | ⟨_, hr⟩ := s.rejectWord_cases w verdict
  · rw [hr]
    exact .raised i s (by decide)
  · rw [hr]
    obtain rfl | rfl := hv <;> exact .raised i s (by decide)

/-- Everything one step can do: hold the state, reset the core, or take a word and have the effect
of its command; a word that is no command has the effect of a command that raises an error. -/
theorem step_cases {s t : State} (h : step s = .next t) :
    (s.port = [] ∧ t = s) ∨
    (∃ rest, s.port = .reset :: rest ∧ t = (s.takeEvent rest).clearCore) ∨
    ∃ w rest i, s.port = .command w :: rest ∧ Effect i (s.takeEvent rest) t ∧
      (i = .clear → decode 8 w = .command .clear) := by
  obtain ⟨hp, hr⟩ | ⟨rest, hp, hr⟩ | ⟨w, rest, i, hp, hd, hr⟩ | ⟨w, rest, verdict, hp, hv, hr⟩ :=
    runEvents_cases exec s s.port
  · cases hr.symm.trans h
    exact .inl ⟨hp, rfl⟩
  · cases hr.symm.trans h
    exact .inr (.inl ⟨rest, hp, rfl⟩)
  · exact .inr (.inr ⟨w, rest, i, hp, exec_effect (hr.symm.trans h), fun hi => hi ▸ hd⟩)
  · cases hr.symm.trans h
    exact .inr (.inr ⟨w, rest, .nop, hp, rejectWord_effect .nop _ w hv, nofun⟩)

/-- What a reset, the host's list of events and every effect of a command keep, every step keeps. -/
theorem step_keeps {P : State → Prop} (hport : ∀ s rest, P s → P (s.takeEvent rest))
    (hreset : ∀ s, P s → P s.clearCore) (heffect : ∀ i s t, Effect i s t → P s → P t)
    {s t : State} (hs : P s) (h : step s = .next t) : P t := by
  obtain ⟨_, rfl⟩ | ⟨rest, _, rfl⟩ | ⟨w, rest, i, _, he, _⟩ := step_cases h
  · exact hs
  · exact hreset _ (hport s rest hs)
  · exact heffect i _ t he (hport s rest hs)

/-! ## Who writes which register -/

/-- Settles O24, effect by effect: only `counted` and `cleared` write the counts. -/
theorem onlyAccumWritesCounts : Obligations.OnlyAccumWritesCounts := by
  intro i s t haccum hclear h
  cases exec_effect h with
  | cleared => exact absurd rfl hclear
  | counted s sym => exact absurd rfl (haccum sym)
  | raised | answered | built | coded | encoded | flushed | decoded | ended => simp

/-- While there is a tree only `CLEAR` writes it, and while there is none only `BUILD` does too. -/
theorem Effect.tree_eq {i : Instr} {s t : State.For wSym wCnt} (h : Effect i s t)
    (hclear : i ≠ .clear) (hbuild : s.treeValid = true ∨ i ≠ .build) :
    t.node = s.node ∧ t.treeValid = s.treeValid ∧ t.root = s.root ∧ t.nodeCount = s.nodeCount := by
  cases h with
  | cleared => exact absurd rfl hclear
  | built s htree => simp [htree] at hbuild
  | raised | answered | counted | coded | encoded | flushed | decoded | ended => simp

/-- Settles O32, from the writers of the tree among the effects. -/
theorem onlyBuildWritesTree : Obligations.OnlyBuildWritesTree :=
  ⟨fun _ _ _ hbuild hclear h => (exec_effect h).tree_eq hclear (.inr hbuild),
    fun _ _ _ hclear htree h => htree ▸ (exec_effect h).tree_eq hclear (.inl htree)⟩

/-- Settles O39, effect by effect: only `coded` and `cleared` write the code table. -/
theorem onlyGenCodesWritesCodes : Obligations.OnlyGenCodesWritesCodes := by
  intro i s t hgen hclear h
  cases exec_effect h with
  | cleared => exact absurd rfl hclear
  | coded => exact absurd rfl hgen
  | raised | answered | counted | built | encoded | flushed | decoded | ended => simp

/-- Settles O43, effect by effect: only `encoded` and `flushed` emit bytes, and `cleared` writes the
encoder beside them. -/
theorem onlyEncoderCommandsWriteEncoder : Obligations.OnlyEncoderCommandsWriteEncoder := by
  intro i s t hsym hflush h
  cases exec_effect h with
  | encoded s sym => exact absurd rfl (hsym sym)
  | flushed => exact absurd rfl hflush
  | cleared => exact ⟨by simp, fun hclear => absurd rfl hclear⟩
  | raised | answered | counted | built | coded | decoded | ended => simp

/-- Only `DEC_BYTE` emits symbols. -/
theorem Effect.symsOut_eq {i : Instr} {s t : State.For wSym wCnt} (h : Effect i s t)
    (hbyte : ∀ b n, i ≠ .decByte b n) : t.symsOut = s.symsOut := by
  cases h with
  | decoded s b n => exact absurd rfl (hbyte b n)
  | raised | answered | cleared | counted | built | coded | encoded | flushed | ended => simp

/-- Only `BUILD`, `DEC_BYTE`, `DEC_END` and `CLEAR` write the decoder. -/
theorem Effect.decoder_eq {i : Instr} {s t : State.For wSym wCnt} (h : Effect i s t)
    (hbyte : ∀ b n, i ≠ .decByte b n) (hend : i ≠ .decEnd) (hbuild : i ≠ .build)
    (hclear : i ≠ .clear) : t.decCursor = s.decCursor ∧ t.decBits = s.decBits := by
  cases h with
  | decoded s b n => exact absurd rfl (hbyte b n)
  | ended => exact absurd rfl hend
  | built => exact absurd rfl hbuild
  | cleared => exact absurd rfl hclear
  | raised | answered | counted | coded | encoded | flushed => simp

/-- Settles O49, from the writers of the symbol stream and of the decoder among the effects. -/
theorem onlyDecoderCommandsWriteDecoder : Obligations.OnlyDecoderCommandsWriteDecoder :=
  ⟨fun _ _ _ hbyte h => (exec_effect h).symsOut_eq hbyte,
    fun _ _ _ hbyte hend hbuild hclear h => (exec_effect h).decoder_eq hbyte hend hbuild hclear⟩

/-! ## Outputs and the fault latch -/

/-- A command takes back no output, and answers once. -/
theorem Effect.outputs_grow {i : Instr} {s t : State.For wSym wCnt} (h : Effect i s t) :
    s.bytesOut <+: t.bytesOut ∧ s.symsOut <+: t.symsOut ∧ t.port = s.port ∧
      ∃ r, t.responses = s.responses ++ [r] := by
  cases h <;> simp

/-- Settles O52, for each of the three things a step can do. -/
theorem outputsOnlyGrow : Obligations.OutputsOnlyGrow := by
  intro s t h
  obtain ⟨hp, rfl⟩ | ⟨rest, hp, rfl⟩ | ⟨w, rest, i, hp, he, _⟩ := step_cases h
  · exact ⟨by simp, by simp, by simp [hp], [], by simp [hp]⟩
  · exact ⟨by simp, by simp, by simp [hp], [], by simp [hp]⟩
  · obtain ⟨hbytes, hsyms, hport, r, hr⟩ := he.outputs_grow
    exact ⟨hbytes, hsyms, by simp [hport, hp], [r], hr, by simp [hp]⟩

/-- No effect but that of `CLEAR` writes a latched fault. -/
theorem Effect.fault_stays {i : Instr} {s t : State.For wSym wCnt} (h : Effect i s t)
    (hclear : i ≠ .clear) (hf : s.fault = true) : t.fault = true ∧ t.faultCode = s.faultCode := by
  cases h with
  | cleared => exact absurd rfl hclear
  | raised | answered | counted | built | coded | encoded | flushed | decoded | ended => simp [hf]

/-- Settles O16: a word that does not decode to `CLEAR` has no effect of `CLEAR`. -/
theorem faultStaysLatched : Obligations.FaultStaysLatched := by
  intro s t w rest hport hf hw h
  obtain ⟨hp, _⟩ | ⟨_, hp, _⟩ | ⟨w', rest', i, hp, he, hi⟩ := step_cases h
  · simp [hport] at hp
  · simp [hport] at hp
  · obtain ⟨rfl, rfl⟩ : w = w' ∧ rest = rest' := by simpa [hport] using hp
    exact he.fault_stays (mt hi hw) hf

/-! ## The reset values and the readouts of the registers -/

theorem State.For.clearCore_atReset (s : State.For wSym wCnt) : s.clearCore.AtReset := by
  simp [State.For.AtReset, State.For.countAt]

theorem reset_atReset : State.reset.AtReset := by
  refine ⟨fun sym => ?_, by simp [State.reset, State.For.reset]⟩
  exact readCount_replicate sym 0

/-- Settles O8: reset and `CLEAR` are both `clearCore`, with and without an answer. -/
theorem resetAndClearValues : Obligations.ResetAndClearValues := by
  refine ⟨reset_atReset, fun s rest hp => ?_, fun s => ?_⟩
  · refine ⟨(s.takeEvent rest).clearCore, by simp [step, hp, runEvents], ?_⟩
    exact ⟨(s.takeEvent rest).clearCore_atReset, rfl, rfl, rfl, rfl⟩
  · exact ⟨_, execClear_eq s, s.clearCore_atReset, rfl, rfl, rfl, rfl⟩

/-- Settles O19, field by field of the concatenation. -/
theorem statusLayout : Obligations.StatusLayout := by
  intro s
  refine ⟨?_, ?_, ?_, ?_, ?_, ?_, ?_, ?_⟩
  · simp only [State.For.status, BitVec.getLsbD_append]
    simp
  · simp only [State.For.status, BitVec.getLsbD_append]
    simp
  · simp only [State.For.status, BitVec.getLsbD_append]
    simp
  · simp only [State.For.status, BitVec.getLsbD_append]
    simp [State.For.decMidcode]
    rfl
  all_goals
    ext i hi
    simp only [State.For.status, BitVec.getElem_extractLsb', BitVec.getLsbD_append]
    rw [← BitVec.getLsbD_eq_getElem]
  · simp [hi]
  · simp [State.For.encPending, hi]
  · simp [show ¬ 7 + i < 4 by omega, show ¬ 7 + i - 4 < 3 by omega,
      show ¬ 5 ≤ 7 + i - 4 - 3 by omega]
  · simp [show ¬ 12 + i < 4 by omega, show ¬ 12 + i - 4 < 3 by omega,
      show ¬ 12 + i - 4 - 3 < 5 by omega, show 12 + i - 4 - 3 - 5 = i by omega]

theorem packMsb_getLsbD (bits : Bits) (i : Nat) (hi : i < 8) :
    (packMsb 8 bits).getLsbD (7 - i) = bits.getD i false := by
  rw [← packMsb_getMsbD 8 bits i hi, BitVec.getMsbD, decide_eq_true hi, Bool.true_and]

theorem zext32_toNat {n : Nat} (hn : n ≤ 32) (v : BitVec n) : (zext32 v).toNat = v.toNat := by
  rw [zext32, BitVec.toNat_setWidth_of_le hn]

/-- Settles O20, selector by selector. -/
theorem regReadValues : Obligations.RegReadValues := by
  refine fun s => ⟨fun sel hsel => ?_, fun sel hsel => ?_⟩
  · have hwf : Instr.wf 8 (.regRead sel) = true := by simpa [Instr.wf, BitVec.le_def] using hsel
    refine ⟨s.regValue sel, ?_, ?_⟩
    · change execRegRead sel s = _
      simp [execRegRead, runChecked_cons, hwf]
      rfl
    · refine ⟨?_, ?_, ?_, ?_, ?_, ?_, ?_, ?_, ?_⟩ <;> rintro rfl
      · rfl
      · exact zext32_toNat (by decide) s.total
      · exact zext32_toNat (by decide) s.root
      · exact zext32_toNat (by decide) s.nodeCount
      · exact zext32_toNat (by decide) s.encBits
      · exact zext32_toNat (by decide) s.decBits
      · exact zext32_toNat (by decide) s.decCursor
      · change params 8 32 = _; decide
      · change (zext32 (packMsb 8 s.encAcc)).toNat < 256 ∧
          ∀ i, i < 8 → (zext32 (packMsb 8 s.encAcc)).getLsbD (7 - i) = _
        refine ⟨?_, fun i hi => ?_⟩
        · rw [zext32_toNat (by decide)]
          exact (packMsb 8 s.encAcc).isLt
        · rw [zext32, BitVec.getLsbD_setWidth, decide_eq_true (by omega), Bool.true_and,
            packMsb_getLsbD s.encAcc i hi]
  · have hwf : Instr.wf 8 (.regRead sel) = false := by simpa [Instr.wf, BitVec.le_def] using hsel
    change execRegRead sel s = _
    simp [execRegRead, runChecked_cons, hwf]

/-! ## What every step keeps of the registers -/

/-- R190, R191: `ENC_SYM` keeps the encoder's invariant, since no appended bit is lost and
`ENC_BITS` has room for them. -/
theorem encoderOk_writeEncoder_appendAll {s : State.For wSym wCnt} (h : s.EncoderOk) (bits : Bits)
    (hroom : bitCountOverflows s.encBits bits.length = false) (out : List Byte) :
    (s.writeEncoder (BitWriter.appendAll ⟨s.encAcc, []⟩ bits).acc
      (s.encBits + BitVec.ofNat 32 bits.length) out).EncoderOk := by
  obtain ⟨hlt, hmod⟩ := h
  obtain ⟨hacc, hlen⟩ := BitWriter.appendAll_length ⟨s.encAcc, []⟩ bits hlt
  have hfit : s.encBits.toNat + bits.length < 2 ^ 32 := by
    simp only [bitCountOverflows, decide_eq_false_iff_not] at hroom
    omega
  have hbits : (s.encBits + BitVec.ofNat 32 bits.length).toNat = s.encBits.toNat + bits.length := by
    rw [BitVec.toNat_add, BitVec.toNat_ofNat, Nat.add_mod_mod, Nat.mod_eq_of_lt hfit]
  refine ⟨hacc, ?_⟩
  simp only [State.For.writeEncoder_encBits, State.For.writeEncoder_encAcc, hbits]
  simp only [List.length_nil] at hlen
  omega

theorem Effect.keeps_encoderOk {i : Instr} {s t : State.For wSym wCnt} (h : Effect i s t)
    (hs : s.EncoderOk) : t.EncoderOk := by
  cases h with
  | encoded s sym hroom => exact encoderOk_writeEncoder_appendAll hs _ hroom []
  | cleared | flushed => exact ⟨by simp, by simp⟩
  | raised | answered | counted | built | coded | decoded | ended =>
    simpa [State.For.EncoderOk] using hs

/-- Settles O55, effect by effect: the encoder is emptied, or grows by a code that has room. -/
theorem stepKeepsEncoderState : Obligations.StepKeepsEncoderState := fun _ _ =>
  step_keeps (fun _ _ h => h) (fun _ _ => ⟨by simp, by simp⟩) fun _ _ _ h => h.keeps_encoderOk

/-- R241: the errors of a word that are fatal have the codes 1 to 6. -/
theorem code_of_fatal : ∀ e ∈ wordErrors, e.fatal = true →
    1 ≤ e.code ∧ e.code ≤ 6 := by decide

theorem faultOk_raise {s : State.For wSym wCnt} (hs : s.FaultOk) {e : Err}
    (he : e ∈ wordErrors) : (s.raise e).FaultOk := by
  obtain ⟨hclear, hset⟩ := hs
  cases hf : s.fault with
  | true => exact ⟨by simp [hf], fun _ => by simpa [hf] using hset hf⟩
  | false =>
    cases hfatal : e.fatal with
    | true =>
      have hcode := code_of_fatal e he hfatal
      exact ⟨by simp [hfatal], fun _ => by simpa [hf, hfatal] using hcode⟩
    | false => exact ⟨fun _ => by simpa [hfatal] using hclear hf, by simp [hf, hfatal]⟩

theorem Effect.keeps_faultOk {i : Instr} {s t : State.For wSym wCnt} (h : Effect i s t)
    (hs : s.FaultOk) : t.FaultOk := by
  cases h with
  | raised _ _ he => exact faultOk_raise hs he
  | cleared => exact ⟨fun _ => rfl, nofun⟩
  | answered | counted | built | coded | encoded | flushed | decoded | ended => exact hs

/-- Settles O56, effect by effect: only a raised error and `CLEAR` write the latch. -/
theorem stepKeepsFaultCode : Obligations.StepKeepsFaultCode := fun _ _ =>
  step_keeps (fun _ _ h => h) (fun _ _ => ⟨fun _ => rfl, nofun⟩) fun _ _ _ h => h.keeps_faultOk

/-- R143: the leaves of the symbols and `k - 1` merges in an arena, the builder's work for two
symbols or more. -/
def mergedBuilder (m : CountMem wSym wCnt) (node : Arena wSym wCnt) (syms : List (Sym wSym)) :
    Builder wSym wCnt :=
  Builder.merges (syms.length - 1) (Builder.addLeaves ⟨node, [], 0⟩ m syms)

/-- R146: of the leaves' entries the merges leave one, and it names the root. -/
theorem buildMerged_spec (m : CountMem wSym wCnt) (node : Arena wSym wCnt)
    {syms : List (Sym wSym)} (h : syms ≠ []) :
    ∃ e, (mergedBuilder m node syms).queue = [e] ∧
      buildMerged m node syms = ⟨(mergedBuilder m node syms).node, e.index,
        BitVec.ofNat (wSym + 1) (2 * syms.length - 1), []⟩ := by
  have hpos := List.length_pos_iff.2 h
  have hleaves := Builder.addLeaves_queue_length ⟨node, [], 0⟩ m syms
  have hmerges := Builder.merges_spec (syms.length - 1) (Builder.addLeaves ⟨node, [], 0⟩ m syms)
    (by rw [hleaves]; omega)
  have hone : (mergedBuilder m node syms).queue.length = 1 := by
    simp only [List.length_nil] at hleaves
    rw [mergedBuilder]
    omega
  obtain ⟨e, he⟩ := List.length_eq_one_iff.1 hone
  refine ⟨e, he, ?_⟩
  rw [mergedBuilder] at he ⊢
  simp [buildMerged, he, extractMin, minEntry]

/-- R29, R143: `BUILD` leaves an empty queue empty. -/
theorem buildTree_queue (m : CountMem wSym wCnt) (node : Arena wSym wCnt) :
    (buildTree m node []).queue = [] := by
  unfold buildTree
  split
  · rfl
  · rfl
  · next x y syms _ =>
    obtain ⟨e, _, hb⟩ := buildMerged_spec m node (List.cons_ne_nil x (y :: syms))
    rw [hb]

theorem Effect.keeps_phaseOk {i : Instr} {s t : State.For wSym wCnt} (h : Effect i s t)
    (hs : s.PhaseOk) : t.PhaseOk := by
  obtain ⟨hcodes, hregs, hpq⟩ := hs
  cases h with
  | cleared => exact ⟨nofun, fun _ => ⟨rfl, rfl, rfl, rfl⟩, rfl⟩
  | built s htree => exact ⟨fun _ => rfl, nofun, by simp [hpq, buildTree_queue]⟩
  | coded s htree => exact ⟨fun _ => htree, hregs, hpq⟩
  | decoded s byte nbits htree | ended s htree =>
    exact ⟨hcodes, fun h => absurd h (by simp [htree]), hpq⟩
  | raised | answered | counted | encoded | flushed =>
    simpa [State.For.PhaseOk] using And.intro hcodes (And.intro hregs hpq)

/-- Settles O57, effect by effect. -/
theorem stepKeepsPhase : Obligations.StepKeepsPhase := fun _ _ =>
  step_keeps (fun _ _ h => h) (fun _ _ => ⟨nofun, fun _ => ⟨rfl, rfl, rfl, rfl⟩, rfl⟩)
    fun _ _ _ h => h.keeps_phaseOk

/-! ## The counts, their sum and the counted symbols (R24 to R26) -/

/-- R25: a write changes the sum by what the written count changes. -/
theorem countSum_writeCount (m : CountMem wSym wCnt) (sym : Sym wSym) (v : Count wCnt) :
    countSum (writeCount m sym v) + (readCount m sym).toNat = countSum m + v.toNat := by
  have hlen : sym.toNat < (m.toList.map BitVec.toNat).length := by simpa using sym.isLt
  have hget : (m.toList.map BitVec.toNat)[sym.toNat] = (readCount m sym).toNat := by
    simp [readCount]
  have hset := List.sum_set (m.toList.map BitVec.toNat) sym.toNat v.toNat
  have hself := List.sum_set (m.toList.map BitVec.toNat) sym.toNat (readCount m sym).toNat
  rw [← hget, List.set_getElem_self, hget, if_pos hlen] at hself
  rw [if_pos hlen] at hset
  have hsum : countSum (writeCount m sym v) =
      ((m.toList.map BitVec.toNat).set sym.toNat v.toNat).sum := by
    rw [countSum, writeCount, Vector.toList_set, List.map_set]
  rw [hsum, hset, countSum, hself]
  omega

theorem readCount_le_countSum (m : CountMem wSym wCnt) (sym : Sym wSym) :
    (readCount m sym).toNat ≤ countSum m := by
  have h := countSum_writeCount m sym 0#wCnt
  rw [BitVec.toNat_zero] at h
  omega

theorem toList_eq_map_readCount (m : CountMem wSym wCnt) :
    m.toList = ((List.range (2 ^ wSym)).map (BitVec.ofNat wSym)).map (readCount m) := by
  apply List.ext_getElem (by simp)
  intro i hi _
  have hi' : i < 2 ^ wSym := by simpa using hi
  simp [readCount, Nat.mod_eq_of_lt hi']

/-- R25, R26: the symbols that are not counted add nothing to the sum. -/
theorem countSum_eq_presentSyms (m : CountMem wSym wCnt) :
    countSum m = ((presentSyms m).map fun x => (readCount m x).toNat).sum := by
  rw [countSum, toList_eq_map_readCount, presentSyms, List.map_map]
  induction (List.range (2 ^ wSym)).map (BitVec.ofNat wSym) with
  | nil => rfl
  | cons x xs ih =>
    by_cases hx : readCount m x = 0#wCnt
    · simpa [hx] using ih
    · simpa [hx] using ih

theorem presentSyms_nodup (m : CountMem wSym wCnt) : (presentSyms m).Nodup :=
  (presentSyms_sorted m).imp fun h heq => by simp [heq] at h

/-- R26: a count written as 1 or more makes its symbol a counted one. -/
theorem presentSyms_writeCount_length (m : CountMem wSym wCnt) (sym : Sym wSym) {v : Count wCnt}
    (hv : v ≠ 0) :
    (presentSyms (writeCount m sym v)).length =
      if readCount m sym = 0 then (presentSyms m).length + 1 else (presentSyms m).length := by
  have hmem : ∀ x, x ∈ presentSyms (writeCount m sym v) ↔ x = sym ∨ x ∈ presentSyms m := by
    intro x
    rw [mem_presentSyms, mem_presentSyms, readCount_writeCount]
    by_cases hx : sym = x
    · simpa [hx] using hv
    · simp [hx, Ne.symm hx]
  split
  · next h0 =>
    have hnot : sym ∉ presentSyms m := fun h => (mem_presentSyms m sym).1 h h0
    exact ((List.perm_ext_iff_of_nodup (presentSyms_nodup _)
      (List.nodup_cons.2 ⟨hnot, presentSyms_nodup m⟩)).2 fun x => by simp [hmem]).length_eq
  · next h0 =>
    refine ((List.perm_ext_iff_of_nodup (presentSyms_nodup _) (presentSyms_nodup m)).2
      fun x => ?_).length_eq
    rw [hmem, or_iff_right_of_imp]
    rintro rfl
    exact (mem_presentSyms m x).2 h0

/-- R120: one more occurrence keeps the count invariant. No counter wraps: a count is at most
`TOTAL`, which has room, and `DISTINCT` is at most `K_MAX`. -/
theorem countsOk_writeCounts {s : State} (h : s.CountsOk) (sym : Sym)
    (hroom : s.totalFull = false) :
    (s.writeCounts sym (s.countAt sym + 1) (s.total + 1)
      (if s.countAt sym = 0 then s.distinct + 1 else s.distinct)).CountsOk := by
  obtain ⟨htotal, hdistinct⟩ := h
  have hfull : s.total.toNat ≠ 2 ^ 32 - 1 := by
    simpa [State.For.totalFull, ← BitVec.toNat_inj] using hroom
  have hlt := s.total.isLt
  have hle : (s.countAt sym).toNat ≤ countSum s.count := readCount_le_countSum s.count sym
  have hcount : (s.countAt sym + 1#32).toNat = (s.countAt sym).toNat + 1 :=
    BitVec.toNat_add_of_lt (by simp; omega)
  have hne : s.countAt sym + 1#32 ≠ 0#32 := fun h0 => by
    rw [h0] at hcount
    simp at hcount
  refine ⟨?_, ?_⟩
  · have hsum : countSum (writeCount s.count sym (s.countAt sym + 1#32)) + (s.countAt sym).toNat =
        countSum s.count + (s.countAt sym + 1#32).toNat := countSum_writeCount s.count sym _
    change (s.total + 1#32).toNat = countSum (writeCount s.count sym (s.countAt sym + 1#32))
    rw [BitVec.toNat_add_of_lt (by simp; omega), BitVec.toNat_ofNat]
    omega
  · have hlen := presentSyms_writeCount_length s.count sym hne
    have hmax := presentSyms_length_le s.count
    by_cases h0 : s.countAt sym = 0
    · rw [if_pos h0]
      change (s.distinct + 1#16).toNat = _
      rw [BitVec.toNat_add_of_lt (by simp; omega), hdistinct]
      exact (hlen.trans (if_pos h0)).symm
    · rw [if_neg h0]
      exact hdistinct.trans (hlen.trans (if_neg h0)).symm

theorem State.For.AtReset.countsOk {s : State.For wSym wCnt} (h : s.AtReset) : s.CountsOk := by
  obtain ⟨hcount, htotal, hdistinct, _⟩ := h
  have hnone : presentSyms s.count = [] :=
    List.eq_nil_iff_forall_not_mem.2 fun x hx => (mem_presentSyms s.count x).1 hx (hcount x)
  exact ⟨by simp [htotal, countSum_eq_presentSyms, hnone], by simp [hdistinct, hnone]⟩

theorem Effect.keeps_countsOk {i : Instr} {s t : State} (h : Effect i s t) (hs : s.CountsOk) :
    t.CountsOk := by
  cases h with
  | counted s sym _ hroom => exact countsOk_writeCounts hs _ hroom
  | cleared => exact s.clearCore_atReset.countsOk
  | raised | answered | built | coded | encoded | flushed | decoded | ended =>
    simpa [State.For.CountsOk] using hs

/-- Settles O54, effect by effect: only `ACCUM` and `CLEAR` write the counts. -/
theorem stepKeepsCounts : Obligations.StepKeepsCounts := fun _ _ =>
  step_keeps (fun _ _ h => h) (fun s _ => s.clearCore_atReset.countsOk)
    fun _ _ _ h => h.keeps_countsOk

/-- Every invariant holds of the reset values: there is no tree and no code table (R40). -/
theorem State.For.AtReset.inv {s : State.For wSym wCnt} (h : s.AtReset) : s.Inv := by
  have hcounts := h.countsOk
  obtain ⟨_, _, _, htree, hroot, hnodes, hpq, hcodes, hacc, hbits, hcursor, hdec, hf, hfc⟩ := h
  refine ⟨hcounts, ⟨by simp [hcodes], fun _ => ⟨hroot, hnodes, hcursor, hdec⟩, hpq⟩, ?_, ?_, ?_, ?_⟩
  · exact ⟨by simp [hacc], by simp [hacc, hbits]⟩
  · exact ⟨fun _ => hfc, fun h1 => absurd h1 (by simp [hf])⟩
  · exact fun h1 => absurd h1 (by simp [htree])
  · exact fun h1 => absurd h1 (by simp [hcodes])

/-- Settles O53: the reset state has the reset values. -/
theorem resetHasInvariant : Obligations.ResetHasInvariant := reset_atReset.inv

end Sys2Proof.Machine
end

section
/-!
PROOFS, spec/42_tree_builder.md and spec/10_state.md rule R38. The builder's arena is a forest whose
roots are the queue's entries: every leaf and every merge keeps it so, and one entry is left, the
root of the tree.
-/

namespace Sys2Proof.Machine

variable {wSym wCnt : Nat}

/-! ## The forest of the builder -/

/-- The record is an `INTERNAL` node with `c` as a child. -/
def NodeRec.HasChild (r : NodeRec wSym wCnt) (c : NodeIdx wSym) : Prop :=
  r.kind = .internal ∧ (r.left = c ∨ r.right = c)

/-- The node `i` that the builder has made names `c` as a child. -/
def Builder.Parent (b : Builder wSym wCnt) (i c : NodeIdx wSym) : Prop :=
  i.toNat < b.next ∧ (readNode b.node i).HasChild c

/-- The nodes whose entries are in the queue. -/
def Builder.queued (b : Builder wSym wCnt) : List (NodeIdx wSym) := b.queue.map QEntry.index

/-- What holds of the builder between its insertions (R142, R146): the queue has one entry for each
node that is no child, with its weight; a child was made before its parent, and has only one. -/
structure Builder.Forest (b : Builder wSym wCnt) : Prop where
  entry : ∀ e ∈ b.queue, e.index.toNat < b.next ∧ (readNode b.node e.index).weight = e.weight
  nodup : b.queued.Nodup
  child_lt : ∀ i c, b.Parent i c → c < i
  queued_iff : ∀ c, c.toNat < b.next → (c ∈ b.queued ↔ ∀ i, ¬ b.Parent i c)
  unique : ∀ i j c, b.Parent i c → b.Parent j c → i = j

theorem Builder.Forest.nil (node : Arena wSym wCnt) :
    (⟨node, [], 0⟩ : Builder wSym wCnt).Forest where
  entry := nofun
  nodup := List.nodup_nil
  child_lt _ _ h := absurd h.1 (Nat.not_lt_zero _)
  queued_iff _ h := absurd h (Nat.not_lt_zero _)
  unique _ _ _ h := absurd h.1 (Nat.not_lt_zero _)

/-- The index that the next insertion hands out. -/
def Builder.nextIdx (b : Builder wSym wCnt) : NodeIdx wSym := BitVec.ofNat (wSym + 1) b.next

/-- The record is inserted while `rest` is what is left of the queue: a leaf takes nothing off it, a
merge two entries. -/
def Builder.insert (b : Builder wSym wCnt) (rest : List (QEntry wSym wCnt))
    (r : NodeRec wSym wCnt) : Builder wSym wCnt :=
  ({ b with queue := rest } : Builder wSym wCnt).add r

@[simp] theorem Builder.insert_next (b : Builder wSym wCnt) (rest : List (QEntry wSym wCnt))
    (r : NodeRec wSym wCnt) : (b.insert rest r).next = b.next + 1 := rfl

@[simp] theorem Builder.insert_queue (b : Builder wSym wCnt) (rest : List (QEntry wSym wCnt))
    (r : NodeRec wSym wCnt) : (b.insert rest r).queue = rest ++ [⟨r.weight, b.nextIdx⟩] := rfl

@[simp] theorem Builder.insert_queued (b : Builder wSym wCnt) (rest : List (QEntry wSym wCnt))
    (r : NodeRec wSym wCnt) :
    (b.insert rest r).queued = rest.map QEntry.index ++ [b.nextIdx] := by
  simp [queued]

section
variable {b : Builder wSym wCnt} (hroom : b.next < 2 * 2 ^ wSym - 1)
  (rest : List (QEntry wSym wCnt)) (r : NodeRec wSym wCnt)
include hroom

theorem Builder.toNat_nextIdx : b.nextIdx.toNat = b.next := by
  rw [nextIdx, BitVec.toNat_ofNat, Nat.mod_eq_of_lt]
  rw [Nat.pow_succ]
  omega

theorem Builder.ne_nextIdx_of_lt {i : NodeIdx wSym} (hi : i.toNat < b.next) : i ≠ b.nextIdx := by
  rintro rfl
  rw [toNat_nextIdx hroom] at hi
  exact Nat.lt_irrefl _ hi

theorem Builder.lt_next_insert_iff (i : NodeIdx wSym) :
    i.toNat < (b.insert rest r).next ↔ i.toNat < b.next ∨ i = b.nextIdx := by
  rw [insert_next, ← BitVec.toNat_inj, toNat_nextIdx hroom]
  omega

theorem Builder.readNode_insert (i : NodeIdx wSym) :
    readNode (b.insert rest r).node i = if i = b.nextIdx then r else readNode b.node i := by
  have hne : b.nextIdx ≠ .null := by
    rw [← nodeIdx_lt_nNodes_iff, toNat_nextIdx hroom]
    exact hroom
  simp only [eq_comm (a := i)]
  exact readNode_writeNode b.node b.nextIdx i r hne

theorem Builder.readNode_insert_new : readNode (b.insert rest r).node b.nextIdx = r := by
  rw [readNode_insert hroom, if_pos rfl]

theorem Builder.readNode_insert_of_lt {i : NodeIdx wSym} (hi : i.toNat < b.next) :
    readNode (b.insert rest r).node i = readNode b.node i := by
  rw [readNode_insert hroom, if_neg (ne_nextIdx_of_lt hroom hi)]

theorem Builder.parent_insert_iff (i c : NodeIdx wSym) :
    (b.insert rest r).Parent i c ↔ b.Parent i c ∨ (i = b.nextIdx ∧ r.HasChild c) := by
  rw [Parent, Parent, lt_next_insert_iff hroom, readNode_insert hroom]
  by_cases hi : i = b.nextIdx
  · simp [hi, toNat_nextIdx hroom]
  · simp [hi]

end

theorem Builder.Forest.lt_of_queued {b : Builder wSym wCnt} (hb : b.Forest) {c : NodeIdx wSym}
    (hc : c ∈ b.queued) : c.toNat < b.next := by
  obtain ⟨e, he, rfl⟩ := List.mem_map.1 hc
  exact (hb.entry e he).1

theorem Builder.Forest.lt_of_parent {b : Builder wSym wCnt} (hb : b.Forest) {i c : NodeIdx wSym}
    (h : b.Parent i c) : c.toNat < b.next :=
  Nat.lt_trans (BitVec.lt_def.1 (hb.child_lt i c h)) h.1

/-- R142, R146: a new node whose children are the entries taken off the queue keeps the forest. -/
theorem Builder.Forest.insert {b : Builder wSym wCnt} (hb : b.Forest)
    (hroom : b.next < 2 * 2 ^ wSym - 1) {taken rest : List (QEntry wSym wCnt)}
    (hperm : b.queue.Perm (taken ++ rest)) {r : NodeRec wSym wCnt}
    (hchild : ∀ c, r.HasChild c ↔ c ∈ taken.map QEntry.index) : (b.insert rest r).Forest := by
  have hidx : b.queued.Perm (taken.map QEntry.index ++ rest.map QEntry.index) := by
    simpa [queued] using hperm.map QEntry.index
  have hmem : ∀ c, c ∈ b.queued ↔ r.HasChild c ∨ c ∈ rest.map QEntry.index := fun c => by
    rw [hidx.mem_iff, List.mem_append, hchild]
  obtain ⟨_, hrest, hapart⟩ := List.nodup_append.1 (hidx.nodup_iff.1 hb.nodup)
  have hrest_lt : ∀ c ∈ rest.map QEntry.index, c.toNat < b.next := fun c hc =>
    hb.lt_of_queued ((hmem c).2 (.inr hc))
  have hchild_lt : ∀ c, r.HasChild c → c.toNat < b.next := fun c hc =>
    hb.lt_of_queued ((hmem c).2 (.inl hc))
  have hparent := parent_insert_iff hroom rest r
  refine ⟨?_, ?_, ?_, ?_, ?_⟩
  · intro e he
    rw [lt_next_insert_iff hroom]
    obtain he | rfl : e ∈ rest ∨ e = ⟨r.weight, b.nextIdx⟩ := by simpa using he
    · obtain ⟨hlt, hw⟩ := hb.entry e (hperm.mem_iff.2 (List.mem_append_right _ he))
      exact ⟨.inl hlt, by rw [readNode_insert_of_lt hroom rest r hlt, hw]⟩
    · exact ⟨.inr rfl, by rw [readNode_insert_new hroom]⟩
  · rw [insert_queued]
    refine List.nodup_append.2 ⟨hrest, by simp, ?_⟩
    intro c hc d hd
    rw [List.mem_singleton.1 hd]
    exact ne_nextIdx_of_lt hroom (hrest_lt c hc)
  · intro i c h
    obtain hold | ⟨rfl, hnew⟩ := (hparent i c).1 h
    · exact hb.child_lt i c hold
    · rw [BitVec.lt_def, toNat_nextIdx hroom]
      exact hchild_lt c hnew
  · intro c hc
    simp only [insert_queued, List.mem_append, List.mem_singleton, hparent]
    obtain hc | rfl := (lt_next_insert_iff hroom rest r c).1 hc
    · rw [or_iff_left (ne_nextIdx_of_lt hroom hc)]
      constructor
      · rintro hin i (hold | ⟨_, hnew⟩)
        · exact (hb.queued_iff c hc).1 ((hmem c).2 (.inr hin)) i hold
        · exact hapart c ((hchild c).1 hnew) c hin rfl
      · intro hnone
        have hqueued := (hb.queued_iff c hc).2 fun i hold => hnone i (.inl hold)
        exact ((hmem c).1 hqueued).resolve_left fun hnew => hnone _ (.inr ⟨rfl, hnew⟩)
    · refine iff_of_true (.inr rfl) ?_
      rintro i (hold | ⟨_, hnew⟩)
      · exact ne_nextIdx_of_lt hroom (hb.lt_of_parent hold) rfl
      · exact ne_nextIdx_of_lt hroom (hchild_lt _ hnew) rfl
  · have hapart' : ∀ i c, b.Parent i c → ¬ r.HasChild c := fun i c hold hnew =>
      (hb.queued_iff c (hb.lt_of_parent hold)).1 ((hmem c).2 (.inl hnew)) i hold
    intro i j c hi hj
    obtain hi' | ⟨rfl, hi'⟩ := (hparent i c).1 hi <;>
      obtain hj' | ⟨rfl, hj'⟩ := (hparent j c).1 hj
    · exact hb.unique i j c hi' hj'
    · exact absurd hj' (hapart' i c hi')
    · exact absurd hi' (hapart' j c hj')
    · rfl

/-- R146: a merge takes two entries off the queue and inserts their parent. -/
theorem Builder.merge_eq_insert (b : Builder wSym wCnt) (h : 2 ≤ b.queue.length) :
    ∃ x y rest, b.queue.Perm ([x, y] ++ rest) ∧
      b.merge = b.insert rest (.internal (x.weight + y.weight) x.index y.index) := by
  obtain ⟨x, y, q, rest, hx, hy, hm⟩ := b.merge_spec h
  obtain ⟨hxmem, rfl, _⟩ := extractMin_spec hx
  obtain ⟨hymem, rfl, _⟩ := extractMin_spec hy
  refine ⟨x, y, _, ?_, hm⟩
  exact (List.perm_cons_erase hxmem).trans ((List.perm_cons_erase hymem).cons x)

/-! ## The records of the builder -/

/-- The leaf of a symbol names no child. -/
theorem NodeRec.not_hasChild_leaf (sym : Sym wSym) (w : Count wCnt) (c : NodeIdx wSym) :
    ¬ (NodeRec.leaf sym w).HasChild c := fun h => NodeKind.noConfusion h.1

theorem NodeRec.hasChild_internal (w : Count wCnt) (x y c : NodeIdx wSym) :
    (NodeRec.internal w x y).HasChild c ↔ c ∈ [x, y] := by
  simp [HasChild, internal, eq_comm]

/-- The node `i` is a merge of two nodes whose weights' sum does not wrap (R146, R147). -/
def Builder.MergedAt (b : Builder wSym wCnt) (i : NodeIdx wSym) : Prop :=
  ∃ (w : Count wCnt) (x y : NodeIdx wSym), readNode b.node i = .internal w x y ∧ x ≠ y ∧
    w.toNat = (readNode b.node x).weight.toNat + (readNode b.node y).weight.toNat

/-- What the builder has made once it has the leaves of `syms`: first the leaves, in order, then
merges, and the queue's weights sum to the counts. -/
structure Builder.Grown (m : CountMem wSym wCnt) (syms : List (Sym wSym)) (b : Builder wSym wCnt) :
    Prop where
  forest : b.Forest
  size : b.next + b.queue.length = 2 * syms.length
  leaves_le : syms.length ≤ b.next
  leaf : ∀ i x, syms[i]? = some x →
    readNode b.node (BitVec.ofNat (wSym + 1) i) = .leaf x (readCount m x)
  merged : ∀ i : NodeIdx wSym, syms.length ≤ i.toNat → i.toNat < b.next → b.MergedAt i
  weight_sum : (b.queue.map fun e => e.weight.toNat).sum =
    (syms.map fun x => (readCount m x).toNat).sum

theorem Builder.Grown.nil (m : CountMem wSym wCnt) (node : Arena wSym wCnt) :
    Grown m [] ⟨node, [], 0⟩ where
  forest := .nil node
  size := rfl
  leaves_le := Nat.le_refl 0
  leaf := nofun
  merged _ _ h := absurd h (Nat.not_lt_zero _)
  weight_sum := rfl

/-- R143: the leaf of one more symbol, while there is no merge. -/
theorem Builder.Grown.addLeaf {m : CountMem wSym wCnt} {syms : List (Sym wSym)}
    {b : Builder wSym wCnt} (hb : b.Grown m syms) (hnext : b.next = syms.length)
    (hroom : b.next < 2 * 2 ^ wSym - 1) (x : Sym wSym) :
    (b.add (.leaf x (readCount m x))).Grown m (syms ++ [x]) := by
  change (b.insert b.queue (.leaf x (readCount m x))).Grown m (syms ++ [x])
  have hsize := hb.size
  refine ⟨?_, ?_, ?_, ?_, ?_, ?_⟩
  · exact hb.forest.insert hroom (taken := []) (by simp) fun c => by
      simpa using NodeRec.not_hasChild_leaf x _ c
  · simp
    omega
  · simp [hnext]
  · intro i y hy
    rw [List.getElem?_append] at hy
    split at hy
    · next hi =>
      rw [readNode_insert_of_lt hroom, hb.leaf i y hy]
      rw [BitVec.toNat_ofNat]
      exact (Nat.mod_le _ _).trans_lt (by omega)
    · next hi =>
      obtain ⟨hi', rfl⟩ : i - syms.length = 0 ∧ x = y := by
        simpa using List.getElem?_eq_some_iff.1 hy
      obtain rfl : i = b.next := by omega
      exact readNode_insert_new hroom b.queue _
  · intro i hle hlt
    simp only [List.length_append, List.length_singleton, insert_next] at hle hlt
    omega
  · simp [NodeRec.leaf, hb.weight_sum]

/-- R140, R143: all the leaves, one for each symbol. -/
theorem Builder.Grown.addLeaves {m : CountMem wSym wCnt} {b : Builder wSym wCnt}
    {done : List (Sym wSym)} (hb : b.Grown m done) (hnext : b.next = done.length)
    (syms : List (Sym wSym)) (hroom : b.next + syms.length ≤ 2 * 2 ^ wSym - 1) :
    (b.addLeaves m syms).Grown m (done ++ syms) := by
  induction syms generalizing b done with
  | nil => simpa using hb
  | cons x syms ih =>
    rw [List.length_cons] at hroom
    have hx := hb.addLeaf hnext (by omega) x
    rw [addLeaves_cons, List.append_cons]
    exact ih hx (by simp [hnext]) (by rw [add_next]; omega)

theorem Builder.MergedAt.insert {b : Builder wSym wCnt} (hb : b.Forest)
    (hroom : b.next < 2 * 2 ^ wSym - 1) (rest : List (QEntry wSym wCnt)) (r : NodeRec wSym wCnt)
    {i : NodeIdx wSym} (hi : i.toNat < b.next) (h : b.MergedAt i) :
    (b.insert rest r).MergedAt i := by
  obtain ⟨w, x, y, hrec, hne, hw⟩ := h
  have hchild : ∀ c, c ∈ [x, y] → c.toNat < b.next := fun c hc =>
    hb.lt_of_parent ⟨hi, hrec ▸ (NodeRec.hasChild_internal w x y c).2 hc⟩
  refine ⟨w, x, y, ?_, hne, ?_⟩
  · rw [readNode_insert_of_lt hroom rest r hi, hrec]
  · rw [readNode_insert_of_lt hroom rest r (hchild x (by simp)),
      readNode_insert_of_lt hroom rest r (hchild y (by simp)), hw]

/-- R146: one more merge. Its weight does not wrap, since the queue's weights sum to `TOTAL`
(R147). -/
theorem Builder.Grown.merge {m : CountMem wSym wCnt} {syms : List (Sym wSym)}
    {b : Builder wSym wCnt} (hb : b.Grown m syms) (hqueue : 2 ≤ b.queue.length)
    (hlen : syms.length ≤ 2 ^ wSym)
    (hsum : (syms.map fun x => (readCount m x).toNat).sum < 2 ^ wCnt) : b.merge.Grown m syms := by
  obtain ⟨x, y, rest, hperm, hmerge⟩ := b.merge_eq_insert hqueue
  have hsize := hb.size
  have hroom : b.next < 2 * 2 ^ wSym - 1 := by omega
  have hlength := hperm.length_eq
  have hweights := (hperm.map fun e => e.weight.toNat).sum_eq
  rw [hb.weight_sum] at hweights
  simp only [List.cons_append, List.nil_append, List.length_cons, List.map_cons,
    List.sum_cons] at hlength hweights
  obtain ⟨hx, hxw⟩ := hb.forest.entry x (hperm.mem_iff.2 (by simp))
  obtain ⟨hy, hyw⟩ := hb.forest.entry y (hperm.mem_iff.2 (by simp))
  have hw : (x.weight + y.weight).toNat = x.weight.toNat + y.weight.toNat :=
    BitVec.toNat_add_of_lt (by omega)
  rw [hmerge]
  refine ⟨?_, ?_, ?_, ?_, ?_, ?_⟩
  · exact hb.forest.insert hroom hperm (NodeRec.hasChild_internal _ _ _)
  · simp
    omega
  · exact hb.leaves_le.trans (by simp)
  · intro i z hz
    have hi : i < syms.length := (List.getElem?_eq_some_iff.1 hz).1
    have hle := hb.leaves_le
    rw [readNode_insert_of_lt hroom, hb.leaf i z hz]
    rw [BitVec.toNat_ofNat]
    exact (Nat.mod_le _ _).trans_lt (by omega)
  · intro i hle hlt
    obtain hlt | rfl := (lt_next_insert_iff hroom _ _ i).1 hlt
    · exact (hb.merged i hle hlt).insert hb.forest hroom _ _ hlt
    · refine ⟨_, _, _, readNode_insert_new hroom rest _, ?_, ?_⟩
      · have hnodup : (x.index :: y.index :: rest.map QEntry.index).Nodup :=
          (hperm.map QEntry.index).nodup_iff.1 hb.forest.nodup
        exact fun h => (List.nodup_cons.1 hnodup).1 (by simp [h])
      · rw [readNode_insert_of_lt hroom rest _ hx, readNode_insert_of_lt hroom rest _ hy, hxw, hyw,
          hw]
  · simp [NodeRec.internal, hw]
    omega

theorem Builder.Grown.merges {m : CountMem wSym wCnt} {syms : List (Sym wSym)}
    (hlen : syms.length ≤ 2 ^ wSym)
    (hsum : (syms.map fun x => (readCount m x).toNat).sum < 2 ^ wCnt) (n : Nat)
    {b : Builder wSym wCnt} (hb : b.Grown m syms) (hqueue : n < b.queue.length) :
    (Builder.merges n b).Grown m syms := by
  induction n generalizing b with
  | zero => exact hb
  | succ n ih =>
    have hl := b.merge_queue_length (by omega)
    exact ih (hb.merge (by omega) hlen hsum) (by omega)

/-- R143, R146: what the builder has made at the end of a `BUILD` of two symbols or more. -/
theorem mergedBuilder_grown (m : CountMem wSym wCnt) (node : Arena wSym wCnt)
    {syms : List (Sym wSym)} (h : syms ≠ []) (hlen : syms.length ≤ 2 ^ wSym)
    (hsum : (syms.map fun x => (readCount m x).toNat).sum < 2 ^ wCnt) :
    (mergedBuilder m node syms).Grown m syms := by
  have hpos := List.length_pos_iff.2 h
  refine .merges hlen hsum _ ((Builder.Grown.nil m node).addLeaves rfl syms ?_) ?_
  · simp
    omega
  · simp
    omega

/-! ## The tree of two symbols or more -/

theorem ne_null_of_lt {i j : NodeIdx wSym} (h : i < j) : i ≠ .null := by
  rintro rfl
  exact BitVec.not_allOnes_lt h

theorem Builder.Grown.leaf_of_lt {m : CountMem wSym wCnt} {syms : List (Sym wSym)}
    {b : Builder wSym wCnt} (hb : b.Grown m syms) {i : NodeIdx wSym} (hi : i.toNat < syms.length) :
    readNode b.node i = .leaf syms[i.toNat] (readCount m syms[i.toNat]) := by
  have h := hb.leaf i.toNat _ (List.getElem?_eq_getElem hi)
  rwa [BitVec.ofNat_toNat, BitVec.setWidth_eq] at h

/-- The state's tree is what the builder grew, up to the one entry left in the queue. -/
structure State.For.HasGrown (s : State.For wSym wCnt) (b : Builder wSym wCnt)
    (e : QEntry wSym wCnt) : Prop where
  grown : b.Grown s.count (presentSyms s.count)
  two_le : 2 ≤ (presentSyms s.count).length
  queue : b.queue = [e]
  node : s.node = b.node
  root : s.root = e.index
  nodeCount : s.nodeCount.toNat = b.next

section
variable {s : State.For wSym wCnt} {b : Builder wSym wCnt} {e : QEntry wSym wCnt}
  (h : s.HasGrown b e)
include h

theorem State.For.HasGrown.next_add_one : b.next + 1 = 2 * (presentSyms s.count).length := by
  simpa [h.queue] using h.grown.size

theorem State.For.HasGrown.inTree_iff (i : NodeIdx wSym) : s.InTree i ↔ i.toNat < b.next := by
  rw [State.For.InTree, BitVec.lt_def, h.nodeCount]

theorem State.For.HasGrown.nodeAt (i : NodeIdx wSym) : s.nodeAt i = readNode b.node i := by
  rw [State.For.nodeAt, h.node]

theorem State.For.HasGrown.parent_iff (i c : NodeIdx wSym) :
    b.Parent i c ↔ s.InnerAt i ∧ ((s.nodeAt i).left = c ∨ (s.nodeAt i).right = c) := by
  rw [Builder.Parent, NodeRec.HasChild, State.For.InnerAt, h.inTree_iff, h.nodeAt, and_assoc]

/-- The last node made is no child, so its entry is the one left. -/
theorem State.For.HasGrown.root_add_one : s.root.toNat + 1 = b.next := by
  have hsize := h.next_add_one
  have htwo := h.two_le
  have hlt : b.next - 1 < 2 ^ (wSym + 1) := by
    have := presentSyms_length_le s.count
    rw [Nat.pow_succ]
    omega
  have hlast : (BitVec.ofNat (wSym + 1) (b.next - 1)).toNat = b.next - 1 := by
    rw [BitVec.toNat_ofNat, Nat.mod_eq_of_lt hlt]
  have hqueued : BitVec.ofNat (wSym + 1) (b.next - 1) ∈ b.queued := by
    refine (h.grown.forest.queued_iff _ (by omega)).2 fun i hi => ?_
    have := BitVec.lt_def.1 (h.grown.forest.child_lt _ _ hi)
    have := hi.1
    omega
  have hroot : s.root = BitVec.ofNat (wSym + 1) (b.next - 1) := by
    simpa [Builder.queued, h.queue, h.root, eq_comm] using hqueued
  rw [hroot, hlast]
  omega

theorem State.For.HasGrown.inner_of_le {i : NodeIdx wSym}
    (hi : (presentSyms s.count).length ≤ i.toNat) (ht : s.InTree i) :
    (s.nodeAt i).kind = .internal ∧ (s.nodeAt i).left ≠ (s.nodeAt i).right ∧
      (s.nodeAt i).weight.toNat = (s.nodeAt (s.nodeAt i).left).weight.toNat +
        (s.nodeAt (s.nodeAt i).right).weight.toNat := by
  obtain ⟨w, x, y, hrec, hne, hw⟩ := h.grown.merged i hi ((h.inTree_iff i).1 ht)
  simp only [h.nodeAt, hrec, NodeRec.internal]
  exact ⟨trivial, hne, hw⟩

theorem State.For.HasGrown.leaf_of_lt {i : NodeIdx wSym}
    (hi : i.toNat < (presentSyms s.count).length) :
    s.nodeAt i =
      .leaf (presentSyms s.count)[i.toNat] (s.countAt (presentSyms s.count)[i.toNat]) := by
  rw [h.nodeAt, h.grown.leaf_of_lt hi]
  rfl

theorem State.For.HasGrown.lt_of_leaf {i : NodeIdx wSym} (ht : s.InTree i)
    (hk : (s.nodeAt i).kind = .leaf) : i.toNat < (presentSyms s.count).length := by
  by_contra hi
  rw [(h.inner_of_le (by omega) ht).1] at hk
  exact NodeKind.noConfusion hk

theorem State.For.HasGrown.child_lt {i c : NodeIdx wSym} (hi : s.InnerAt i)
    (hc : (s.nodeAt i).left = c ∨ (s.nodeAt i).right = c) : c < i :=
  h.grown.forest.child_lt i c ((h.parent_iff i c).2 ⟨hi, hc⟩)

theorem State.For.HasGrown.le_of_inner {i : NodeIdx wSym} (hi : s.InnerAt i) :
    (presentSyms s.count).length ≤ i.toNat := by
  by_contra hlt
  have hk := hi.2
  rw [h.leaf_of_lt (by omega)] at hk
  exact NodeKind.noConfusion hk

theorem State.For.HasGrown.childrenOwned : s.ChildrenOwned := by
  refine ⟨fun i hi => ?_, fun c hc hne => ?_, fun i j c hi hj _ hic hjc => ?_⟩
  · refine ⟨h.child_lt hi (.inl rfl), fun _ => ⟨h.child_lt hi (.inr rfl), ?_⟩⟩
    obtain ⟨_, hne, _⟩ := h.inner_of_le (h.le_of_inner hi) hi.1
    exact hne
  · have hqueued : c ∉ b.queued := by
      rw [h.root] at hne
      simpa [Builder.queued, h.queue] using hne
    rw [h.grown.forest.queued_iff c ((h.inTree_iff c).1 hc), not_forall_not] at hqueued
    obtain ⟨i, hi⟩ := hqueued
    exact ⟨i, (h.parent_iff i c).1 hi⟩
  · exact h.grown.forest.unique i j c ((h.parent_iff i c).2 ⟨hi, hic⟩)
      ((h.parent_iff j c).2 ⟨hj, hjc⟩)

theorem State.For.HasGrown.leavesMatch (hcounts : s.CountsOk) : s.LeavesMatch := by
  have hmem : ∀ {i : Nat} (hi : i < (presentSyms s.count).length),
      s.countAt (presentSyms s.count)[i] ≠ 0 := fun hi =>
    (mem_presentSyms s.count _).1 (List.getElem_mem hi)
  refine ⟨?_, fun i ht hk => ?_, fun sym hsym => ?_, fun i j hi hj hki hkj hsym => ?_⟩
  · have hentry := (h.grown.forest.entry e (by simp [h.queue])).2
    have hsum := h.grown.weight_sum
    rw [← countSum_eq_presentSyms, ← hcounts.1, h.queue] at hsum
    rw [h.nodeAt, h.root, hentry]
    exact BitVec.eq_of_toNat_eq (by simpa using hsum)
  · have hi := h.lt_of_leaf ht hk
    rw [h.leaf_of_lt hi]
    exact ⟨rfl, hmem hi⟩
  · obtain ⟨i, hi, rfl⟩ := List.mem_iff_getElem.1 ((mem_presentSyms s.count sym).2 hsym)
    have hlt : i < 2 ^ (wSym + 1) := by
      have := presentSyms_length_le s.count
      rw [Nat.pow_succ]
      omega
    have hto : (BitVec.ofNat (wSym + 1) i).toNat = i := by
      rw [BitVec.toNat_ofNat, Nat.mod_eq_of_lt hlt]
    have hleaf := h.leaf_of_lt (i := BitVec.ofNat (wSym + 1) i) (by omega)
    simp only [hto] at hleaf
    refine ⟨_, ?_, by rw [hleaf]; rfl, by rw [hleaf]; rfl⟩
    have := h.next_add_one
    rw [h.inTree_iff]
    omega
  · have hi' := h.lt_of_leaf hi hki
    have hj' := h.lt_of_leaf hj hkj
    rw [h.leaf_of_lt hi', h.leaf_of_lt hj'] at hsym
    exact BitVec.eq_of_toNat_eq ((presentSyms_nodup s.count).getElem_inj_iff.1 hsym)

theorem State.For.HasGrown.treeSize (hcounts : s.CountsOk) : s.TreeSize := by
  have hnext := h.next_add_one
  have hroot := h.root_add_one
  have htwo := h.two_le
  have hdistinct := hcounts.2
  refine .inr (.inr ⟨by omega, by rw [h.nodeCount]; omega, by omega, fun i ht => ?_⟩)
  by_cases hi : i.toNat < (presentSyms s.count).length
  · exact .inl (by rw [h.leaf_of_lt hi]; rfl)
  · have hk := (h.inner_of_le (by omega) ht).1
    exact .inr ⟨hk, ne_null_of_lt (h.child_lt ⟨ht, hk⟩ (.inl rfl)),
      ne_null_of_lt (h.child_lt ⟨ht, hk⟩ (.inr rfl))⟩

theorem State.For.HasGrown.treeOk (hcounts : s.CountsOk) : s.TreeOk :=
  have hweights : s.WeightsAdd := fun _ hi _ => by
    obtain ⟨_, _, hw⟩ := h.inner_of_le (h.le_of_inner hi) hi.1
    exact hw
  ⟨h.treeSize hcounts, hweights, h.leavesMatch hcounts, h.childrenOwned⟩

end

/-! ## The trees of one symbol and of none -/

theorem State.For.inTree_one_iff {s : State} (h : s.nodeCount = 1) (i : NodeIdx) :
    s.InTree i ↔ i = 0 := by
  rw [State.For.InTree, h, BitVec.lt_def, ← BitVec.toNat_inj]
  simp

theorem State.For.inTree_two_iff {s : State} (h : s.nodeCount = 2) (i : NodeIdx) :
    s.InTree i ↔ i = 0 ∨ i = 1 := by
  rw [State.For.InTree, h, BitVec.lt_def, ← BitVec.toNat_inj, ← BitVec.toNat_inj]
  simp
  omega

/-- R144: no symbol is counted, and the `SENTINEL` is the tree. -/
theorem treeOk_of_sentinel {s : State} (hcounts : s.CountsOk) (hsyms : presentSyms s.count = [])
    (hroot : s.root = 0) (hnodes : s.nodeCount = 1) (h0 : s.nodeAt 0 = .sentinel) : s.TreeOk := by
  obtain ⟨htotal, hdistinct⟩ := hcounts
  have hin := State.For.inTree_one_iff hnodes
  have hinner : ∀ i, ¬ s.InnerAt i := fun i hi => by
    have hk := hi.2
    rw [(hin i).1 hi.1, h0] at hk
    exact NodeKind.noConfusion hk
  have hleaf : ∀ i, s.InTree i → (s.nodeAt i).kind ≠ .leaf := fun i hi hk => by
    rw [(hin i).1 hi, h0] at hk
    exact NodeKind.noConfusion hk
  have hzero : s.total = 0 := BitVec.eq_of_toNat_eq (by
    rw [htotal, countSum_eq_presentSyms, hsyms]; rfl)
  have hnone : s.distinct = 0 := BitVec.eq_of_toNat_eq (by rw [hdistinct, hsyms]; rfl)
  refine ⟨.inl ⟨hnone, hroot, hnodes, h0⟩,
    fun i hi => absurd hi (hinner i), ⟨?_, ?_, ?_, ?_⟩, ?_, ?_, ?_⟩
  · rw [hroot, h0, hzero]; rfl
  · exact fun i hi hk => absurd hk (hleaf i hi)
  · intro sym hsym
    have := (mem_presentSyms s.count sym).2 hsym
    simp [hsyms] at this
  · exact fun i _ hi _ hk => absurd hk (hleaf i hi)
  · exact fun i hi => absurd hi (hinner i)
  · exact fun c hc hne => absurd ((hin c).1 hc |>.trans hroot.symm) hne
  · exact fun i _ _ hi => absurd hi (hinner i)

/-- R145: one symbol is counted, and its leaf hangs below the synthetic root. -/
theorem treeOk_of_single {s : State} (hcounts : s.CountsOk) {sym : Sym}
    (hsyms : presentSyms s.count = [sym]) (hroot : s.root = 1) (hnodes : s.nodeCount = 2)
    (h0 : s.nodeAt 0 = .leaf sym (s.countAt sym))
    (h1 : s.nodeAt 1 = .internal (s.countAt sym) 0 .null) : s.TreeOk := by
  obtain ⟨htotal, hdistinct⟩ := hcounts
  have hin := State.For.inTree_two_iff hnodes
  have hcounted : ∀ x, s.countAt x ≠ 0 ↔ x = sym := fun x => by
    rw [State.For.countAt, ← mem_presentSyms, hsyms, List.mem_singleton]
  have hinner : ∀ i, s.InnerAt i → i = 1 := fun i hi => by
    obtain rfl | rfl := (hin i).1 hi.1
    · have hk := hi.2
      rw [h0] at hk
      exact NodeKind.noConfusion hk
    · rfl
  have hleaf : ∀ i, s.InTree i → (s.nodeAt i).kind = .leaf → i = 0 := fun i hi hk => by
    obtain rfl | rfl := (hin i).1 hi
    · rfl
    · rw [h1] at hk
      exact NodeKind.noConfusion hk
  have hweight : s.countAt sym = s.total := BitVec.eq_of_toNat_eq (by
    rw [htotal, countSum_eq_presentSyms, hsyms]
    simp [State.For.countAt])
  have hinner1 : s.InnerAt 1 := ⟨(hin 1).2 (.inr rfl), by rw [h1]; rfl⟩
  have hone : s.distinct = 1 := BitVec.eq_of_toNat_eq (by rw [hdistinct, hsyms]; rfl)
  refine ⟨.inr (.inl ⟨hone, hroot, hnodes, ?_, ?_⟩),
    ?_, ⟨?_, ?_, ?_, ?_⟩, ?_, ?_, ?_⟩
  · rw [h0]; rfl
  · rw [h1, h0]; rfl
  · intro i hi hright
    rw [hinner i hi, h1] at hright
    exact absurd rfl hright
  · rw [hroot, h1]
    exact hweight
  · intro i hi hk
    rw [hleaf i hi hk, h0]
    exact ⟨rfl, (hcounted sym).2 rfl⟩
  · intro x hx
    exact ⟨0, (hin 0).2 (.inl rfl), by rw [h0]; rfl, by rw [h0]; exact ((hcounted x).1 hx).symm⟩
  · intro i j hi hj hki hkj _
    rw [hleaf i hi hki, hleaf j hj hkj]
  · intro i hi
    rw [hinner i hi, h1]
    exact ⟨(by decide : (0 : NodeIdx) < 1), fun hright => absurd rfl hright⟩
  · intro c hc hne
    obtain rfl | rfl := (hin c).1 hc
    · exact ⟨1, hinner1, .inl (by rw [h1]; rfl)⟩
    · exact absurd hroot.symm hne
  · exact fun i j _ hi hj _ _ _ => (hinner i hi).trans (hinner j hj).symm

/-! ## The nodes of a well-formed tree -/

/-- R38 items 1 to 3, node by node: the empty tree's `SENTINEL`, a leaf, an `INTERNAL` node of two
children, or the synthetic root with an absent right child. -/
inductive State.For.NodeShape (s : State.For wSym wCnt) (i : NodeIdx wSym) : Prop
  | sentinel (hk : (s.nodeAt i).kind = .sentinel)
  | leaf (hk : (s.nodeAt i).kind = .leaf)
  | inner (hk : (s.nodeAt i).kind = .internal) (hleft : (s.nodeAt i).left < i)
      (hright : (s.nodeAt i).right < i)
  | synthetic (hk : (s.nodeAt i).kind = .internal) (hleft : (s.nodeAt i).left < i)
      (hright : (s.nodeAt i).right = .null) (hi : i = s.root) (hd : s.distinct = 1)

theorem State.For.TreeOk.nodeShape {s : State} (h : s.TreeOk) {i : NodeIdx} (hi : s.InTree i) :
    s.NodeShape i := by
  obtain ⟨hsize, _, _, hchild, _, _⟩ := h
  obtain ⟨_, _, hnodes, h0⟩ | ⟨hd, hroot, hnodes, h0, h1⟩ | ⟨_, _, _, hkinds⟩ := hsize
  · rw [(State.For.inTree_one_iff hnodes i).1 hi]
    exact .sentinel (by rw [h0]; rfl)
  · obtain rfl | rfl := (State.For.inTree_two_iff hnodes i).1 hi
    · exact .leaf h0
    · have hk : (s.nodeAt 1).kind = .internal := by rw [h1]; rfl
      exact .synthetic hk (hchild 1 ⟨hi, hk⟩).1 (by rw [h1]; rfl) hroot.symm hd
  · obtain hk | ⟨hk, _, hright⟩ := hkinds i hi
    · exact .leaf hk
    · exact .inner hk (hchild i ⟨hi, hk⟩).1 ((hchild i ⟨hi, hk⟩).2 hright).1

theorem State.For.TreeSize.root_add_one {s : State} (h : s.TreeSize) :
    s.root.toNat + 1 = s.nodeCount.toNat := by
  obtain ⟨_, hroot, hnodes, _⟩ | ⟨_, hroot, hnodes, _⟩ | ⟨_, hnodes, hroot, _⟩ := h
  · simp [hroot, hnodes]
  · simp [hroot, hnodes]
  · omega

theorem State.For.TreeOk.root_inTree {s : State} (h : s.TreeOk) : s.InTree s.root := by
  have := h.1.root_add_one
  rw [State.For.InTree, BitVec.lt_def]
  omega

/-- R27: a child that is present was made before its parent. -/
theorem State.For.TreeOk.child_lt {s : State.For wSym wCnt} (h : s.TreeOk) {i c : NodeIdx wSym}
    (hi : s.InnerAt i) (hc : (s.nodeAt i).left = c ∨ (s.nodeAt i).right = c) (hne : c ≠ .null) :
    c < i := by
  obtain ⟨_, _, _, hchild, _, _⟩ := h
  obtain rfl | rfl := hc
  · exact (hchild i hi).1
  · exact ((hchild i hi).2 hne).1

/-- R38 item 6: every node but the root has a parent. -/
theorem State.For.TreeOk.exists_parent {s : State.For wSym wCnt} (h : s.TreeOk) {c : NodeIdx wSym}
    (hc : s.InTree c) (hne : c ≠ s.root) :
    ∃ i, s.InnerAt i ∧ ((s.nodeAt i).left = c ∨ (s.nodeAt i).right = c) := by
  obtain ⟨_, _, _, _, howned, _⟩ := h
  exact howned c hc hne

/-- The root is no leaf: with two symbols or more the node made before it must be its child. -/
theorem State.For.TreeOk.root_kind {s : State} (h : s.TreeOk) :
    (s.nodeAt s.root).kind = .internal ∨ (s.nodeAt s.root).kind = .sentinel := by
  have hroot := h.root_inTree
  cases h.nodeShape hroot with
  | sentinel hk => exact .inr hk
  | inner hk | synthetic hk => exact .inl hk
  | leaf hk =>
    obtain ⟨_, hr, _, h0⟩ | ⟨_, hr, _, _, h1⟩ | ⟨_, hnodes, hr, _⟩ := h.1
    · rw [hr, h0] at hk
      exact NodeKind.noConfusion hk
    · rw [hr, h1] at hk
      exact NodeKind.noConfusion hk
    · have hpred : (s.root - 1).toNat + 1 = s.root.toNat := by
        rw [BitVec.toNat_sub_of_le (by rw [BitVec.le_def]; simp; omega)]
        simp
        omega
      have hin : s.InTree (s.root - 1) := by
        rw [State.For.InTree, BitVec.lt_def]
        omega
      obtain ⟨i, hi, hc⟩ := h.exists_parent hin fun heq => by
        rw [heq] at hpred
        omega
      have hlt := BitVec.lt_def.1 (h.child_lt hi hc (ne_null_of_lt hin))
      have hle := BitVec.lt_def.1 hi.1
      obtain rfl : i = s.root := BitVec.eq_of_toNat_eq (by omega)
      rw [hi.2] at hk
      exact NodeKind.noConfusion hk

/-! ## `BUILD` -/

/-- R210: the cursor at the root is in place. -/
theorem State.For.TreeOk.cursorOk_of_root {s : State} (h : s.TreeOk) (hc : s.decCursor = s.root) :
    s.CursorOk := by
  rw [State.For.CursorOk, hc]
  exact .inr ⟨h.root_inTree, h.root_kind⟩

section
variable {m : CountMem wSym wCnt} (node : Arena wSym wCnt) (pq : List (QEntry wSym wCnt))

theorem buildTree_of_none (h : presentSyms m = []) :
    buildTree m node pq = ⟨writeNode node 0 .sentinel, 0, 1, pq⟩ := by
  simp [buildTree, h]

theorem buildTree_of_one {x : Sym wSym} (h : presentSyms m = [x]) :
    buildTree m node pq = ⟨writeNode (writeNode node 0 (.leaf x (readCount m x))) 1
      (.internal (readCount m x) 0 .null), 1, 2, pq⟩ := by
  simp [buildTree, h]

theorem buildTree_of_two_le (h : 2 ≤ (presentSyms m).length) :
    buildTree m node pq = buildMerged m node (presentSyms m) := by
  match hsyms : presentSyms m with
  | [] | [x] => simp [hsyms] at h
  | x :: y :: syms => simp [buildTree, hsyms]

end

/-- R146: the tree of two symbols or more is what the builder grew. -/
theorem hasGrown_of_buildTree {s : State.For wSym wCnt} (hcounts : s.CountsOk)
    {node : Arena wSym wCnt} {pq : List (QEntry wSym wCnt)}
    (htwo : 2 ≤ (presentSyms s.count).length)
    (hnode : s.node = (buildTree s.count node pq).node)
    (hroot : s.root = (buildTree s.count node pq).root)
    (hnodes : s.nodeCount = (buildTree s.count node pq).nodeCount) :
    ∃ e, s.HasGrown (mergedBuilder s.count node (presentSyms s.count)) e := by
  have hne : presentSyms s.count ≠ [] := List.ne_nil_of_length_pos (by omega)
  have hmax := presentSyms_length_le s.count
  have hgrown := mergedBuilder_grown s.count node hne hmax (by
    rw [← countSum_eq_presentSyms, ← hcounts.1]
    exact s.total.isLt)
  obtain ⟨e, hqueue, hmerged⟩ := buildMerged_spec s.count node hne
  have hsize := hgrown.size
  rw [hqueue, List.length_singleton] at hsize
  rw [buildTree_of_two_le node pq htwo, hmerged] at hnode hroot hnodes
  refine ⟨e, hgrown, htwo, hqueue, hnode, hroot, ?_⟩
  rw [hnodes, BitVec.toNat_ofNat, Nat.mod_eq_of_lt (by rw [Nat.pow_succ]; omega)]
  omega

/-- R38, R147, R210: the tree that `BUILD` makes of the counts is well-formed, and the decoder at
its root in place. -/
theorem treeOk_and_cursorOk_of_buildTree {s : State} (hcounts : s.CountsOk) {node : Arena}
    {pq : List (QEntry 8 32)} (hnode : s.node = (buildTree s.count node pq).node)
    (hroot : s.root = (buildTree s.count node pq).root)
    (hnodes : s.nodeCount = (buildTree s.count node pq).nodeCount)
    (hcursor : s.decCursor = s.root) :
    s.TreeOk ∧ s.CursorOk := by
  suffices htree : s.TreeOk from ⟨htree, htree.cursorOk_of_root hcursor⟩
  match hsyms : presentSyms s.count with
  | [] =>
    rw [buildTree_of_none node pq hsyms] at hnode hroot hnodes
    refine treeOk_of_sentinel hcounts hsyms hroot hnodes ?_
    rw [State.For.nodeAt, hnode, readNode_writeNode _ _ _ _ (by decide), if_pos rfl]
  | [x] =>
    rw [buildTree_of_one node pq hsyms] at hnode hroot hnodes
    refine treeOk_of_single hcounts hsyms hroot hnodes ?_ ?_
    · rw [State.For.nodeAt, hnode, readNode_writeNode _ _ _ _ (by decide), if_neg (by decide),
        readNode_writeNode _ _ _ _ (by decide), if_pos rfl]
      rfl
    · rw [State.For.nodeAt, hnode, readNode_writeNode _ _ _ _ (by decide), if_pos rfl]
      rfl
  | x :: y :: syms =>
    obtain ⟨e, he⟩ := hasGrown_of_buildTree hcounts (by simp [hsyms]) hnode hroot hnodes
    exact he.treeOk hcounts

/-- R143: with no fault and no tree no check of `BUILD` fails. -/
theorem execBuild_of_ready {s : State.For wSym wCnt} (hf : s.fault = false)
    (ht : s.treeValid = false) :
    execBuild s = .next ((s.writeTree (buildTree s.count s.node s.pq).node
      (buildTree s.count s.node s.pq).root (buildTree s.count s.node s.pq).nodeCount
      (buildTree s.count s.node s.pq).queue).respond .ok
        (zext32 (buildTree s.count s.node s.pq).nodeCount)) := by
  simp [execBuild, runChecked_cons, hf, ht, Instr.wf]

/-- Settles O29: `BUILD` completes, and leaves the tree it made with the decoder at its root. -/
theorem buildMakesWellFormedTree : Obligations.BuildMakesWellFormedTree := fun _ hf ht hcounts =>
  ⟨_, execBuild_of_ready hf ht, treeOk_and_cursorOk_of_buildTree hcounts rfl rfl rfl rfl⟩

end Sys2Proof.Machine
end

section
/-!
PROOFS, spec/45_decoder.md, spec/43_code_table.md and the invariants of spec/10_state.md. On a
well-formed tree every bit step of the decoder and the walk of `GEN_CODES` complete, and with that
every step keeps every invariant of the core.
-/

namespace Sys2Proof.Machine

variable {wSym wCnt : Nat}

/-! ## The decoder on a well-formed tree -/

/-- R241: no node of a well-formed tree is a single-child node but the synthetic root. -/
theorem State.For.TreeOk.structureBroken_eq_false {s : State} (h : s.TreeOk) {i : NodeIdx}
    (hi : s.InTree i) : s.structureBroken i = false := by
  unfold State.For.structureBroken
  cases h.nodeShape hi with
  | sentinel hk | leaf hk => simp [hk]
  | inner hk hleft hright => simp [ne_null_of_lt hleft, ne_null_of_lt hright]
  | synthetic hk hleft hright hroot hd =>
    subst hroot
    simp [hright, hd]

/-- The child of `i` that the bit `b` names (R170, R211). -/
def State.For.childAt (s : State.For wSym wCnt) (i : NodeIdx wSym) (b : Bool) : NodeIdx wSym :=
  if b then (s.nodeAt i).right else (s.nodeAt i).left

/-- A child of an `INTERNAL` node lies below it, but for the synthetic root's absent one. -/
theorem State.For.TreeOk.childAt_cases {s : State} (h : s.TreeOk) {i : NodeIdx} (hi : s.InnerAt i)
    (b : Bool) : (s.childAt i b = .null ∧ s.distinct = 1) ∨ s.childAt i b < i := by
  obtain ⟨hin, hk⟩ := hi
  cases h.nodeShape hin with
  | sentinel hk' | leaf hk' => simp [hk] at hk'
  | inner _ hleft hright => cases b <;> exact .inr ‹_›
  | synthetic _ hleft hright _ hd =>
    cases b with
    | false => exact .inr hleft
    | true => exact .inl ⟨hright, hd⟩

theorem State.For.InTree.of_lt {s : State.For wSym wCnt} {i j : NodeIdx wSym} (hi : s.InTree i)
    (hj : j < i) : s.InTree j := BitVec.lt_trans hj hi

/-- R210, of any cursor: where the decoder's cursor may be between bits. -/
def State.For.CursorAt (s : State.For wSym wCnt) (c : NodeIdx wSym) : Prop :=
  State.For.CursorOk { s with decCursor := c }

@[simp] theorem State.For.cursorAt_decCursor (s : State.For wSym wCnt) :
    s.CursorAt s.decCursor ↔ s.CursorOk := Iff.rfl

theorem State.For.TreeOk.cursorAt_root {s : State} (h : s.TreeOk) : s.CursorAt s.root :=
  .inr ⟨h.root_inTree, h.root_kind⟩

/-- R211: the bit step from an `INTERNAL` node of a well-formed tree emits a leaf child's symbol,
and moves to any other child. -/
theorem State.For.TreeOk.decBit_of_inner {s : State} (h : s.TreeOk) {d : Decoder 8}
    (hd : s.InnerAt d.cursor) (b : Bool) :
    decBit s d b =
      if s.childAt d.cursor b ≠ .null ∧ (s.nodeAt (s.childAt d.cursor b)).kind = .leaf then
        some ⟨s.root, d.out ++ [(s.nodeAt (s.childAt d.cursor b)).sym]⟩
      else some ⟨s.childAt d.cursor b, d.out⟩ := by
  have hskip : ¬ (d.cursor = .null ∨ (s.nodeAt d.cursor).kind = .sentinel) := by
    rw [hd.2]
    exact not_or.2 ⟨ne_null_of_lt hd.1, nofun⟩
  rw [decBit, if_neg hskip, h.structureBroken_eq_false hd.1]
  rfl

/-- R210, R211: on a well-formed tree a bit step completes and leaves the cursor in place. -/
theorem State.For.TreeOk.decBit_completes {s : State} (h : s.TreeOk) {d : Decoder 8}
    (hd : s.CursorAt d.cursor) (b : Bool) :
    ∃ d', decBit s d b = some d' ∧ s.CursorAt d'.cursor := by
  by_cases hskip : d.cursor = .null ∨ (s.nodeAt d.cursor).kind = .sentinel
  · exact ⟨d, if_pos hskip, hd⟩
  obtain ⟨hnull, hsentinel⟩ := not_or.1 hskip
  obtain ⟨h0, _⟩ | ⟨hin, hk⟩ := hd
  · exact absurd h0 hnull
  have hin : s.InTree d.cursor := hin
  have hinner : s.InnerAt d.cursor := ⟨hin, hk.resolve_right hsentinel⟩
  rw [h.decBit_of_inner hinner]
  split
  · exact ⟨_, rfl, h.cursorAt_root⟩
  · next hleaf =>
    refine ⟨_, rfl, ?_⟩
    obtain hc | hc := h.childAt_cases hinner b
    · exact .inl hc
    · have hcin := hin.of_lt hc
      refine .inr ⟨hcin, ?_⟩
      cases h.nodeShape hcin with
      | sentinel hk => exact .inr hk
      | leaf hk => exact absurd ⟨ne_null_of_lt hc, hk⟩ hleaf
      | inner hk | synthetic hk => exact .inl hk

/-- R212: so do the bit steps of a bit sequence. -/
theorem State.For.TreeOk.decRun_completes {s : State} (h : s.TreeOk) {d : Decoder 8}
    (hd : s.CursorAt d.cursor) (bits : Bits) :
    ∃ d', decRun s d bits = some d' ∧ s.CursorAt d'.cursor := by
  induction bits generalizing d with
  | nil => exact ⟨d, rfl, hd⟩
  | cons b bits ih =>
    obtain ⟨d', hd', hc⟩ := h.decBit_completes hd b
    rw [decRun_cons, hd']
    exact ih hc

/-! ## The paths of a well-formed tree (R170) -/

theorem State.For.follow_cons (s : State.For wSym wCnt) (i : NodeIdx wSym) (b : Bool) (bs : Bits) :
    s.follow i (b :: bs) =
      if (s.nodeAt i).kind = .internal ∧ s.childAt i b ≠ .null then s.follow (s.childAt i b) bs
      else none := rfl

theorem State.For.follow_append (s : State.For wSym wCnt) (i : NodeIdx wSym) (p q : Bits) :
    s.follow i (p ++ q) = (s.follow i p).bind fun j => s.follow j q := by
  induction p generalizing i with
  | nil => rfl
  | cons b p ih =>
    rw [List.cons_append, State.For.follow_cons, State.For.follow_cons]
    split
    · exact ih _
    · rfl

/-- A path stays in the tree. -/
theorem State.For.TreeOk.follow_inTree {s : State} (h : s.TreeOk) {i j : NodeIdx}
    (hi : s.InTree i) {q : Bits} (hq : s.follow i q = some j) : s.InTree j := by
  induction q generalizing i with
  | nil => cases hq; exact hi
  | cons b q ih =>
    rw [State.For.follow_cons] at hq
    split at hq
    · next hstep =>
      obtain hc | hc := h.childAt_cases ⟨hi, hstep.1⟩ b
      · exact absurd hc.1 hstep.2
      · exact ih (hi.of_lt hc) hq
    · cases hq

/-- R38 item 6: every node is reached from the root, since a node's parent has a higher index. -/
theorem State.For.TreeOk.reachable {s : State} (h : s.TreeOk) (c : NodeIdx) (hc : s.InTree c) :
    ∃ q, s.follow s.root q = some c := by
  by_cases hroot : c = s.root
  · exact ⟨[], by rw [hroot]; rfl⟩
  obtain ⟨i, hi, hchild⟩ := h.exists_parent hc hroot
  have hlt := h.child_lt hi hchild (ne_null_of_lt hc)
  obtain ⟨q, hq⟩ := h.reachable i hi.1
  obtain ⟨b, hb⟩ : ∃ b, s.childAt i b = c := by
    obtain hleft | hright := hchild
    · exact ⟨false, hleft⟩
    · exact ⟨true, hright⟩
  refine ⟨q ++ [b], ?_⟩
  rw [State.For.follow_append, hq, Option.bind_some, State.For.follow_cons, hb,
    if_pos ⟨hi.2, ne_null_of_lt hc⟩]
  rfl
termination_by s.nodeCount.toNat - c.toNat
decreasing_by
  have := BitVec.lt_def.1 hlt
  have := BitVec.lt_def.1 hi.1
  omega

/-- The path `q` leads from `i` to the leaf of the symbol. -/
def State.For.Leads (s : State.For wSym wCnt) (i : NodeIdx wSym) (q : Bits) (sym : Sym wSym) :
    Prop :=
  ∃ j, s.follow i q = some j ∧ (s.nodeAt j).kind = .leaf ∧ (s.nodeAt j).sym = sym

theorem State.For.leads_nil_iff (s : State.For wSym wCnt) (i : NodeIdx wSym) (sym : Sym wSym) :
    s.Leads i [] sym ↔ (s.nodeAt i).kind = .leaf ∧ (s.nodeAt i).sym = sym := by
  simp [State.For.Leads, State.For.follow]

theorem State.For.not_leads_null (s : State.For wSym wCnt) (q : Bits) (sym : Sym wSym) :
    ¬ s.Leads .null q sym := by
  rintro ⟨j, hq, hk, _⟩
  cases q with
  | nil =>
    cases hq
    rw [State.For.nodeAt, readNode_null] at hk
    exact NodeKind.noConfusion hk
  | cons b q =>
    rw [State.For.follow_cons, if_neg] at hq
    · cases hq
    · rw [State.For.nodeAt, readNode_null]
      exact fun h => NodeKind.noConfusion h.1

theorem State.For.leads_cons_iff (s : State.For wSym wCnt) (i : NodeIdx wSym) (b : Bool) (q : Bits)
    (sym : Sym wSym) :
    s.Leads i (b :: q) sym ↔ (s.nodeAt i).kind = .internal ∧ s.Leads (s.childAt i b) q sym := by
  by_cases hnull : s.childAt i b = .null
  · rw [hnull]
    refine iff_of_false ?_ fun h => s.not_leads_null q sym h.2
    rintro ⟨j, hq, _⟩
    rw [State.For.follow_cons, if_neg (fun h => h.2 hnull)] at hq
    cases hq
  · by_cases hk : (s.nodeAt i).kind = .internal
    · simp [State.For.Leads, State.For.follow_cons, hk, hnull]
    · simp [State.For.Leads, State.For.follow_cons, hk]

/-! ## The walk of `GEN_CODES` (R171) -/

/-- The table `t'` is `t` with the code `p ++ q` of every leaf that a path `q` from `i` leads to. -/
def State.For.WritesCodes (s : State.For wSym wCnt) (i : NodeIdx wSym) (p : Bits)
    (t t' : CodeTable wSym) : Prop :=
  ∀ sym, (∃ q, s.Leads i q sym ∧ readCode t' sym = ⟨true, p ++ q⟩) ∨
    ((∀ q, ¬ s.Leads i q sym) ∧ readCode t' sym = readCode t sym)

theorem State.For.WritesCodes.refl {s : State.For wSym wCnt} {i : NodeIdx wSym} (p : Bits)
    (t : CodeTable wSym) (h : ∀ q sym, ¬ s.Leads i q sym) : s.WritesCodes i p t t :=
  fun sym => .inr ⟨fun q => h q sym, rfl⟩

theorem State.For.writesCodes_leaf {s : State.For wSym wCnt} {i : NodeIdx wSym}
    (hk : (s.nodeAt i).kind = .leaf) (p : Bits) (t : CodeTable wSym) :
    s.WritesCodes i p t (writeCode t (s.nodeAt i).sym ⟨true, p⟩) := by
  intro sym
  by_cases hsym : (s.nodeAt i).sym = sym
  · exact .inl ⟨[], (s.leads_nil_iff i sym).2 ⟨hk, hsym⟩, by simp [hsym]⟩
  · refine .inr ⟨fun q hq => ?_, by simp [hsym]⟩
    cases q with
    | nil => exact hsym ((s.leads_nil_iff i sym).1 hq).2
    | cons b q => simp [s.leads_cons_iff, hk] at hq

theorem State.For.WritesCodes.inner {s : State.For wSym wCnt} {i : NodeIdx wSym} {p : Bits}
    {t t1 t2 : CodeTable wSym} (hk : (s.nodeAt i).kind = .internal)
    (hleft : s.WritesCodes (s.nodeAt i).left (p ++ [false]) t t1)
    (hright : s.WritesCodes (s.nodeAt i).right (p ++ [true]) t1 t2) : s.WritesCodes i p t t2 := by
  intro sym
  obtain ⟨q, hq, hr⟩ | ⟨hnr, hr⟩ := hright sym
  · exact .inl ⟨true :: q, (s.leads_cons_iff i true q sym).2 ⟨hk, hq⟩, by simp [hr]⟩
  rw [hr]
  obtain ⟨q, hq, hl⟩ | ⟨hnl, hl⟩ := hleft sym
  · exact .inl ⟨false :: q, (s.leads_cons_iff i false q sym).2 ⟨hk, hq⟩, by simp [hl]⟩
  refine .inr ⟨fun q hq => ?_, hl⟩
  match q with
  | [] => simp [s.leads_nil_iff, hk] at hq
  | false :: q => exact hnl q ((s.leads_cons_iff i false q sym).1 hq).2
  | true :: q => exact hnr q ((s.leads_cons_iff i true q sym).1 hq).2

/-- On a well-formed tree the walk completes and writes the codes of the leaves below `i`; a node's
index is above its children's, so that the allowance of nodes on a path never runs out. -/
theorem State.For.TreeOk.walk_completes {s : State} (h : s.TreeOk) (fuel : Nat) {i : NodeIdx}
    (hi : i = .null ∨ s.InTree i ∧ i.toNat < fuel) (p : Bits) (t : CodeTable) :
    ∃ t', walk s (fuel + 1) i p t = some t' ∧ s.WritesCodes i p t t' := by
  induction fuel generalizing i p t with
  | zero =>
    obtain rfl | ⟨_, hlt⟩ := hi
    · exact ⟨t, walk_null s 0 p t, .refl p t s.not_leads_null⟩
    · exact absurd hlt (Nat.not_lt_zero _)
  | succ fuel ih =>
    obtain rfl | ⟨hin, hlt⟩ := hi
    · exact ⟨t, walk_null s _ p t, .refl p t s.not_leads_null⟩
    have hwalk : (s.nodeAt i).kind = .internal →
        ∃ t', walk s (fuel + 1 + 1) i p t = some t' ∧ s.WritesCodes i p t t' := by
      intro hk
      have hbelow : ∀ b, s.childAt i b = .null ∨
          s.InTree (s.childAt i b) ∧ (s.childAt i b).toNat < fuel := fun b =>
        (h.childAt_cases ⟨hin, hk⟩ b).imp And.left fun hc =>
          ⟨hin.of_lt hc, by have := BitVec.lt_def.1 hc; omega⟩
      obtain ⟨t1, hw1, h1⟩ := ih (hbelow false) (p ++ [false]) t
      obtain ⟨t2, hw2, h2⟩ := ih (hbelow true) (p ++ [true]) t1
      refine ⟨t2, ?_, .inner hk h1 h2⟩
      rw [walk_internal s _ p t (ne_null_of_lt hin) hk (h.structureBroken_eq_false hin)]
      exact Option.bind_eq_some_iff.2 ⟨t1, hw1, hw2⟩
    cases h.nodeShape hin with
    | sentinel hk =>
      refine ⟨t, walk_sentinel s _ p t hk, .refl p t fun q sym hq => ?_⟩
      cases q with
      | nil => simp [s.leads_nil_iff, hk] at hq
      | cons b q => simp [s.leads_cons_iff, hk] at hq
    | leaf hk => exact ⟨_, walk_leaf s _ p t (ne_null_of_lt hin) hk, s.writesCodes_leaf hk p t⟩
    | inner hk | synthetic hk => exact hwalk hk

/-- R39, R171: on a well-formed tree `GEN_CODES` generates a table. -/
theorem State.For.TreeOk.genTable_completes {s : State} (h : s.TreeOk) :
    ∃ table, genTable s = some table ∧ s.WritesCodes s.root [] emptyTable table := by
  refine h.walk_completes 511 (.inr ⟨h.root_inTree, ?_⟩) [] emptyTable
  have := h.1.root_add_one
  have := s.nodeCount.isLt
  omega

/-! ## The invariants of a tree that stays as it is -/

/-- The two states have the same counts and the same tree. -/
structure State.For.SameTree (s t : State.For wSym wCnt) : Prop where
  count : t.count = s.count
  total : t.total = s.total
  distinct : t.distinct = s.distinct
  node : t.node = s.node
  root : t.root = s.root
  nodeCount : t.nodeCount = s.nodeCount

section
variable {s t : State.For wSym wCnt} (h : s.SameTree t)
include h

theorem State.For.SameTree.treeOk (hs : s.TreeOk) : t.TreeOk := by
  obtain ⟨hcount, htotal, hdistinct, hnode, hroot, hnodes⟩ := h
  cases s
  cases t
  subst hcount htotal hdistinct hnode hroot hnodes
  exact hs

theorem State.For.SameTree.cursorOk (hs : s.CursorAt t.decCursor) : t.CursorOk := by
  obtain ⟨hcount, htotal, hdistinct, hnode, hroot, hnodes⟩ := h
  cases s
  cases t
  subst hcount htotal hdistinct hnode hroot hnodes
  exact hs

theorem State.For.SameTree.follow (i : NodeIdx wSym) (q : Bits) : t.follow i q = s.follow i q := by
  have hnodeAt : ∀ j, t.nodeAt j = s.nodeAt j := fun j => by
    rw [State.For.nodeAt, State.For.nodeAt, h.node]
  have hchildAt : ∀ j b, t.childAt j b = s.childAt j b := fun j b => by
    rw [State.For.childAt, State.For.childAt, hnodeAt]
  induction q generalizing i with
  | nil => rfl
  | cons b q ih => rw [State.For.follow_cons, State.For.follow_cons, hnodeAt, hchildAt, ih]

theorem State.For.SameTree.codesOk (hcode : t.code = s.code) (hs : s.CodesOk) : t.CodesOk := by
  intro sym
  simpa only [State.For.codeAt, State.For.countAt, State.For.nodeAt, State.For.InTree, hcode,
    h.count, h.node, h.root, h.nodeCount, h.follow] using hs sym

end

/-- R39: the table that holds the codes of the root's leaves has exactly the codes of the counted
symbols. -/
theorem State.For.SameTree.codesOk_of_writesCodes {s t : State} (hsame : s.SameTree t)
    (h : s.TreeOk) (hw : s.WritesCodes s.root [] emptyTable t.code) : t.CodesOk := by
  have ⟨_, _, ⟨_, hmatch, hcounted, _⟩, _⟩ := h
  intro sym
  simp only [State.For.codeAt, State.For.countAt, State.For.nodeAt, State.For.InTree, hsame.count,
    hsame.node, hsame.root, hsame.nodeCount, hsame.follow]
  obtain ⟨q, ⟨j, hq, hk, rfl⟩, hr⟩ | ⟨hnone, hr⟩ := hw sym
  · have hj := h.follow_inTree h.root_inTree hq
    rw [hr]
    exact ⟨iff_of_true rfl (hmatch j hj hk).2, nofun, fun _ => ⟨j, hq, hj, hk, rfl⟩⟩
  · have hzero : ¬ readCount s.count sym ≠ 0 := fun hne => by
      obtain ⟨j, hj, hk, hsym⟩ := hcounted sym hne
      obtain ⟨q, hq⟩ := h.reachable j hj
      exact hnone q ⟨j, hq, hk, hsym⟩
    rw [hr, readCode_emptyTable]
    exact ⟨iff_of_false nofun hzero, fun _ => rfl, nofun⟩

/-! ## Every step keeps every invariant -/

/-- An effect that finds a tree and leaves one has written neither the counts nor the tree. -/
theorem Effect.sameTree {i : Instr} {s t : State.For wSym wCnt} (h : Effect i s t)
    (hs : s.treeValid = true) (ht : t.treeValid = true) : s.SameTree t := by
  cases h with
  | cleared => exact absurd ht (by simp)
  | counted s sym htree | built s htree => exact absurd hs (by simp [htree])
  | raised | answered | coded | encoded | flushed | decoded | ended => constructor <;> simp

/-- R38, R210: an effect keeps a well-formed tree with the cursor in place; `BUILD` makes one. -/
theorem Effect.keeps_tree {i : Instr} {s t : State} (h : Effect i s t) (hcounts : s.CountsOk)
    (hs : s.treeValid = true → s.TreeOk ∧ s.CursorOk) (ht : t.treeValid = true) :
    t.TreeOk ∧ t.CursorOk := by
  have hkept : s.treeValid = true → (s.TreeOk → s.CursorOk → s.CursorAt t.decCursor) →
      t.TreeOk ∧ t.CursorOk := fun hv hcursor =>
    have hsame := h.sameTree hv ht
    ⟨hsame.treeOk (hs hv).1, hsame.cursorOk (hcursor (hs hv).1 (hs hv).2)⟩
  cases h with
  | cleared => exact absurd ht (by simp)
  | counted s sym htree => exact absurd ht (by simp [htree])
  | built => exact treeOk_and_cursorOk_of_buildTree hcounts rfl rfl rfl rfl
  | decoded s byte nbits htree hrun =>
    refine hkept htree fun htreeOk hcursor => ?_
    obtain ⟨d, hd, hc⟩ := htreeOk.decRun_completes (d := ⟨s.decCursor, []⟩) hcursor _
    obtain rfl := Option.some.inj (hrun.symm.trans hd)
    exact hc
  | ended s htree => exact hkept htree fun htreeOk _ => htreeOk.cursorAt_root
  | raised | answered | coded | encoded | flushed =>
    exact hkept (by simpa using ht) fun _ hcursor => by simpa using hcursor

/-- R39: an effect keeps the codes of the tree, and `GEN_CODES` makes them. -/
theorem Effect.keeps_codes {i : Instr} {s t : State} (h : Effect i s t)
    (hphase : s.codesValid = true → s.treeValid = true) (htree : s.treeValid = true → s.TreeOk)
    (hs : s.codesValid = true → s.CodesOk) (ht : t.codesValid = true) : t.CodesOk := by
  cases h with
  | cleared => exact absurd ht (by simp)
  | counted s sym hnone | built s hnone =>
    exact absurd (hphase (by simpa using ht)) (by simp [hnone])
  | coded s hv htable =>
    obtain ⟨table, htable', hw⟩ := (htree hv).genTable_completes
    obtain rfl := Option.some.inj (htable.symm.trans htable')
    exact State.For.SameTree.codesOk_of_writesCodes (s := s) ⟨rfl, rfl, rfl, rfl, rfl, rfl⟩
      (htree hv) hw
  | raised | answered | encoded | flushed | decoded | ended =>
    refine State.For.SameTree.codesOk ?_ ?_ (hs (by simpa using ht))
    · constructor <;> simp
    · simp

theorem Effect.keeps_inv {i : Instr} {s t : State} (h : Effect i s t) (hs : s.Inv) : t.Inv := by
  obtain ⟨hcounts, hphase, hencoder, hfault, htree, hcodes⟩ := hs
  exact ⟨h.keeps_countsOk hcounts, h.keeps_phaseOk hphase, h.keeps_encoderOk hencoder,
    h.keeps_faultOk hfault, h.keeps_tree hcounts htree,
    h.keeps_codes hphase.1 (fun hv => (htree hv).1) hcodes⟩

/-- The invariants do not speak of what the host will present. -/
theorem State.For.Inv.takeEvent {s : State} (h : s.Inv) (rest : List HostEvent) :
    (s.takeEvent rest).Inv := by
  obtain ⟨hcounts, hphase, hencoder, hfault, htree, hcodes⟩ := h
  exact ⟨hcounts, hphase, hencoder, hfault, htree, fun hv =>
    State.For.SameTree.codesOk (s := s) ⟨rfl, rfl, rfl, rfl, rfl, rfl⟩ rfl (hcodes hv)⟩

/-- Settles O58: every effect of a command keeps the invariants, and a reset gives the reset
values. -/
theorem stepKeepsInvariant : Obligations.StepKeepsInvariant := fun _ _ =>
  step_keeps (fun _ rest h => h.takeEvent rest) (fun s _ => s.clearCore_atReset.inv)
    fun _ _ _ h => h.keeps_inv

end Sys2Proof.Machine
end

section
/-!
PROOFS, spec/10_state.md rule R41 and spec/42_tree_builder.md rule R150. Two states that differ only
in unspecified contents go on to two states that differ only so, whatever the host presents.
-/

namespace Sys2Proof.Machine

variable {wSym wCnt : Nat}

/-! ## The builder in two arenas (R148) -/

/-- The two builders differ at most in nodes that neither has made. -/
structure Builder.Agrees (b b' : Builder wSym wCnt) : Prop where
  queue : b'.queue = b.queue
  next : b'.next = b.next
  node : ∀ i : NodeIdx wSym, i.toNat < b.next → readNode b'.node i = readNode b.node i

theorem Builder.Agrees.nil (node node' : Arena wSym wCnt) :
    (⟨node, [], 0⟩ : Builder wSym wCnt).Agrees ⟨node', [], 0⟩ :=
  ⟨rfl, rfl, fun _ h => absurd h (Nat.not_lt_zero _)⟩

theorem Builder.Agrees.add {b b' : Builder wSym wCnt} (h : b.Agrees b') (r : NodeRec wSym wCnt) :
    (b.add r).Agrees (b'.add r) := by
  refine ⟨by simp [h.queue, h.next], by simp [h.next], fun i hi => ?_⟩
  rw [add_next] at hi
  have hold : i ≠ BitVec.ofNat (wSym + 1) b.next → readNode b'.node i = readNode b.node i := by
    intro hne
    refine h.node i (Nat.lt_of_le_of_ne (Nat.lt_succ_iff.1 hi) fun heq => hne ?_)
    rw [← heq, BitVec.ofNat_toNat, BitVec.setWidth_eq]
  rw [add_node, add_node, h.next]
  by_cases hnull : BitVec.ofNat (wSym + 1) b.next = NodeIdx.null
  · rw [hnull, writeNode_null, writeNode_null]
    by_cases hi' : i = .null
    · rw [hi', readNode_null, readNode_null]
    · exact hold (hnull ▸ hi')
  · rw [readNode_writeNode _ _ _ _ hnull, readNode_writeNode _ _ _ _ hnull]
    split
    · rfl
    · next hne => exact hold (Ne.symm hne)

theorem Builder.Agrees.withQueue {b b' : Builder wSym wCnt} (h : b.Agrees b')
    (q : List (QEntry wSym wCnt)) :
    ({ b with queue := q } : Builder wSym wCnt).Agrees { b' with queue := q } :=
  ⟨rfl, h.next, h.node⟩

theorem Builder.Agrees.addLeaves {b b' : Builder wSym wCnt} (h : b.Agrees b')
    (m : CountMem wSym wCnt) (syms : List (Sym wSym)) :
    (b.addLeaves m syms).Agrees (b'.addLeaves m syms) := by
  induction syms generalizing b b' with
  | nil => exact h
  | cons x syms ih => exact ih (h.add _)

theorem Builder.Agrees.merge {b b' : Builder wSym wCnt} (h : b.Agrees b') :
    b.merge.Agrees b'.merge := by
  unfold Builder.merge
  rw [h.queue]
  split
  · exact h
  · split
    · exact h
    · exact (h.withQueue _).add _

theorem Builder.Agrees.merges (n : Nat) {b b' : Builder wSym wCnt} (h : b.Agrees b') :
    (Builder.merges n b).Agrees (Builder.merges n b') := by
  induction n generalizing b b' with
  | zero => exact h
  | succ n ih => exact ih h.merge

/-- R148, R150: the tree of a count memory does not depend on what the arena held. -/
structure BuiltTree.Agrees (a b : BuiltTree wSym wCnt) : Prop where
  root : b.root = a.root
  nodeCount : b.nodeCount = a.nodeCount
  queue : b.queue = a.queue
  node : ∀ i, i < a.nodeCount → readNode a.node i = readNode b.node i

theorem buildTree_agrees (m : CountMem wSym wCnt) (node node' : Arena wSym wCnt)
    (pq : List (QEntry wSym wCnt)) : (buildTree m node pq).Agrees (buildTree m node' pq) := by
  have hnil := Builder.Agrees.nil node node'
  match hsyms : presentSyms m with
  | [] =>
    rw [buildTree_of_none node pq hsyms, buildTree_of_none node' pq hsyms]
    refine ⟨rfl, rfl, rfl, fun i hi => ?_⟩
    exact ((hnil.add .sentinel).node i ((BitVec.lt_def.1 hi).trans_le (Nat.mod_le _ _))).symm
  | [x] =>
    rw [buildTree_of_one node pq hsyms, buildTree_of_one node' pq hsyms]
    refine ⟨rfl, rfl, rfl, fun i hi => ?_⟩
    exact (((hnil.add (.leaf x (readCount m x))).add (.internal (readCount m x) 0 .null)).node i
      ((BitVec.lt_def.1 hi).trans_le (Nat.mod_le _ _))).symm
  | x :: y :: syms =>
    have htwo : 2 ≤ (presentSyms m).length := by simp [hsyms]
    have hne : presentSyms m ≠ [] := by simp [hsyms]
    have hmerged : (mergedBuilder m node (presentSyms m)).Agrees
        (mergedBuilder m node' (presentSyms m)) := (hnil.addLeaves m _).merges _
    have hnext : (mergedBuilder m node (presentSyms m)).next = 2 * (presentSyms m).length - 1 := by
      have hleaves := Builder.addLeaves_queue_length ⟨node, [], 0⟩ m (presentSyms m)
      have hmerges := (Builder.merges_spec ((presentSyms m).length - 1)
        (Builder.addLeaves ⟨node, [], 0⟩ m (presentSyms m)) (by rw [hleaves]; omega)).2
      rw [mergedBuilder, hmerges, Builder.addLeaves_next]
      simp only
      omega
    rw [buildTree_of_two_le node pq htwo, buildTree_of_two_le node' pq htwo]
    obtain ⟨e, hq, hb⟩ := buildMerged_spec m node hne
    obtain ⟨e', hq', hb'⟩ := buildMerged_spec m node' hne
    obtain rfl : e' = e := by simpa [hq, hq'] using hmerged.queue
    rw [hb, hb']
    refine ⟨rfl, rfl, rfl, fun i hi => (hmerged.node i ?_).symm⟩
    rw [hnext]
    exact (BitVec.lt_def.1 hi).trans_le (Nat.mod_le _ _)

/-! ## Walks and bit steps in two states -/

/-- The state with other contents in the arena and the code table, and another draw to come. -/
def State.For.withContents (s : State.For wSym wCnt) (node : Arena wSym wCnt)
    (code : CodeTable wSym) (draws : Nat) : State.For wSym wCnt :=
  { s with node := node, code := code, draws := draws }

section
variable {s t : State.For wSym wCnt} (h : s.SameVisible t)
include h

theorem State.For.SameVisible.exists_eq : ∃ node code draws, t = s.withContents node code draws :=
  ⟨_, _, _, h.1⟩

theorem State.For.SameVisible.root_eq : t.root = s.root := by
  obtain ⟨_, _, _, rfl⟩ := h.exists_eq
  rfl

theorem State.For.SameVisible.inTree_iff (i : NodeIdx wSym) : t.InTree i ↔ s.InTree i := by
  obtain ⟨_, _, _, rfl⟩ := h.exists_eq
  rfl

theorem State.For.SameVisible.codeAt_eq (hv : s.codesValid = true) (sym : Sym wSym) :
    t.codeAt sym = s.codeAt sym := by
  obtain ⟨_, _, hcode⟩ := h
  rw [State.For.codeAt, State.For.codeAt, hcode hv]

end

section
variable {s t : State} (hst : s.SameVisible t) (hv : s.treeValid = true)
include hst hv

theorem State.For.SameVisible.nodeAt_eq {i : NodeIdx} (hi : s.InTree i) :
    t.nodeAt i = s.nodeAt i := by
  obtain ⟨_, hnode, _⟩ := hst
  exact (hnode hv i hi).symm

theorem State.For.SameVisible.childAt_eq {i : NodeIdx} (hi : s.InTree i) (b : Bool) :
    t.childAt i b = s.childAt i b := by
  rw [State.For.childAt, State.For.childAt, hst.nodeAt_eq hv hi]

theorem State.For.SameVisible.innerAt {i : NodeIdx} (hi : s.InnerAt i) : t.InnerAt i :=
  ⟨(hst.inTree_iff i).2 hi.1, (hst.nodeAt_eq hv hi.1).symm ▸ hi.2⟩

variable (hs : s.TreeOk) (ht : t.TreeOk)
include hs ht

/-- The walk of `GEN_CODES` reads nodes of the tree only. -/
theorem State.For.SameVisible.walk_eq (fuel : Nat) {i : NodeIdx} (hi : i = .null ∨ s.InTree i)
    (p : Bits) (table : CodeTable) : walk t fuel i p table = walk s fuel i p table := by
  induction fuel generalizing i p table with
  | zero => rfl
  | succ fuel ih =>
    obtain rfl | hi := hi
    · rw [walk_null, walk_null]
    have hnode := hst.nodeAt_eq hv hi
    have hne := ne_null_of_lt hi
    have hinner : (s.nodeAt i).kind = .internal →
        walk t (fuel + 1) i p table = walk s (fuel + 1) i p table := by
      intro hk
      have hbelow : ∀ b, s.childAt i b = .null ∨ s.InTree (s.childAt i b) := fun b =>
        (hs.childAt_cases ⟨hi, hk⟩ b).imp And.left hi.of_lt
      have hleft : ∀ p table, walk t fuel (s.nodeAt i).left p table =
          walk s fuel (s.nodeAt i).left p table := ih (hbelow false)
      have hright : ∀ p table, walk t fuel (s.nodeAt i).right p table =
          walk s fuel (s.nodeAt i).right p table := ih (hbelow true)
      rw [walk_internal s _ p table hne hk (hs.structureBroken_eq_false hi),
        walk_internal t _ p table hne (hnode ▸ hk)
          (ht.structureBroken_eq_false ((hst.inTree_iff i).2 hi)), hnode, hleft]
      simp only [hright]
    cases hs.nodeShape hi with
    | sentinel hk => rw [walk_sentinel s _ p table hk, walk_sentinel t _ p table (hnode ▸ hk)]
    | leaf hk => rw [walk_leaf s _ p table hne hk, walk_leaf t _ p table hne (hnode ▸ hk), hnode]
    | inner hk | synthetic hk => exact hinner hk

theorem State.For.SameVisible.genTable_eq : genTable t = genTable s := by
  rw [genTable, hst.root_eq]
  exact hst.walk_eq hv hs ht _ (.inr hs.root_inTree) _ _

/-- The decoder reads nodes of the tree only. -/
theorem State.For.SameVisible.decBit_eq {d : Decoder 8} (hd : s.CursorAt d.cursor) (b : Bool) :
    decBit t d b = decBit s d b := by
  obtain ⟨hnull, _⟩ | ⟨hin, hk⟩ := hd
  · rw [decBit, decBit, if_pos (.inl hnull), if_pos (.inl hnull)]
  have hin : s.InTree d.cursor := hin
  have hnode := hst.nodeAt_eq hv hin
  obtain hk | hk : (s.nodeAt d.cursor).kind = .internal ∨ (s.nodeAt d.cursor).kind = .sentinel := hk
  · rw [hs.decBit_of_inner ⟨hin, hk⟩, ht.decBit_of_inner (hst.innerAt hv ⟨hin, hk⟩),
      hst.childAt_eq hv hin, hst.root_eq]
    obtain ⟨hnull, _⟩ | hlt := hs.childAt_cases ⟨hin, hk⟩ b
    · simp [hnull]
    · rw [hst.nodeAt_eq hv (hin.of_lt hlt)]
  · rw [decBit, decBit, if_pos (.inr (by rw [hnode, hk])), if_pos (.inr hk)]

theorem State.For.SameVisible.decRun_eq {d : Decoder 8} (hd : s.CursorAt d.cursor) (bits : Bits) :
    decRun t d bits = decRun s d bits := by
  induction bits generalizing d with
  | nil => rfl
  | cons b bits ih =>
    obtain ⟨d', hd', hc⟩ := hs.decBit_completes hd b
    rw [decRun_cons, decRun_cons, hst.decBit_eq hv hs ht hd, hd']
    exact ih hc

end

/-! ## Two commands side by side -/

/-- Both outcomes are next states, and they differ only in unspecified contents. -/
def SameNext (o o' : Outcome wSym wCnt) : Prop :=
  ∃ s t, o = .next s ∧ o' = .next t ∧ s.SameVisible t

section
variable {s t : State.For wSym wCnt} (h : s.SameVisible t)
include h

theorem State.For.SameVisible.respond (e : Err) (data : Word) :
    (s.respond e data).SameVisible (t.respond e data) := by
  obtain ⟨ht, hnode, hcode⟩ := h
  exact ⟨congrArg (·.respond e data) ht, hnode, hcode⟩

theorem State.For.SameVisible.raise (e : Err) : (s.raise e).SameVisible (t.raise e) := by
  refine State.For.SameVisible.respond ?_ e 0
  obtain ⟨node, code, draws, rfl⟩ := h.exists_eq
  obtain ⟨_, hnode, hcode⟩ := h
  unfold State.For.latch
  rw [show (s.withContents node code draws).fault = s.fault from rfl]
  split
  · exact ⟨rfl, hnode, hcode⟩
  · exact ⟨rfl, hnode, hcode⟩

/-- R245: the checks of both commands fail alike, and past them the commands run alike. -/
theorem State.For.SameVisible.runChecked {cs cs' : List (Bool × Err)} {run run' : Outcome wSym wCnt}
    (hcs : firstError cs' = firstError cs) (hrun : firstError cs = none → SameNext run run') :
    SameNext (runChecked s cs run) (runChecked t cs' run') := by
  rw [Machine.runChecked, Machine.runChecked, hcs]
  cases hfirst : firstError cs with
  | none => exact hrun hfirst
  | some e => exact ⟨_, _, rfl, rfl, h.raise e⟩

/-- A command that passes its checks and only answers. -/
theorem State.For.SameVisible.sameNext_respond (e : Err) (data : Word) :
    SameNext (.next (s.respond e data)) (.next (t.respond e data)) :=
  ⟨_, _, rfl, rfl, h.respond e data⟩

end

theorem check_passed {cs : List (Bool × Err)} (h : firstError cs = none) {failed : Bool} {e : Err}
    (hmem : (failed, e) ∈ cs) : failed = false :=
  (firstError_eq_none_iff cs).1 h _ hmem

theorem State.For.SameVisible.writeTree {s t : State.For wSym wCnt} (h : s.SameVisible t)
    (hcodes : s.codesValid = false) {b b' : BuiltTree wSym wCnt} (hb : b.Agrees b') :
    (s.writeTree b.node b.root b.nodeCount b.queue).SameVisible
      (t.writeTree b'.node b'.root b'.nodeCount b'.queue) := by
  obtain ⟨node, code, draws, rfl⟩ := h.exists_eq
  rw [hb.root, hb.nodeCount, hb.queue]
  exact ⟨rfl, fun _ => hb.node, fun hv => absurd hv (by simp [hcodes])⟩

section
variable {s t : State} (hst : s.SameVisible t)
include hst

theorem execBuild_sameNext (hs : s.Inv) : SameNext (execBuild s) (execBuild t) := by
  obtain ⟨_, ⟨hphase, _⟩, _⟩ := hs
  obtain ⟨node, code, draws, rfl⟩ := hst.exists_eq
  refine hst.runChecked rfl fun hok => ?_
  have htree : s.treeValid = false := check_passed hok (e := .sequence) (by simp)
  have hcodes : s.codesValid = false := Bool.eq_false_iff.2 fun hv => by
    simp [hphase hv] at htree
  have hagree := buildTree_agrees s.count s.node node s.pq
  refine ⟨_, _, rfl, ?_, (hst.writeTree hcodes hagree).respond .ok _⟩
  rw [← hagree.nodeCount]
  rfl

theorem execNodeRead_sameNext (idx : BitVec 16) (nsel : BitVec 2) :
    SameNext (execNodeRead idx nsel s) (execNodeRead idx nsel t) := by
  have hvisible : s.treeValid = true →
      t.visibleNode (fieldIdx idx) = s.visibleNode (fieldIdx idx) := fun hv => by
    unfold State.For.visibleNode
    split
    · next hi =>
      have hi' := (hst.inTree_iff _).1 hi
      rw [if_pos hi', hst.nodeAt_eq hv hi']
    · next hi => rw [if_neg fun hi' => hi ((hst.inTree_iff _).2 hi')]
  obtain ⟨node, code, draws, rfl⟩ := hst.exists_eq
  refine hst.runChecked rfl fun hok => ?_
  have hv := check_passed hok (failed := !s.treeValid) (e := .sequence) (by simp)
  rw [hvisible (by simpa using hv)]
  exact hst.sameNext_respond _ _

theorem execGenCodes_sameNext (hs : s.Inv) (ht : t.Inv) :
    SameNext (execGenCodes s) (execGenCodes t) := by
  obtain ⟨_, _, _, _, htree, _⟩ := hs
  obtain ⟨_, _, _, _, htree', _⟩ := ht
  obtain ⟨node, code, draws, rfl⟩ := hst.exists_eq
  refine hst.runChecked rfl fun hok => ?_
  have hv : s.treeValid = true := by
    simpa using check_passed hok (failed := !s.treeValid) (e := .sequence) (by simp)
  obtain ⟨table, htable, _⟩ := (htree hv).1.genTable_completes
  rw [hst.genTable_eq hv (htree hv).1 (htree' hv).1, htable]
  exact ⟨_, _, rfl, rfl, rfl, hst.2.1, fun _ => rfl⟩

theorem execDecByte_sameNext (hs : s.Inv) (ht : t.Inv) (byte : Byte) (nbits : BitVec 4) :
    SameNext (execDecByte byte nbits s) (execDecByte byte nbits t) := by
  obtain ⟨_, _, _, _, htree, _⟩ := hs
  obtain ⟨_, _, _, _, htree', _⟩ := ht
  obtain ⟨node, code, draws, rfl⟩ := hst.exists_eq
  refine hst.runChecked rfl fun hok => ?_
  have hv : s.treeValid = true := by
    simpa using check_passed hok (failed := !s.treeValid) (e := .sequence) (by simp)
  obtain ⟨htreeOk, hcursor⟩ := htree hv
  obtain ⟨d, hd, _⟩ := htreeOk.decRun_completes (d := ⟨s.decCursor, []⟩) hcursor
    (firstBits byte nbits.toNat)
  have hd' : decRun (s.withContents node code draws)
      ⟨(s.withContents node code draws).decCursor, []⟩ (firstBits byte nbits.toNat) = some d :=
    (hst.decRun_eq hv htreeOk (htree' hv).1 (d := ⟨s.decCursor, []⟩) hcursor _).trans hd
  rw [hd, hd']
  exact ⟨_, _, rfl, rfl, rfl, hst.2⟩

theorem execCodeLen_sameNext (sym : BitVec 16) :
    SameNext (execCodeLen sym s) (execCodeLen sym t) := by
  have hcode := hst.codeAt_eq
  obtain ⟨node, code, draws, rfl⟩ := hst.exists_eq
  refine hst.runChecked rfl fun hok => ?_
  have hv := check_passed hok (failed := !s.codesValid) (e := .sequence) (by simp)
  rw [hcode (by simpa using hv)]
  exact hst.sameNext_respond _ _

theorem execCodeBits_sameNext (sym : BitVec 16) (word : BitVec 8) :
    SameNext (execCodeBits sym word s) (execCodeBits sym word t) := by
  have hcode := hst.codeAt_eq
  obtain ⟨node, code, draws, rfl⟩ := hst.exists_eq
  refine hst.runChecked rfl fun hok => ?_
  have hv := check_passed hok (failed := !s.codesValid) (e := .sequence) (by simp)
  rw [hcode (by simpa using hv)]
  exact hst.sameNext_respond _ _

/-- `ENC_SYM` reads the code table only when there is one: without one the sequence check fails
before the check of the symbol's record (R245). -/
theorem execEncSym_sameNext (sym : BitVec 16) :
    SameNext (execEncSym sym s) (execEncSym sym t) := by
  have hcode := hst.codeAt_eq
  obtain ⟨node, code, draws, rfl⟩ := hst.exists_eq
  cases hv : s.codesValid with
  | false =>
    have hv' : (s.withContents node code draws).codesValid = false := hv
    refine hst.runChecked ?_ fun hok => ?_
    · simp [hv, hv']
      rfl
    · exact absurd (check_passed hok (failed := !s.codesValid) (e := .sequence) (by simp))
        (by simp [hv])
  | true =>
    have hcode' := hcode hv (fieldSym sym)
    unfold execEncSym
    simp only [hcode']
    exact hst.runChecked rfl fun _ => ⟨_, _, rfl, rfl, rfl, hst.2⟩

end

/-- R245: a word that is no command is turned away alike. -/
theorem State.For.SameVisible.rejectWord {s t : State.For wSym wCnt} (h : s.SameVisible t)
    (w : Word) (verdict : Err) : (s.rejectWord w verdict).SameVisible (t.rejectWord w verdict) := by
  have hf : t.fault = s.fault := by
    obtain ⟨_, _, _, rfl⟩ := h.exists_eq
    rfl
  unfold State.For.rejectWord
  rw [hf]
  split
  · exact h.raise .faulted
  · exact h.raise verdict

/-- Reset values, whatever the draws of unspecified contents (R40, R41). -/
theorem State.For.SameVisible.clearCore {s t : State.For wSym wCnt} (h : s.SameVisible t) :
    s.clearCore.SameVisible t.clearCore := by
  obtain ⟨_, _, _, rfl⟩ := h.exists_eq
  exact ⟨rfl, nofun, nofun⟩

theorem State.For.SameVisible.takeEvent {s t : State.For wSym wCnt} (h : s.SameVisible t)
    (rest : List HostEvent) : (s.takeEvent rest).SameVisible (t.takeEvent rest) := by
  obtain ⟨_, _, _, rfl⟩ := h.exists_eq
  exact ⟨rfl, h.2⟩

/-- Every command does the same in both states. -/
theorem exec_sameNext {s t : State} (hs : s.Inv) (ht : t.Inv) (hst : s.SameVisible t) (i : Instr) :
    SameNext (exec i s) (exec i t) := by
  cases i with
  | build => exact execBuild_sameNext hst hs
  | nodeRead idx nsel => exact execNodeRead_sameNext hst idx nsel
  | genCodes => exact execGenCodes_sameNext hst hs ht
  | codeLen sym => exact execCodeLen_sameNext hst sym
  | codeBits sym word => exact execCodeBits_sameNext hst sym word
  | encSym sym => exact execEncSym_sameNext hst sym
  | decByte byte nbits => exact execDecByte_sameNext hst hs ht byte nbits
  | clear => exact ⟨_, _, rfl, rfl, hst.clearCore.respond .ok 0⟩
  | nop =>
    obtain ⟨node, code, draws, rfl⟩ := hst.exists_eq
    exact hst.sameNext_respond .ok s.status
  | regRead | countRead =>
    obtain ⟨node, code, draws, rfl⟩ := hst.exists_eq
    exact hst.runChecked rfl fun _ => hst.sameNext_respond _ _
  | accum | encFlush | decEnd =>
    obtain ⟨node, code, draws, rfl⟩ := hst.exists_eq
    exact hst.runChecked rfl fun _ => ⟨_, _, rfl, rfl, rfl, hst.2⟩

/-- Settles O60: both states take the same event, and do the same with it. -/
theorem unspecifiedContentsUnobservable : Obligations.UnspecifiedContentsUnobservable := by
  intro s t hs ht hst
  have hport : t.port = s.port := by
    obtain ⟨_, _, _, rfl⟩ := hst.exists_eq
    rfl
  change SameNext (step s) (step t)
  rw [step, step, hport]
  match s.port with
  | [] => exact ⟨s, t, rfl, rfl, hst⟩
  | .reset :: rest => exact ⟨_, _, rfl, rfl, (hst.takeEvent rest).clearCore⟩
  | .command w :: rest =>
    rw [runEvents, runEvents, runWord, runWord]
    split
    · exact exec_sameNext (hs.takeEvent rest) (ht.takeEvent rest) (hst.takeEvent rest) _
    · exact ⟨_, _, rfl, rfl, (hst.takeEvent rest).rejectWord w _⟩
    · exact ⟨_, _, rfl, rfl, (hst.takeEvent rest).rejectWord w _⟩

end Sys2Proof.Machine
end

section
/-!
PROOFS, spec/20_memory.md rule R59. A readout is a checked command that only answers, and neither its
checks nor its answer read the responses given before.
-/

namespace Sys2Proof.Machine

/-- A command whose checks `cs` and answer `data` are the same in `s` and after its own response
raises an error, or answers the same again. -/
theorem raises_or_repeats_of_runChecked {i : Instr} {s : State} {cs : List (Bool × Err)} {data : Word}
    (hfirst : exec i s = runChecked s cs (.next (s.respond .ok data)))
    (hagain : exec i (s.respond .ok data) =
      runChecked (s.respond .ok data) cs (.next ((s.respond .ok data).respond .ok data)))
    (hcs : ∀ c ∈ cs, c.2 ≠ .ok) :
    (∃ e, e ≠ .ok ∧ exec i s = .next (s.raise e)) ∨
    ∃ d t, exec i s = .next t ∧ t = s.respond .ok d ∧ exec i t = .next (t.respond .ok d) := by
  rw [runChecked] at hfirst hagain
  cases hfail : firstError cs with
  | some e =>
    rw [hfail] at hfirst
    exact .inl ⟨e, hcs _ (firstError_mem hfail), hfirst⟩
  | none =>
    rw [hfail] at hfirst hagain
    exact .inr ⟨data, _, hfirst, rfl, hagain⟩

/-- Settles O51: `NOP` always answers, and the checks and the answer of each other readout are the
same after its own response. -/
theorem readoutsHaveNoEffect : Obligations.ReadoutsHaveNoEffect := by
  intro i s hi
  obtain rfl | ⟨sel, rfl⟩ | ⟨sym, rfl⟩ | ⟨idx, nsel, rfl⟩ | ⟨sym, rfl⟩ | ⟨sym, word, rfl⟩ := hi
  · exact .inr ⟨s.status, _, execNop_eq s, rfl, execNop_eq _⟩
  all_goals exact raises_or_repeats_of_runChecked rfl rfl (by simp)

end Sys2Proof.Machine
end

section
/-!
PROOFS, spec/30_encoding.md. A word is its opcode above its operand area, and each format is legal
exactly on the operand areas that its fields make with the reserved bits 0. So a word decodes to a
command exactly when it is the encoding of that command and the command is well-formed.
-/

namespace Sys2Proof

/-! ## The bits of a word (R71) -/

/-- A range of bits is a concatenation when its two parts are the parts of the concatenation. -/
theorem extractLsb'_eq_append_iff {k m n : Nat} (w : BitVec k) (start : Nat) (x : BitVec m)
    (y : BitVec n) : w.extractLsb' start (m + n) = x ++ y ↔
      w.extractLsb' (start + n) m = x ∧ w.extractLsb' start n = y := by
  rw [← BitVec.extractLsb'_append_extractLsb'_eq_extractLsb' rfl]
  constructor
  · intro h
    have hlow : w.extractLsb' start n = y := by
      ext j hj
      simpa [BitVec.getElem_append, hj] using congrArg (·[j]) h
    subst hlow
    exact ⟨(BitVec.append_left_inj _).1 h, rfl⟩
  · rintro ⟨rfl, rfl⟩
    rfl

/-- R71: the word of a command has its opcode and its operand area. -/
theorem encode_eq_iff (i : Instr) (w : Word) :
    encode i = w ↔ opcode w = opcodeOf i ∧ w.extractLsb' 0 24 = operandArea i := by
  have h := extractLsb'_eq_append_iff w 0 (opcodeOf i) (operandArea i)
  rwa [show w.extractLsb' 0 (8 + 24) = w from BitVec.extractLsb'_eq_self, eq_comm] at h

/-! ## The formats (R72 to R77): the command and the operand area of a legal word -/

theorem ite_eq_command_iff {p : Prop} [Decidable p] {i j : Instr} :
    (if p then Decoded.command i else .illegalOperand) = .command j ↔ j = i ∧ p := by
  split <;> simp [*, eq_comm]

section
variable {wSym : Nat} {w : Word} {i : Instr}

theorem formatN_eq_command_iff {j : Instr} :
    formatN j w = .command i ↔ i = j ∧ w.extractLsb' 0 24 = 0 := by
  rw [formatN, ite_eq_command_iff]

theorem formatS_eq_command_iff {mk : BitVec 16 → Instr} :
    formatS wSym mk w = .command i ↔
      ∃ sym, i = mk sym ∧ w.extractLsb' 0 24 = (0 : BitVec 8) ++ sym ∧
        sym.toNat < Config.kMax wSym := by
  have harea (sym : BitVec 16) : w.extractLsb' 0 24 = (0 : BitVec 8) ++ sym ↔
      w.extractLsb' 16 8 = 0 ∧ w.extractLsb' 0 16 = sym := extractLsb'_eq_append_iff w 0 0 sym
  simp only [formatS, ite_eq_command_iff, harea, existsAndEq, true_and, and_assoc]

theorem formatR_eq_command_iff {mk : BitVec 4 → Instr} :
    formatR mk w = .command i ↔
      ∃ sel, i = mk sel ∧ w.extractLsb' 0 24 = (0 : BitVec 20) ++ sel ∧ sel ≤ 8 := by
  have harea (sel : BitVec 4) : w.extractLsb' 0 24 = (0 : BitVec 20) ++ sel ↔
      w.extractLsb' 4 20 = 0 ∧ w.extractLsb' 0 4 = sel := extractLsb'_eq_append_iff w 0 0 sel
  simp only [formatR, ite_eq_command_iff, harea, existsAndEq, true_and, and_assoc]

theorem formatSW_eq_command_iff {mk : BitVec 16 → BitVec 8 → Instr} :
    formatSW wSym mk w = .command i ↔
      ∃ sym word, i = mk sym word ∧ w.extractLsb' 0 24 = word ++ sym ∧
        sym.toNat < Config.kMax wSym ∧ word.toNat < Config.codeWords wSym := by
  have harea (sym : BitVec 16) (word : BitVec 8) : w.extractLsb' 0 24 = word ++ sym ↔
      w.extractLsb' 16 8 = word ∧ w.extractLsb' 0 16 = sym :=
    extractLsb'_eq_append_iff w 0 word sym
  simp only [formatSW, ite_eq_command_iff, harea, existsAndEq, true_and, and_assoc]

theorem formatNI_eq_command_iff {mk : BitVec 16 → BitVec 2 → Instr} :
    formatNI wSym mk w = .command i ↔
      ∃ idx nsel, i = mk idx nsel ∧ w.extractLsb' 0 24 = (0 : BitVec 6) ++ nsel ++ idx ∧
        nsel ≤ 2 ∧ idx.toNat < Config.nNodes wSym := by
  have harea (idx : BitVec 16) (nsel : BitVec 2) :
      w.extractLsb' 0 24 = (0 : BitVec 6) ++ nsel ++ idx ↔
        (w.extractLsb' 18 6 = 0 ∧ w.extractLsb' 16 2 = nsel) ∧ w.extractLsb' 0 16 = idx :=
    (extractLsb'_eq_append_iff w 0 (0 ++ nsel) idx).trans
      (and_congr_left' (extractLsb'_eq_append_iff w 16 0 nsel))
  simp only [formatNI, ite_eq_command_iff, harea, existsAndEq, true_and, and_assoc]

theorem formatB_eq_command_iff {mk : Byte → BitVec 4 → Instr} :
    formatB mk w = .command i ↔
      ∃ byte nbits, i = mk byte nbits ∧ w.extractLsb' 0 24 = (0 : BitVec 12) ++ nbits ++ byte ∧
        1 ≤ nbits ∧ nbits ≤ 8 := by
  have harea (byte : Byte) (nbits : BitVec 4) :
      w.extractLsb' 0 24 = (0 : BitVec 12) ++ nbits ++ byte ↔
        (w.extractLsb' 12 12 = 0 ∧ w.extractLsb' 8 4 = nbits) ∧ w.extractLsb' 0 8 = byte :=
    (extractLsb'_eq_append_iff w 0 (0 ++ nbits) byte).trans
      (and_congr_left' (extractLsb'_eq_append_iff w 8 0 nbits))
  simp only [formatB, ite_eq_command_iff, harea, existsAndEq, true_and, and_assoc]

end

/-! ## The decoder -/

/-- What `decode` does with the words that have a command's opcode (R79, `decode_of_opcode`). -/
def formatOf (wSym : Nat) : Instr → Word → Decoded
  | .nop => formatN .nop
  | .clear => formatN .clear
  | .regRead _ => formatR .regRead
  | .accum _ => formatS wSym .accum
  | .countRead _ => formatS wSym .countRead
  | .build => formatN .build
  | .nodeRead _ _ => formatNI wSym .nodeRead
  | .genCodes => formatN .genCodes
  | .codeLen _ => formatS wSym .codeLen
  | .codeBits _ _ => formatSW wSym .codeBits
  | .encSym _ => formatS wSym .encSym
  | .encFlush => formatN .encFlush
  | .decByte _ _ => formatB .decByte
  | .decEnd => formatN .decEnd

section
variable {wSym : Nat} {w : Word}

theorem decode_of_opcode (i : Instr) (h : opcode w = opcodeOf i) :
    decode wSym w = formatOf wSym i w := by
  rw [decode, h]
  cases i <;> rfl

/-- R71: a word that decodes to a command has the command's opcode. -/
theorem opcode_of_decode_eq_command {i : Instr} (h : decode wSym w = .command i) :
    opcode w = opcodeOf i := by
  rw [decode] at h
  split at h
  case h_1 hop | h_2 hop | h_6 hop | h_8 hop | h_12 hop | h_14 hop =>
    obtain ⟨rfl, -⟩ := formatN_eq_command_iff.1 h
    exact BitVec.eq_of_toNat_eq hop
  case h_4 hop | h_5 hop | h_9 hop | h_11 hop =>
    obtain ⟨sym, rfl, -⟩ := formatS_eq_command_iff.1 h
    exact BitVec.eq_of_toNat_eq hop
  case h_3 hop =>
    obtain ⟨sel, rfl, -⟩ := formatR_eq_command_iff.1 h
    exact BitVec.eq_of_toNat_eq hop
  case h_7 hop =>
    obtain ⟨idx, nsel, rfl, -⟩ := formatNI_eq_command_iff.1 h
    exact BitVec.eq_of_toNat_eq hop
  case h_10 hop =>
    obtain ⟨sym, word, rfl, -⟩ := formatSW_eq_command_iff.1 h
    exact BitVec.eq_of_toNat_eq hop
  case h_13 hop =>
    obtain ⟨byte, nbits, rfl, -⟩ := formatB_eq_command_iff.1 h
    exact BitVec.eq_of_toNat_eq hop
  case h_15 => exact nomatch h

/-- R72 to R77: the operand area and the operand ranges of the words that decode to a command. -/
theorem formatOf_eq_command_iff (i : Instr) :
    formatOf wSym i w = .command i ↔
      w.extractLsb' 0 24 = operandArea i ∧ i.wf wSym = true := by
  cases i with
  | nop | clear | build | genCodes | encFlush | decEnd =>
    simp [formatOf, formatN_eq_command_iff, operandArea, Instr.wf]
  | accum | countRead | codeLen | encSym =>
    simp [formatOf, formatS_eq_command_iff, operandArea, Instr.wf]
  | regRead => simp [formatOf, formatR_eq_command_iff, operandArea, Instr.wf]
  | nodeRead => simp [formatOf, formatNI_eq_command_iff, operandArea, Instr.wf]
  | codeBits => simp [formatOf, formatSW_eq_command_iff, operandArea, Instr.wf]
  | decByte => simp [formatOf, formatB_eq_command_iff, operandArea, Instr.wf]

/-- R71, R79: the words that decode to a command are its encoding, if it is well-formed. -/
theorem decode_eq_command_iff (i : Instr) :
    decode wSym w = .command i ↔ encode i = w ∧ i.wf wSym = true := by
  rw [encode_eq_iff, and_assoc, ← formatOf_eq_command_iff]
  constructor
  · intro h
    have hop := opcode_of_decode_eq_command h
    exact ⟨hop, decode_of_opcode i hop ▸ h⟩
  · rintro ⟨hop, h⟩
    exact (decode_of_opcode i hop).trans h

end

/-- Settles O1: the encoding is one of the words that decode to the command. -/
theorem decodeOfEncode : Obligations.DecodeOfEncode :=
  fun _ i hwf => (decode_eq_command_iff i).2 ⟨rfl, hwf⟩

/-- Settles O2: no other word decodes to the command. -/
theorem encodeOfDecode : Obligations.EncodeOfDecode :=
  fun _ _ i h => (decode_eq_command_iff i).1 h

/-- Settles O3: `decode` hands each word on to the format of its opcode. -/
theorem formatsLegalExactly : Obligations.FormatsLegalExactly := by
  intro wSym
  refine ⟨?_, ?_, ?_, ?_, ?_, ?_⟩
  · intro w op i hrow hop
    obtain ⟨rfl, hformat⟩ : op = opcodeOf i ∧ formatOf wSym i = formatN i := by
      simp only [List.mem_cons, Prod.mk.injEq, List.not_mem_nil, or_false] at hrow
      obtain ⟨rfl, rfl⟩ | ⟨rfl, rfl⟩ | ⟨rfl, rfl⟩ | ⟨rfl, rfl⟩ | ⟨rfl, rfl⟩ | ⟨rfl, rfl⟩ := hrow <;>
        exact ⟨rfl, rfl⟩
    rw [decode_of_opcode i hop, hformat, formatN]
  · intro w op mk hrow hop
    obtain ⟨rfl, hformat⟩ : op = opcodeOf (mk 0) ∧ formatOf wSym (mk 0) = formatS wSym mk := by
      obtain ⟨rfl, rfl⟩ | ⟨rfl, rfl⟩ | ⟨rfl, rfl⟩ | ⟨rfl, rfl⟩ := hrow <;> exact ⟨rfl, rfl⟩
    rw [decode_of_opcode (mk 0) hop, hformat, formatS]
  · exact fun w hop => decode_of_opcode (.regRead 0) hop
  · exact fun w hop => decode_of_opcode (.codeBits 0 0) hop
  · exact fun w hop => decode_of_opcode (.nodeRead 0 0) hop
  · exact fun w hop => decode_of_opcode (.decByte 0 0) hop

/-- Settles O4: the decoder runs on each word. -/
theorem sampleWordsDecode : Obligations.SampleWordsDecode := by
  unfold Obligations.SampleWordsDecode
  decide

end Sys2Proof
end

section
/-!
PROOFS, spec/40_control.md. A step takes the presented word off the port and makes its transaction
(spec/40_control.md rule R103), and `NOP` passes its checks in every state (rule R100).
-/

namespace Sys2Proof.Machine

variable {wSym wCnt : Nat}

/-! ## The transaction of a presented word (R103) -/

theorem runWord_of_decode {run : Instr → State.For wSym wCnt → Outcome wSym wCnt} {w : Word}
    {i : Instr} (s : State.For wSym wCnt) (h : decode wSym w = .command i) :
    runWord run w s = run i s := by
  rw [runWord, h]

theorem step_of_port_eq_command {s : State} {w : Word} {rest : List HostEvent}
    (h : s.port = .command w :: rest) : step s = runWord exec w (s.takeEvent rest) := by
  rw [step, h, runEvents]

/-- Taking the event just presented gives back the state before it was presented. -/
@[simp] theorem State.For.takeEvent_present (s : State.For wSym wCnt) (w : Word) :
    (s.present w).takeEvent s.port = s := rfl

/-- The number of a word, in all its 32 bits, is the number of that word in the opcode table. -/
@[simp] theorem tableWord_toNat (w : Word) : tableWord 32 w.toNat = w := by
  rw [tableWord, BitVec.toNat_mod_cancel, BitVec.ofNat_toNat, BitVec.setWidth_eq]

theorem step_present (s : State) (w : Word) : step (s.present w) = runWord exec w s := by
  rw [step_of_port_eq_command (s.present_port w), s.takeEvent_present]

/-- Settles O5: the step is the word's transaction, and that runs the decoded command. -/
theorem stepRunsDecodedCommand : Obligations.StepRunsDecodedCommand :=
  fun _ _ _ _ hport hdecode => (step_of_port_eq_command hport).trans (runWord_of_decode _ hdecode)

/-- Settles O6: `withFetchWord` presents the word itself, and the next step takes it. -/
theorem presentedWordRunsNext : Obligations.PresentedWordRunsNext := by
  intro s w
  rw [State.withFetchWord, tableWord_toNat, step_present]

/-! ## The control commands (R100) -/

/-- Settles O18: `NOP` has no check that can fail (`execNop_eq`). -/
theorem nopAnswersStatus : Obligations.NopAnswersStatus :=
  fun s => execNop_eq s

end Sys2Proof.Machine
end

section
/-!
PROOFS, spec/41_frequency_accumulator.md. The accumulator's commands pass their checks (R120, R121),
and the `ACCUM`s of a sequence leave the state tallying it (R122).
-/

namespace Sys2Proof.Machine

variable {wSym wCnt : Nat}

/-! ## `ACCUM` and `COUNT_READ` (R120, R121) -/

/-- R120: with no fault, no tree and room in `TOTAL`, no check of `ACCUM` fails. -/
theorem execAccum_of_ready (hw : wSym ≤ 16) (sym : Sym wSym) {s : State.For wSym wCnt}
    (hf : s.fault = false) (ht : s.treeValid = false) (hroom : s.totalFull = false) :
    execAccum (symField sym) s =
      .next ((s.writeCounts sym (s.countAt sym + 1) (s.total + 1)
        (if s.countAt sym = 0 then s.distinct + 1 else s.distinct)).respond .ok
          (zext32 (s.countAt sym + 1))) := by
  simp [execAccum, runChecked_cons, hf, ht, hroom, wf_accum hw, fieldSym_symField hw]

/-- R121: with no fault no check of `COUNT_READ` fails. -/
theorem execCountRead_of_no_fault (hw : wSym ≤ 16) (sym : Sym wSym) {s : State.For wSym wCnt}
    (hf : s.fault = false) :
    execCountRead (symField sym) s = .next (s.respond .ok (zext32 (s.countAt sym))) := by
  simp [execCountRead, runChecked_cons, hf, wf_countRead hw, fieldSym_symField hw]

/-- R120: `ACCUM` writes the count of its symbol alone. -/
@[simp] theorem State.For.countAt_writeCounts (s : State.For wSym wCnt) (sym x : Sym wSym)
    (v total : Count wCnt) (distinct : BitVec 16) :
    (s.writeCounts sym v total distinct).countAt x = if sym = x then v else s.countAt x :=
  readCount_writeCount s.count sym x v

@[simp] theorem State.For.countAt_respond (s : State.For wSym wCnt) (err : Err) (data : Word)
    (x : Sym wSym) : (s.respond err data).countAt x = s.countAt x := rfl

theorem State.For.totalFull_eq_false_of_lt {s : State} (h : s.total.toNat < 2 ^ 32 - 1) :
    s.totalFull = false := by
  rw [State.For.totalFull, beq_eq_false_iff_ne]
  intro hfull
  rw [hfull, BitVec.toNat_allOnes] at h
  exact lt_irrefl _ h

/-- Settles O21: no check fails, and the written count memory reads back as the rule says. -/
theorem accumCounts : Obligations.AccumCounts := by
  intro sym s hf ht hlt
  refine ⟨writeCount s.count sym (s.countAt sym + 1), ?_, fun x => ?_⟩
  · have h := execAccum_of_ready (by decide) sym hf ht (s.totalFull_eq_false_of_lt hlt)
    rw [zext32, BitVec.setWidth_eq] at h
    exact h
  · rw [readCount_writeCount]
    exact if_congr eq_comm rfl rfl

/-- Settles O22: no check fails, and a count of 32 bits is its own zero-extension. -/
theorem countReadAnswers : Obligations.CountReadAnswers := by
  intro sym s hf
  have h := execCountRead_of_no_fault (by decide) sym hf
  rw [zext32, BitVec.setWidth_eq] at h
  exact h

/-! ## The `ACCUM`s of a sequence (R122) -/

/-- The accumulator takes symbols (no fault, no tree) and has counted the symbols of `xs`.
`DISTINCT` is tied to them by the count invariant (R26). -/
structure State.For.Tallies (s : State) (xs : List Sym) : Prop where
  fault : s.fault = false
  treeValid : s.treeValid = false
  countsOk : s.CountsOk
  total : s.total.toNat = xs.length
  count : ∀ x, (s.countAt x).toNat = xs.count x

theorem State.For.AtReset.tallies_nil {s : State} (h : s.AtReset) : s.Tallies [] := by
  have hcounts := h.countsOk
  obtain ⟨hcount, htotal, _, htree, _, _, _, _, _, _, _, _, hfault, _⟩ := h
  exact ⟨hfault, htree, hcounts, by simp [htotal], fun x => by simp [hcount x]⟩

theorem State.For.Tallies.presentSyms_perm_dedup {s : State} {xs : List Sym} (h : s.Tallies xs) :
    (presentSyms s.count).Perm xs.dedup := by
  refine (List.perm_ext_iff_of_nodup (presentSyms_nodup _) xs.nodup_dedup).2 fun x => ?_
  have hx : (readCount s.count x).toNat = xs.count x := h.count x
  rw [mem_presentSyms, List.mem_dedup, ← List.count_pos_iff, ← hx, Nat.pos_iff_ne_zero,
    ← BitVec.toNat_ne_iff_ne, BitVec.ofNat_eq_ofNat, BitVec.toNat_zero]

/-- R122: `DISTINCT` is the number of the sequence's distinct symbols. -/
theorem State.For.Tallies.distinct {s : State} {xs : List Sym} (h : s.Tallies xs) :
    s.distinct.toNat = xs.dedup.length :=
  h.countsOk.2.trans h.presentSyms_perm_dedup.length_eq

/-- R120: below the limit of `TOTAL` a counter grows by 1 without wrapping. -/
theorem toNat_add_one_of_lt {v : Count} (h : v.toNat < 2 ^ 32 - 1) :
    (v + 1).toNat = v.toNat + 1 := by
  bv_omega

/-- R120: `ACCUM` adds its symbol to the tallied sequence. No counter wraps: a count is at most the
sequence's length, and that is below the limit of `TOTAL`. -/
theorem State.For.Tallies.accum {s : State} {xs : List Sym} (h : s.Tallies xs) (x : Sym)
    (hlen : xs.length < 2 ^ 32 - 1) :
    ∃ t, exec (.accum (symField x)) s = .next t ∧ t.Tallies (xs ++ [x]) := by
  have hroom : s.totalFull = false := s.totalFull_eq_false_of_lt (h.total ▸ hlen)
  refine ⟨_, execAccum_of_ready (by decide) x h.fault h.treeValid hroom,
    h.fault, h.treeValid, countsOk_writeCounts h.countsOk x hroom, ?_, fun y => ?_⟩
  · have htotal := h.total
    simp only [State.For.respond_total, State.For.writeCounts_total]
    rw [toNat_add_one_of_lt (by omega), htotal, List.length_append, List.length_singleton]
  · rw [State.For.countAt_respond, State.For.countAt_writeCounts, List.count_append,
      List.count_singleton]
    by_cases hxy : x = y
    · subst hxy
      have hle : xs.count x ≤ xs.length := List.count_le_length
      have hcount := h.count x
      rw [if_pos rfl, toNat_add_one_of_lt (by omega), hcount, beq_self_eq_true, if_pos rfl]
    · simpa [hxy] using h.count y

@[simp] theorem countSeq_cons (x : Sym wSym) (xs : List (Sym wSym)) :
    countSeq (x :: xs) = .accum (symField x) :: countSeq xs := rfl

/-- R122: the `ACCUM`s of `xs` complete and append `xs` to the tallied sequence. -/
theorem State.For.Tallies.execAll_countSeq {s : State} {ys : List Sym} (h : s.Tallies ys)
    (xs : List Sym) (hlen : ys.length + xs.length ≤ 2 ^ 32 - 1) :
    ∃ t, execAll exec (countSeq xs) s = .next t ∧ t.Tallies (ys ++ xs) := by
  induction xs generalizing s ys with
  | nil => exact ⟨s, rfl, by simpa using h⟩
  | cons x xs ih =>
    rw [List.length_cons] at hlen
    obtain ⟨u, hu, hux⟩ := h.accum x (by omega)
    obtain ⟨t, ht, htxs⟩ := ih hux (by rw [List.length_append, List.length_singleton]; omega)
    refine ⟨t, ?_, by simpa using htxs⟩
    rw [countSeq_cons, execAll, hu]
    exact ht

/-- Settles O23: the reset values tally the empty sequence, and the `ACCUM`s append theirs. -/
theorem accumsCountOccurrences : Obligations.AccumsCountOccurrences := by
  intro xs s hreset hlen
  obtain ⟨t, hrun, ht⟩ := hreset.tallies_nil.execAll_countSeq xs (by simpa using hlen)
  exact ⟨t, hrun, ht.count, ht.total, ht.distinct⟩

end Sys2Proof.Machine
end

section
/-!
PROOFS, spec/42_tree_builder.md. With no fault and no tree `BUILD` passes its checks
(`execBuild_of_ready`), so what it does is what `buildTree` makes of the counts. An insertion writes
one slot, so the finished tree shows each merge as it was made: of the two first entries of the
queue, which holds the nodes that no merge had taken.
-/

namespace Sys2Proof.Machine

variable {wSym wCnt : Nat}

/-! ## No step stops the model -/

theorem State.For.SameVisible.refl (s : State.For wSym wCnt) : s.SameVisible s :=
  ⟨rfl, fun _ _ _ => rfl, fun _ => rfl⟩

/-- Settles O59: two states with the invariants that differ only in unspecified contents both
complete their step (O60), and every state makes such a pair with itself. -/
theorem invariantStatesNeverStop : Obligations.InvariantStatesNeverStop := by
  intro s hs
  obtain ⟨t, _, hstep, _⟩ := unspecifiedContentsUnobservable s s hs hs (.refl s)
  rw [hstep, isNext]

/-! ## What `BUILD` leaves in the arena -/

/-- The builder `b'` is `b` after insertions: it wrote no slot but those handed out since. -/
structure Builder.Extends (b b' : Builder wSym wCnt) : Prop where
  next_le : b.next ≤ b'.next
  node : ∀ i : NodeIdx wSym, i.toNat < b.next ∨ b'.next ≤ i.toNat →
    readNode b'.node i = readNode b.node i

theorem Builder.Extends.refl (b : Builder wSym wCnt) : b.Extends b :=
  ⟨Nat.le_refl _, fun _ _ => rfl⟩

theorem Builder.Extends.trans {a b c : Builder wSym wCnt} (hab : a.Extends b)
    (hbc : b.Extends c) : a.Extends c := by
  have hle := hab.next_le
  have hle' := hbc.next_le
  exact ⟨hle.trans hle', fun i hi =>
    (hbc.node i (by omega)).trans (hab.node i (by omega))⟩

/-- R142: an insertion writes the slot of the next index. -/
theorem Builder.Extends.insert (b : Builder wSym wCnt) (hroom : b.next < 2 * 2 ^ wSym - 1)
    (rest : List (QEntry wSym wCnt)) (r : NodeRec wSym wCnt) : b.Extends (b.insert rest r) := by
  refine ⟨by simp, fun i hi => ?_⟩
  rw [readNode_insert hroom, if_neg]
  rintro rfl
  rw [insert_next, toNat_nextIdx hroom] at hi
  omega

theorem Builder.Extends.addLeaves (b : Builder wSym wCnt) (m : CountMem wSym wCnt)
    (syms : List (Sym wSym)) (hroom : b.next + syms.length ≤ 2 * 2 ^ wSym - 1) :
    b.Extends (b.addLeaves m syms) := by
  induction syms generalizing b with
  | nil => exact .refl b
  | cons x syms ih =>
    rw [List.length_cons] at hroom
    rw [addLeaves_cons]
    exact (insert b (by omega) b.queue (.leaf x (readCount m x))).trans
      (ih _ (by rw [insert_next]; omega))

/-! ## The merges, one by one (R146) -/

/-- R141: of two entries the one that does not come second comes first. -/
theorem QEntry.before_of_not_before {a b : QEntry wSym wCnt} (h : b.before a = false)
    (hne : a ≠ b) : a.before b = true := by
  obtain hab | hba | heq := QEntry.before_total a b
  · exact hab
  · exact absurd hba (by simp [h])
  · exact absurd heq hne

/-- R146: a merge takes the first entry `x` off the queue, then the first of the others, `y`, and
inserts their parent. -/
theorem Builder.merge_takes_first (b : Builder wSym wCnt) (h : 2 ≤ b.queue.length) :
    ∃ x y rest, b.queue.Perm ([x, y] ++ rest) ∧
      b.merge = b.insert rest (.internal (x.weight + y.weight) x.index y.index) ∧
      (∀ z ∈ b.queue, z ≠ x → x.before z = true) ∧
      (∀ z ∈ b.queue, z ≠ x → z ≠ y → y.before z = true) := by
  obtain ⟨x, y, q, rest, hx, hy, hm⟩ := b.merge_spec h
  obtain ⟨hxmem, rfl, _, hxfirst⟩ := extractMin_spec hx
  obtain ⟨hymem, rfl, _, hyfirst⟩ := extractMin_spec hy
  refine ⟨x, y, _, ?_, hm, fun z hz hzx => ?_, fun z hz hzx hzy => ?_⟩
  · exact (List.perm_cons_erase hxmem).trans ((List.perm_cons_erase hymem).cons x)
  · exact QEntry.before_of_not_before (hxfirst z hz) hzx.symm
  · exact QEntry.before_of_not_before (hyfirst z ((List.mem_erase_of_ne hzx).2 hz)) hzy.symm

theorem Builder.merges_succ (n : Nat) (b : Builder wSym wCnt) :
    Builder.merges (n + 1) b = (Builder.merges n b).merge := by
  induction n generalizing b with
  | zero => rfl
  | succ n ih => exact ih b.merge

/-- The builder of one `BUILD` when it has made `n` of its merges. -/
def builderAfter (m : CountMem wSym wCnt) (node : Arena wSym wCnt) (n : Nat) :
    Builder wSym wCnt :=
  Builder.merges n (Builder.addLeaves ⟨node, [], 0⟩ m (presentSyms m))

/-- At its end it has made `k - 1` merges. -/
theorem mergedBuilder_eq_builderAfter (m : CountMem wSym wCnt) (node : Arena wSym wCnt) :
    mergedBuilder m node (presentSyms m) = builderAfter m node ((presentSyms m).length - 1) := rfl

theorem builderAfter_succ (m : CountMem wSym wCnt) (node : Arena wSym wCnt) (n : Nat) :
    builderAfter m node (n + 1) = (builderAfter m node n).merge :=
  Builder.merges_succ n _

/-- R140, R143: with all leaves and no merge. -/
theorem builderAfter_zero_grown (m : CountMem wSym wCnt) (node : Arena wSym wCnt) :
    (builderAfter m node 0).Grown m (presentSyms m) :=
  (Builder.Grown.nil m node).addLeaves rfl (presentSyms m) (by
    have := presentSyms_length_le m
    have := Nat.two_pow_pos wSym
    simp only
    omega)

section
variable {m : CountMem wSym wCnt} (node : Arena wSym wCnt) {n : Nat}
  (hn : n < (presentSyms m).length)
include hn

theorem builderAfter_next_and_queue_length :
    (builderAfter m node n).next = (presentSyms m).length + n ∧
      (builderAfter m node n).queue.length + n = (presentSyms m).length := by
  have hqueue := Builder.addLeaves_queue_length ⟨node, [], 0⟩ m (presentSyms m)
  have hnext := Builder.addLeaves_next ⟨node, [], 0⟩ m (presentSyms m)
  rw [List.length_nil, Nat.zero_add] at hqueue
  rw [Nat.zero_add] at hnext
  obtain ⟨hlen, hnext'⟩ := Builder.merges_spec n _ (hqueue ▸ hn)
  exact ⟨hnext'.trans (by rw [hnext]), hlen.trans hqueue⟩

theorem builderAfter_next : (builderAfter m node n).next = (presentSyms m).length + n :=
  (builderAfter_next_and_queue_length node hn).1

end

section
variable {m : CountMem wSym wCnt} (node : Arena wSym wCnt) {n : Nat}
  (hn : n + 1 < (presentSyms m).length)
include hn

/-- A `BUILD` that has a merge left has a free slot for it. -/
theorem builderAfter_next_lt : (builderAfter m node n).next < 2 * 2 ^ wSym - 1 := by
  have := builderAfter_next node (Nat.lt_of_succ_lt hn)
  have := presentSyms_length_le m
  omega

/-- R146: what the merge after `n` merges takes and inserts. -/
theorem builderAfter_succ_spec :
    ∃ x y rest, (builderAfter m node n).queue.Perm ([x, y] ++ rest) ∧
      builderAfter m node (n + 1) = (builderAfter m node n).insert rest
        (.internal (x.weight + y.weight) x.index y.index) ∧
      (∀ z ∈ (builderAfter m node n).queue, z ≠ x → x.before z = true) ∧
      (∀ z ∈ (builderAfter m node n).queue, z ≠ x → z ≠ y → y.before z = true) := by
  rw [builderAfter_succ]
  refine Builder.merge_takes_first _ ?_
  have := (builderAfter_next_and_queue_length node (Nat.lt_of_succ_lt hn)).2
  omega

end

theorem builderAfter_forest {m : CountMem wSym wCnt} (node : Arena wSym wCnt) {n : Nat}
    (hn : n < (presentSyms m).length) : (builderAfter m node n).Forest := by
  induction n with
  | zero => exact (builderAfter_zero_grown m node).forest
  | succ n ih =>
    obtain ⟨x, y, rest, hperm, hmerge, _⟩ := builderAfter_succ_spec node hn
    rw [hmerge]
    exact (ih (Nat.lt_of_succ_lt hn)).insert (builderAfter_next_lt node hn) hperm
      (NodeRec.hasChild_internal _ _ _)

theorem builderAfter_extends {m : CountMem wSym wCnt} (node : Arena wSym wCnt) {n n' : Nat}
    (hle : n ≤ n') (hn' : n' < (presentSyms m).length) :
    (builderAfter m node n).Extends (builderAfter m node n') := by
  induction n', hle using Nat.le_induction with
  | base => exact .refl _
  | succ n' _ ih =>
    obtain ⟨x, y, rest, _, hmerge, _⟩ := builderAfter_succ_spec node hn'
    rw [hmerge]
    exact (ih (Nat.lt_of_succ_lt hn')).trans (.insert _ (builderAfter_next_lt node hn') _ _)

/-! ## The tree that the builder leaves in a state (R146) -/

section
variable {t : State} {m : CountMem} {node : Arena}
  (ht : t.node = (mergedBuilder m node (presentSyms m)).node)
include ht

/-- The nodes made by `n` merges are in the tree as they were then. -/
theorem nodeAt_eq_readNode_builderAfter {n : Nat} (hn : n < (presentSyms m).length) {i : NodeIdx}
    (hi : i.toNat < (presentSyms m).length + n) :
    t.nodeAt i = readNode (builderAfter m node n).node i := by
  have hlater := builderAfter_extends node (Nat.le_sub_one_of_lt hn)
    (Nat.sub_one_lt_of_lt hn)
  rw [State.For.nodeAt, ht, mergedBuilder_eq_builderAfter]
  exact hlater.node i (.inl (by rw [builderAfter_next node hn]; exact hi))

theorem nodeAt_of_presentSyms {i : Nat} {sym : Sym} (hi : (presentSyms m)[i]? = some sym) :
    t.nodeAt (BitVec.ofNat (8 + 1) i) = .leaf sym (readCount m sym) := by
  have hlt : i < (presentSyms m).length := (List.getElem?_eq_some_iff.1 hi).1
  rw [nodeAt_eq_readNode_builderAfter ht (n := 0) (by omega),
    (builderAfter_zero_grown m node).leaf i sym hi]
  rw [BitVec.toNat_ofNat]
  exact (Nat.mod_le _ _).trans_lt hlt

/-- R29, R141: an entry of the queue has the weight of its node. -/
theorem weight_nodeAt_of_mem_queue {n : Nat} (hn : n < (presentSyms m).length) {z : QEntry 8 32}
    (hz : z ∈ (builderAfter m node n).queue) : (t.nodeAt z.index).weight = z.weight := by
  obtain ⟨hlt, hw⟩ := (builderAfter_forest node hn).entry z hz
  rw [builderAfter_next node hn] at hlt
  rw [nodeAt_eq_readNode_builderAfter ht hn hlt, hw]

/-- R141: the order of the queue is that of the nodes. -/
theorem entryBefore_of_before {n : Nat} (hn : n < (presentSyms m).length) {z z' : QEntry 8 32}
    (hz : z ∈ (builderAfter m node n).queue) (hz' : z' ∈ (builderAfter m node n).queue)
    (h : z.before z' = true) : EntryBefore t z.index z'.index := by
  rw [QEntry.before_iff] at h
  rwa [EntryBefore, weight_nodeAt_of_mem_queue ht hn hz, weight_nodeAt_of_mem_queue ht hn hz']

/-- R146: the node that the merge after `n` merges makes of the two first entries of the queue. -/
theorem nodeAt_of_merge {n : Nat} (hn : n + 1 < (presentSyms m).length) :
    ∃ x ∈ (builderAfter m node n).queue, ∃ y ∈ (builderAfter m node n).queue,
      t.nodeAt (BitVec.ofNat (8 + 1) ((presentSyms m).length + n)) =
        .internal (x.weight + y.weight) x.index y.index ∧ x.index ≠ y.index ∧
      (∀ z ∈ (builderAfter m node n).queue, z ≠ x → x.before z = true) ∧
      (∀ z ∈ (builderAfter m node n).queue, z ≠ x → z ≠ y → y.before z = true) := by
  obtain ⟨x, y, rest, hperm, hmerge, hx, hy⟩ := builderAfter_succ_spec node hn
  have hn' := Nat.lt_of_succ_lt hn
  have hroom := builderAfter_next_lt node hn
  have hnext := builderAfter_next node hn'
  have hidx : BitVec.ofNat (8 + 1) ((presentSyms m).length + n) = (builderAfter m node n).nextIdx :=
    by rw [Builder.nextIdx, hnext]
  have hnodup : (x.index :: y.index :: rest.map QEntry.index).Nodup :=
    (hperm.map QEntry.index).nodup_iff.1 (builderAfter_forest node hn').nodup
  refine ⟨x, hperm.mem_iff.2 (by simp), y, hperm.mem_iff.2 (by simp), ?_,
    fun h => (List.nodup_cons.1 hnodup).1 (by simp [h]), hx, hy⟩
  rw [hidx, nodeAt_eq_readNode_builderAfter ht hn, hmerge, Builder.readNode_insert_new hroom]
  rw [Builder.toNat_nextIdx hroom]
  omega

/-- R146: the `INTERNAL` nodes among those made by `n` merges are these merges. -/
theorem exists_ofNat_of_inner {n : Nat} {i : NodeIdx}
    (hi : i.toNat < (presentSyms m).length + n) (hk : (t.nodeAt i).kind = .internal) :
    ∃ j < n, i = BitVec.ofNat (8 + 1) ((presentSyms m).length + j) := by
  by_cases hleaf : i.toNat < (presentSyms m).length
  · have hrec := nodeAt_of_presentSyms ht (List.getElem?_eq_getElem hleaf)
    rw [BitVec.ofNat_toNat, BitVec.setWidth_eq] at hrec
    rw [hrec] at hk
    exact NodeKind.noConfusion hk
  · refine ⟨i.toNat - (presentSyms m).length, by omega, BitVec.eq_of_toNat_eq ?_⟩
    rw [Nat.add_sub_cancel' (by omega), BitVec.ofNat_toNat, BitVec.setWidth_eq]

/-- R146: the queue holds the nodes that no merge has taken. -/
theorem available_iff_mem_queued {n : Nat} (hn : n < (presentSyms m).length) (c : NodeIdx) :
    Available t (presentSyms m).length n c ↔ c ∈ (builderAfter m node n).queued := by
  have hforest := builderAfter_forest node hn
  have hnext := builderAfter_next node hn
  by_cases hc : c.toNat < (presentSyms m).length + n
  · have hparent : ∀ i, (builderAfter m node n).Parent i c ↔
        i.toNat < (presentSyms m).length + n ∧ (t.nodeAt i).HasChild c := fun i => by
      rw [Builder.Parent, hnext]
      exact and_congr_right fun hi => by rw [nodeAt_eq_readNode_builderAfter ht hn hi]
    rw [hforest.queued_iff c (hnext ▸ hc), Available, and_iff_right hc]
    simp only [hparent]
    constructor
    · rintro hnone i ⟨hi, hk, hchild⟩
      obtain ⟨j, hj, rfl⟩ := exists_ofNat_of_inner ht hi hk
      exact hchild.elim (hnone j hj).1 (hnone j hj).2
    · intro hnone j hj
      obtain ⟨x, _, y, _, hrec, _⟩ := nodeAt_of_merge ht (n := j) (by omega)
      have hlt : (BitVec.ofNat (8 + 1) ((presentSyms m).length + j)).toNat <
          (presentSyms m).length + n := by
        rw [BitVec.toNat_ofNat]
        exact (Nat.mod_le _ _).trans_lt (by omega)
      refine not_or.1 fun hchild => hnone _ ⟨hlt, ?_, hchild⟩
      rw [hrec]
      rfl
  · exact iff_of_false (fun h => hc h.1) fun h => hc (hnext ▸ hforest.lt_of_queued h)

/-- R146: the merge after `n` merges makes the parent of the two available nodes that come first. -/
theorem nodeAt_merge_first {n : Nat} (hn : n + 1 < (presentSyms m).length) :
    ∃ a b, t.nodeAt (BitVec.ofNat (8 + 1) ((presentSyms m).length + n)) =
        .internal ((t.nodeAt a).weight + (t.nodeAt b).weight) a b ∧
      a ≠ b ∧ Available t (presentSyms m).length n a ∧ Available t (presentSyms m).length n b ∧
      (∀ c, Available t (presentSyms m).length n c → c ≠ a → EntryBefore t a c) ∧
      (∀ c, Available t (presentSyms m).length n c → c ≠ a → c ≠ b → EntryBefore t b c) := by
  have hn' := Nat.lt_of_succ_lt hn
  obtain ⟨x, hx, y, hy, hrec, hne, hxfirst, hyfirst⟩ := nodeAt_of_merge ht hn
  have hentry : ∀ c, Available t (presentSyms m).length n c →
      ∃ z ∈ (builderAfter m node n).queue, z.index = c := fun c hc =>
    List.mem_map.1 ((available_iff_mem_queued ht hn' c).1 hc)
  have havailable : ∀ z ∈ (builderAfter m node n).queue,
      Available t (presentSyms m).length n z.index := fun z hz =>
    (available_iff_mem_queued ht hn' _).2 (List.mem_map_of_mem hz)
  refine ⟨x.index, y.index, ?_, hne, havailable x hx, havailable y hy, fun c hc hcx => ?_,
    fun c hc hcx hcy => ?_⟩
  · rw [hrec, weight_nodeAt_of_mem_queue ht hn' hx, weight_nodeAt_of_mem_queue ht hn' hy]
  · obtain ⟨z, hz, rfl⟩ := hentry c hc
    exact entryBefore_of_before ht hn' hx hz (hxfirst z hz (ne_of_apply_ne _ hcx))
  · obtain ⟨z, hz, rfl⟩ := hentry c hc
    exact entryBefore_of_before ht hn' hy hz
      (hyfirst z hz (ne_of_apply_ne _ hcx) (ne_of_apply_ne _ hcy))

end

/-- R146: the root is the node of the last merge. -/
theorem buildTree_root_of_two_le {m : CountMem wSym wCnt} (node : Arena wSym wCnt)
    (pq : List (QEntry wSym wCnt)) (h : 2 ≤ (presentSyms m).length) :
    (buildTree m node pq).root.toNat = 2 * (presentSyms m).length - 2 := by
  obtain ⟨n, hn⟩ := Nat.exists_eq_add_of_le' h
  have hlt : n + 1 < (presentSyms m).length := by omega
  have hroom := builderAfter_next_lt node hlt
  have hnext := builderAfter_next node (Nat.lt_of_succ_lt hlt)
  obtain ⟨x, y, rest, _, hmerge, _⟩ := builderAfter_succ_spec node hlt
  obtain ⟨e, hqueue, hb⟩ :=
    buildMerged_spec m node (List.ne_nil_of_length_pos (Nat.zero_lt_of_lt h))
  have hlast : (presentSyms m).length - 1 = n + 1 := by omega
  rw [mergedBuilder_eq_builderAfter, hlast, hmerge, Builder.insert_queue,
    List.append_eq_singleton_iff] at hqueue
  rw [buildTree_of_two_le node pq h, hb]
  obtain ⟨_, he⟩ | ⟨_, he⟩ := hqueue
  · obtain rfl := List.singleton_inj.1 he
    simp only
    rw [Builder.toNat_nextIdx hroom, hnext]
    omega
  · exact absurd he (by simp)

theorem buildTree_nodeCount_of_two_le {m : CountMem wSym wCnt} (node : Arena wSym wCnt)
    (pq : List (QEntry wSym wCnt)) (h : 2 ≤ (presentSyms m).length) :
    (buildTree m node pq).nodeCount.toNat = 2 * (presentSyms m).length - 1 := by
  obtain ⟨_, _, hb⟩ := buildMerged_spec m node (List.ne_nil_of_length_pos (Nat.zero_lt_of_lt h))
  have hmax := presentSyms_length_le m
  rw [buildTree_of_two_le node pq h, hb, BitVec.toNat_ofNat, Nat.mod_eq_of_lt]
  rw [Nat.pow_succ]
  omega

theorem buildTree_node_of_two_le {m : CountMem wSym wCnt} (node : Arena wSym wCnt)
    (pq : List (QEntry wSym wCnt)) (h : 2 ≤ (presentSyms m).length) :
    (buildTree m node pq).node = (mergedBuilder m node (presentSyms m)).node := by
  obtain ⟨_, _, hb⟩ := buildMerged_spec m node (List.ne_nil_of_length_pos (Nat.zero_lt_of_lt h))
  rw [buildTree_of_two_le node pq h, hb]

/-! ## `BUILD` -/

/-- Settles O28: the tree in the next state is the one the builder's merges left. -/
theorem buildMergesGreedily : Obligations.BuildMergesGreedily := by
  intro s hf htree htwo
  refine ⟨_, _, execBuild_of_ready hf htree, rfl, buildTree_nodeCount_of_two_le _ _ htwo,
    buildTree_root_of_two_le _ _ htwo, fun i sym hi => ?_, fun n hn => ?_⟩
  · exact nodeAt_of_presentSyms (buildTree_node_of_two_le _ _ htwo) hi
  · exact nodeAt_merge_first (buildTree_node_of_two_le _ _ htwo) (by omega)

/-- Settles O26: no symbol is counted. -/
theorem buildEmptyTree : Obligations.BuildEmptyTree := by
  intro s hf htree hzero
  have hsyms : presentSyms s.count = [] := List.eq_nil_iff_forall_not_mem.2 fun sym hsym =>
    (mem_presentSyms s.count sym).1 hsym (hzero sym)
  have hbuilt := buildTree_of_none s.node s.pq hsyms
  refine ⟨_, execBuild_of_ready hf htree, ?_⟩
  rw [hbuilt]
  refine ⟨rfl, rfl, ?_⟩
  exact (readNode_writeNode _ _ _ _ (by decide)).trans (if_pos rfl)

/-- Settles O27: the one symbol counted is the list of counted symbols. -/
theorem buildOneSymbolTree : Obligations.BuildOneSymbolTree := by
  intro s sym hf htree hsym hothers
  have hsyms : presentSyms s.count = [sym] := by
    refine List.perm_singleton.1 ((List.perm_ext_iff_of_nodup (presentSyms_nodup _)
      (List.nodup_singleton _)).2 fun x => ?_)
    rw [mem_presentSyms, List.mem_singleton]
    exact ⟨not_imp_comm.1 (hothers x), fun h => h ▸ hsym⟩
  refine ⟨_, execBuild_of_ready hf htree, ?_⟩
  rw [buildTree_of_one s.node s.pq hsyms]
  refine ⟨rfl, rfl, ?_, ?_⟩
  · refine (readNode_writeNode _ _ _ _ (by decide)).trans ((if_neg (by decide)).trans ?_)
    exact (readNode_writeNode _ _ _ _ (by decide)).trans (if_pos rfl)
  · exact (readNode_writeNode _ _ _ _ (by decide)).trans (if_pos rfl)

/-- R143: slots at or above `NODE_COUNT` keep their contents. -/
theorem readNode_buildTree_of_not_lt (m : CountMem) (node : Arena) (pq : List (QEntry 8 32))
    {i : NodeIdx} (hi : ¬ i < (buildTree m node pq).nodeCount) :
    readNode (buildTree m node pq).node i = readNode node i := by
  rw [BitVec.lt_def, not_lt] at hi
  match hsyms : presentSyms m with
  | [] =>
    rw [buildTree_of_none node pq hsyms] at hi ⊢
    exact (Builder.Extends.insert ⟨node, [], 0⟩ (by simp) [] .sentinel).node i (.inr hi)
  | [x] =>
    rw [buildTree_of_one node pq hsyms] at hi ⊢
    exact ((Builder.Extends.insert ⟨node, [], 0⟩ (by simp) [] (.leaf x (readCount m x))).trans
      (.insert _ (by simp) [] (.internal (readCount m x) 0 .null))).node i (.inr hi)
  | x :: y :: syms =>
    have htwo : 2 ≤ (presentSyms m).length := by simp [hsyms]
    have hleaves := Builder.Extends.addLeaves ⟨node, [], 0⟩ m (presentSyms m) (by
      have := presentSyms_length_le m
      simp only
      omega)
    have hmerged := hleaves.trans (builderAfter_extends node (Nat.zero_le _)
      (Nat.sub_one_lt_of_lt htwo))
    rw [buildTree_nodeCount_of_two_le node pq htwo] at hi
    rw [buildTree_node_of_two_le node pq htwo, mergedBuilder_eq_builderAfter]
    refine hmerged.node i (.inr ?_)
    rw [builderAfter_next node (Nat.sub_one_lt_of_lt htwo)]
    omega

/-- Settles O25: an empty queue is left empty, and the arena is written below `NODE_COUNT`. -/
theorem buildCompletes : Obligations.BuildCompletes := by
  intro s hf htree hpq
  refine ⟨(buildTree s.count s.node s.pq).node, (buildTree s.count s.node s.pq).root,
    (buildTree s.count s.node s.pq).nodeCount, ?_,
    fun _ => readNode_buildTree_of_not_lt s.count s.node s.pq⟩
  have hqueue : (buildTree s.count s.node s.pq).queue = s.pq := by rw [hpq, buildTree_queue]
  refine (execBuild_of_ready hf htree).trans ?_
  rw [hqueue]
  rfl

/-- R142: only the queue that `BUILD` leaves depends on the queue it finds. -/
theorem buildTree_eq_of_pq (m : CountMem wSym wCnt) (node : Arena wSym wCnt)
    (pq pq' : List (QEntry wSym wCnt)) :
    (buildTree m node pq).node = (buildTree m node pq').node ∧
      (buildTree m node pq).root = (buildTree m node pq').root ∧
      (buildTree m node pq).nodeCount = (buildTree m node pq').nodeCount := by
  unfold buildTree
  split <;> exact ⟨rfl, rfl, rfl⟩

/-- Settles O30: the tree of a count memory depends on neither the arena nor the queue. -/
theorem equalCountsEqualTrees : Obligations.EqualCountsEqualTrees := by
  intro s t hfs hft hts htt hcount
  have hagree := buildTree_agrees s.count s.node t.node s.pq
  obtain ⟨hnode, hroot, hnodes⟩ := buildTree_eq_of_pq s.count t.node s.pq t.pq
  refine ⟨_, _, execBuild_of_ready hfs hts, execBuild_of_ready hft htt, ?_⟩
  rw [← hcount]
  refine ⟨hagree.root.symm.trans hroot, hagree.nodeCount.symm.trans hnodes, fun i hi => ?_⟩
  exact (hagree.node i hi).trans (congrArg (readNode · i) hnode)

/-! ## `NODE_READ` -/

theorem wf_nodeRead_idxField (hw : wSym < 16) {idx : NodeIdx wSym} (hidx : idx ≠ .null)
    {nsel : BitVec 2} (hnsel : nsel ≤ 2) :
    Instr.wf wSym (.nodeRead (idxField idx) nsel) = true := by
  have hfield : (idxField idx).toNat = idx.toNat :=
    BitVec.toNat_setWidth_of_le (Nat.succ_le_of_lt hw)
  rw [Instr.wf, Bool.and_eq_true, decide_eq_true_iff, decide_eq_true_iff, hfield]
  exact ⟨hnsel, (nodeIdx_lt_nNodes_iff idx).2 hidx⟩

/-- R149: with no fault, a tree and operands in range no check of `NODE_READ` fails. -/
theorem execNodeRead_of_ready (hw : wSym < 16) {idx : NodeIdx wSym} (hidx : idx ≠ .null)
    {nsel : BitVec 2} (hnsel : nsel ≤ 2) {s : State.For wSym wCnt} (hf : s.fault = false)
    (ht : s.treeValid = true) :
    execNodeRead (idxField idx) nsel s =
      .next (s.respond .ok (nodeField (s.visibleNode idx) nsel)) := by
  simp [execNodeRead, runChecked_cons, hf, ht, wf_nodeRead_idxField hw hidx hnsel,
    fieldIdx_idxField hw]

/-- R27, R149: the kind and the symbol of a record, with 0 between them. -/
theorem nodeField_kind (r : NodeRec 8 32) :
    (nodeField r 0).extractLsb' 30 2 = r.kind.code ∧ (nodeField r 0).extractLsb' 16 14 = 0 ∧
      (nodeField r 0).extractLsb' 0 16 = r.sym.setWidth 16 := by
  obtain ⟨hhigh, hsym⟩ := (extractLsb'_eq_append_iff (nodeField r 0) 0
    (r.kind.code ++ (0 : BitVec 14)) (r.sym.setWidth 16)).1 BitVec.extractLsb'_eq_self
  obtain ⟨hkind, hzero⟩ := (extractLsb'_eq_append_iff _ _ _ _).1 hhigh
  exact ⟨hkind, hzero, hsym⟩

/-- R149: the two children of a record. -/
theorem nodeField_children (r : NodeRec 8 32) :
    (nodeField r 2).extractLsb' 16 16 = r.left.setWidth 16 ∧
      (nodeField r 2).extractLsb' 0 16 = r.right.setWidth 16 :=
  (extractLsb'_eq_append_iff (nodeField r 2) 0 _ _).1 BitVec.extractLsb'_eq_self

/-- Settles O31: no check fails, and each field group has its fields at their bits. -/
theorem nodeReadAnswers : Obligations.NodeReadAnswers := by
  intro idx nsel s hf ht hidx hnsel
  have hnull : idx ≠ .null := (nodeIdx_lt_nNodes_iff idx).1 (Nat.lt_succ_of_le hidx)
  refine ⟨nodeField (s.visibleNode idx) nsel, s.visibleNode idx,
    execNodeRead_of_ready (by decide) hnull hnsel hf ht, rfl, ?_, ?_, ?_⟩
  · rintro rfl
    obtain ⟨hkind, hzero, hsym⟩ := nodeField_kind (s.visibleNode idx)
    refine ⟨?_, hzero, ?_⟩
    · rw [hkind]
      cases (s.visibleNode idx).kind <;> rfl
    · rw [hsym, BitVec.toNat_setWidth_of_le (by decide)]
  · rintro rfl
    exact BitVec.setWidth_eq _
  · rintro rfl
    obtain ⟨hleft, hright⟩ := nodeField_children (s.visibleNode idx)
    rw [hleft, hright, BitVec.toNat_setWidth_of_le (by decide),
      BitVec.toNat_setWidth_of_le (by decide)]
    exact ⟨rfl, rfl⟩

end Sys2Proof.Machine
end

section
/-!
PROOFS, spec/43_code_table.md. `GEN_CODES` on a tree that gives a table, and the readouts of a code,
pass their checks (R171, R174, R175). A path to a leaf ends there (R173 item 1), and it visits each
`INTERNAL` node at most once, of which a tree has at most `max(1, DISTINCT - 1)` (R173 item 2).
-/

namespace Sys2Proof.Machine

variable {wSym wCnt : Nat}

/-! ## `GEN_CODES` (R171, R172) -/

/-- R171: with no fault, a tree and a table for it, no check of `GEN_CODES` fails. -/
theorem execGenCodes_of_genTable {s : State.For wSym wCnt} {table : CodeTable wSym}
    (hf : s.fault = false) (htree : s.treeValid = true) (htable : genTable s = some table) :
    execGenCodes s = .next ((s.writeCodes table).respond .ok (zext32 s.distinct)) := by
  simp [execGenCodes, runChecked_cons, hf, htree, htable, Instr.wf]

/-- R244: while `FAULT = 1` the fault gate turns `GEN_CODES` away, and nothing is latched. -/
theorem execGenCodes_of_fault {s : State.For wSym wCnt} (hf : s.fault = true) :
    execGenCodes s = .next (s.respond .faulted 0) := by
  rw [execGenCodes, gate_eq, List.cons_append, runChecked_cons, if_pos hf, State.For.raise,
    s.latch_of_fault _ hf]

/-- Settles O33: a well-formed tree gives a table, and it holds the codes of the root's leaves. -/
theorem genCodesCompletes : Obligations.GenCodesCompletes := by
  intro s hf htree h
  obtain ⟨table, htable, hwrites⟩ := h.genTable_completes
  exact ⟨table, execGenCodes_of_genTable hf htree htable,
    State.For.SameTree.codesOk_of_writesCodes (s := s) ⟨rfl, rfl, rfl, rfl, rfl, rfl⟩ h hwrites⟩

/-- The walk of `GEN_CODES` reads nothing but the tree and `DISTINCT`. -/
theorem State.For.SameTree.walk_eq {s t : State.For wSym wCnt} (h : s.SameTree t) (fuel : Nat)
    (i : NodeIdx wSym) (p : Bits) (table : CodeTable wSym) :
    walk t fuel i p table = walk s fuel i p table := by
  have hnode : ∀ j, t.nodeAt j = s.nodeAt j := fun j => by
    rw [State.For.nodeAt, State.For.nodeAt, h.node]
  have hbroken : ∀ j, t.structureBroken j = s.structureBroken j := fun j => by
    rw [State.For.structureBroken, State.For.structureBroken, hnode, h.root, h.distinct]
  induction fuel generalizing i p table with
  | zero => rfl
  | succ fuel ih => simp only [walk, hnode, hbroken, ih]

theorem State.For.SameTree.genTable_eq {s t : State.For wSym wCnt} (h : s.SameTree t) :
    genTable t = genTable s := by
  rw [genTable, genTable, h.root, h.walk_eq]

/-- R172: after its own next state `GEN_CODES` only answers. A check that failed has left `FAULT = 1`
(R243), and a table that was generated is generated again from the same tree. -/
theorem execGenCodes_repeats {s t : State.For wSym wCnt} (h : execGenCodes s = .next t) :
    ∃ err data, execGenCodes t = .next (t.respond err data) := by
  have hfaulted : t.fault = true → ∃ err data, execGenCodes t = .next (t.respond err data) :=
    fun hf => ⟨_, _, execGenCodes_of_fault hf⟩
  cases hf : s.fault with
  | true => exact hfaulted ((execFor_effect (i := .genCodes) h).fault_stays nofun hf).1
  | false =>
    cases htree : s.treeValid with
    | false =>
      have hraise : execGenCodes s = .next (s.raise .sequence) := by
        simp [execGenCodes, runChecked_cons, hf, htree, Instr.wf]
      cases hraise.symm.trans h
      exact hfaulted (by simp [Err.fatal])
    | true =>
      cases htable : genTable s with
      | none => simp [execGenCodes, runChecked_cons, hf, htree, htable, Instr.wf] at h
      | some table =>
        cases (execGenCodes_of_genTable hf htree htable).symm.trans h
        have hsame : s.SameTree ((s.writeCodes table).respond .ok (zext32 s.distinct)) :=
          ⟨rfl, rfl, rfl, rfl, rfl, rfl⟩
        exact ⟨_, _, execGenCodes_of_genTable hf htree (hsame.genTable_eq.trans htable)⟩

/-- Settles O34: `GEN_CODES` is none of the writers of the encoder and the decoder, and it repeats. -/
theorem genCodesIdempotent : Obligations.GenCodesIdempotent := by
  intro s t h
  obtain ⟨_, hencoder⟩ := onlyEncoderCommandsWriteEncoder .genCodes s t nofun nofun h
  obtain ⟨hacc, hbits⟩ := hencoder nofun
  obtain ⟨hcursor, hdec⟩ := (exec_effect h).decoder_eq nofun nofun nofun nofun
  obtain ⟨err, data, hagain⟩ := execGenCodes_repeats h
  exact ⟨hacc, hbits, hcursor, hdec, ⟨err, data⟩, hagain⟩

/-! ## Paths to leaves (R170, R173) -/

/-- R39: a valid code is a path from the root to its symbol's leaf. -/
theorem State.For.CodesOk.leads {s : State.For wSym wCnt} (h : s.CodesOk) {sym : Sym wSym}
    (hv : (s.codeAt sym).valid = true) : s.Leads s.root (s.codeAt sym).bits sym := by
  obtain ⟨_, _, hpath⟩ := h sym
  obtain ⟨i, hi, _, hk, hsym⟩ := hpath hv
  exact ⟨i, hi, hk, hsym⟩

/-- R173 item 1: no leaf is an ancestor of another, so a path that leads to a leaf leads to no other
when it goes on. -/
theorem State.For.Leads.sym_eq_of_append {s : State.For wSym wCnt} {i : NodeIdx wSym}
    {p q : Bits} {x y : Sym wSym} (hx : s.Leads i p x) (hy : s.Leads i (p ++ q) y) : x = y := by
  induction p generalizing i with
  | nil =>
    obtain ⟨hk, hsym⟩ := (s.leads_nil_iff i x).1 hx
    cases q with
    | nil => exact hsym.symm.trans ((s.leads_nil_iff i y).1 hy).2
    | cons b q =>
      have hinner := ((s.leads_cons_iff i b q y).1 hy).1
      exact NodeKind.noConfusion (hk.symm.trans hinner)
  | cons b p ih =>
    exact ih ((s.leads_cons_iff i b p x).1 hx).2 ((s.leads_cons_iff i b (p ++ q) y).1 hy).2

/-- Settles O35: two valid codes are paths from the root to leaves. -/
theorem codesArePrefixFree : Obligations.CodesArePrefixFree := by
  rintro s x y h hx hy hne ⟨q, hq⟩
  have hlonger := h.leads hy
  rw [← hq] at hlonger
  exact hne ((h.leads hx).sym_eq_of_append hlonger)

/-! ## The number of nodes of a kind (R38) -/

/-- The indexes of the nodes of the tree that have the kind `k`. -/
def State.For.nodesOf (s : State.For wSym wCnt) (k : NodeKind) : Finset Nat :=
  (Finset.range s.nodeCount.toNat).filter fun n => (s.nodeAt (BitVec.ofNat (wSym + 1) n)).kind = k

theorem State.For.toNat_mem_nodesOf (s : State.For wSym wCnt) (k : NodeKind) (i : NodeIdx wSym) :
    i.toNat ∈ s.nodesOf k ↔ s.InTree i ∧ (s.nodeAt i).kind = k := by
  rw [State.For.nodesOf, Finset.mem_filter, Finset.mem_range, BitVec.ofNat_toNat,
    BitVec.setWidth_eq, State.For.InTree, BitVec.lt_def]

/-- No node has two kinds. -/
theorem State.For.card_nodesOf_add_le (s : State.For wSym wCnt) {k k' : NodeKind} (h : k ≠ k') :
    (s.nodesOf k).card + (s.nodesOf k').card ≤ s.nodeCount.toNat := by
  have hdisjoint : Disjoint (s.nodesOf k) (s.nodesOf k') :=
    Finset.disjoint_filter.2 fun n _ hk hk' => h (hk.symm.trans hk')
  rw [← Finset.card_union_of_disjoint hdisjoint]
  refine (Finset.card_le_card (t := Finset.range s.nodeCount.toNat) ?_).trans_eq
    (Finset.card_range _)
  exact Finset.union_subset (Finset.filter_subset _ _) (Finset.filter_subset _ _)

/-- R26, R38 item 5: each of the `DISTINCT` counted symbols has a leaf. -/
theorem State.For.TreeOk.distinct_le_card_leaves {s : State.For wSym wCnt} (h : s.TreeOk)
    (hcounts : s.CountsOk) : s.distinct.toNat ≤ (s.nodesOf .leaf).card := by
  obtain ⟨_, _, ⟨_, _, hleaf, _⟩, _⟩ := h
  obtain ⟨_, hdistinct⟩ := hcounts
  rw [hdistinct, ← List.toFinset_card_of_nodup (presentSyms_nodup s.count)]
  refine (Finset.card_le_card fun sym hsym => ?_).trans (Finset.card_image_le
    (f := fun n => (s.nodeAt (BitVec.ofNat (wSym + 1) n)).sym))
  have hcounted := (mem_presentSyms s.count sym).1 (List.mem_toFinset.1 hsym)
  obtain ⟨i, hi, hk, rfl⟩ := hleaf sym hcounted
  exact Finset.mem_image.2 ⟨i.toNat, (s.toNat_mem_nodesOf .leaf i).2 ⟨hi, hk⟩, by simp⟩

theorem State.For.TreeSize.nodeCount_le {s : State} (h : s.TreeSize) :
    s.nodeCount.toNat ≤ s.distinct.toNat + max 1 (s.distinct.toNat - 1) := by
  obtain ⟨hd, _, hnodes, _⟩ | ⟨hd, _, hnodes, _⟩ | ⟨_, hnodes, _⟩ := h
  · simp [hd, hnodes]
  · simp [hd, hnodes]
  · omega

/-- R145, R146: a tree has `DISTINCT - 1` merges, or the one synthetic root. -/
theorem State.For.TreeOk.card_inner_le {s : State} (h : s.TreeOk) (hcounts : s.CountsOk) :
    (s.nodesOf .internal).card ≤ max 1 (s.distinct.toNat - 1) := by
  have hkinds := s.card_nodesOf_add_le (k := .internal) (k' := .leaf) nofun
  have hleaves := h.distinct_le_card_leaves hcounts
  have hsize := h.1.nodeCount_le
  omega

/-! ## The length of a code (R173 item 2) -/

/-- A path goes down from `INTERNAL` node to `INTERNAL` node, each below the one before. -/
theorem State.For.TreeOk.length_le_of_follow {s : State} (h : s.TreeOk) {i j : NodeIdx}
    (hi : s.InTree i) {q : Bits} (hq : s.follow i q = some j) :
    q.length ≤ ((s.nodesOf .internal).filter (· ≤ i.toNat)).card := by
  induction q generalizing i with
  | nil => exact Nat.zero_le _
  | cons b q ih =>
    rw [State.For.follow_cons] at hq
    split at hq
    · next hstep =>
      obtain ⟨hk, hchild⟩ := hstep
      have hlt : s.childAt i b < i :=
        (h.childAt_cases ⟨hi, hk⟩ b).resolve_left fun hnull => hchild hnull.1
      have hlt' := BitVec.lt_def.1 hlt
      refine Nat.succ_le_of_lt ((ih (hi.of_lt hlt) hq).trans_lt (Finset.card_lt_card ?_))
      rw [Finset.ssubset_iff_of_subset
        (Finset.monotone_filter_right _ fun n _ hn => hn.trans hlt'.le)]
      refine ⟨i.toNat, ?_, fun hmem => ?_⟩
      · exact Finset.mem_filter.2 ⟨(s.toNat_mem_nodesOf .internal i).2 ⟨hi, hk⟩, le_rfl⟩
      · exact absurd (Finset.mem_filter.1 hmem).2 (not_le.2 hlt')
    · cases hq

/-- R210: the root is no leaf, so that a path from it to a leaf has a step. -/
theorem State.For.TreeOk.one_le_length_of_leads {s : State} (h : s.TreeOk) {q : Bits} {sym : Sym}
    (hq : s.Leads s.root q sym) : 1 ≤ q.length := by
  cases q with
  | nil =>
    have hk := ((s.leads_nil_iff _ sym).1 hq).1
    obtain hroot | hroot := h.root_kind <;> exact NodeKind.noConfusion (hk.symm.trans hroot)
  | cons b q => exact Nat.succ_pos _

/-- Settles O36: a code is a path from the root, and no longer than there are `INTERNAL` nodes. -/
theorem codeLengthsBounded : Obligations.CodeLengthsBounded := by
  intro s x hcounts htree hcodes hv
  have hleads := hcodes.leads hv
  have ⟨j, hpath, _⟩ := hleads
  exact ⟨htree.one_le_length_of_leads hleads,
    (htree.length_le_of_follow htree.root_inTree hpath).trans
      ((Finset.card_filter_le _ _).trans (htree.card_inner_le hcounts))⟩

/-! ## `CODE_LEN` and `CODE_BITS` (R174, R175) -/

/-- R174: with no fault and a code table no check of `CODE_LEN` fails. -/
theorem execCodeLen_of_ready (hw : wSym ≤ 16) (sym : Sym wSym) {s : State.For wSym wCnt}
    (hf : s.fault = false) (hv : s.codesValid = true) :
    execCodeLen (symField sym) s = .next (s.respond .ok (codeLenData (s.codeAt sym))) := by
  simp [execCodeLen, runChecked_cons, hf, hv, wf_codeLen hw, fieldSym_symField hw]

/-- R175: nor does one of `CODE_BITS`, when the code has the word. -/
theorem execCodeBits_of_ready (hw : wSym ≤ 16) (sym : Sym wSym) {word : BitVec 8}
    (hword : word.toNat < Config.codeWords wSym) {s : State.For wSym wCnt} (hf : s.fault = false)
    (hv : s.codesValid = true) :
    execCodeBits (symField sym) word s =
      .next (s.respond .ok (codeBitsData (s.codeAt sym) word)) := by
  simp [execCodeBits, runChecked_cons, hf, hv, wf_codeBits hw, hword, fieldSym_symField hw]

/-- Settles O37: no check fails, and the fields of the answer stand at their bits. -/
theorem codeLenAnswers : Obligations.CodeLenAnswers := by
  intro sym s hf hv
  obtain ⟨hhigh, hlen⟩ := (extractLsb'_eq_append_iff (codeLenData (s.codeAt sym)) 0
    (BitVec.ofBool (s.codeAt sym).valid ++ (0 : BitVec 15)) (BitVec.ofNat 16 (s.codeAt sym).len)).1
      BitVec.extractLsb'_eq_self
  obtain ⟨hvalid, hzero⟩ := (extractLsb'_eq_append_iff _ _ _ _).1 hhigh
  refine ⟨_, execCodeLen_of_ready (by decide) sym hf hv, ?_, hzero, hlen⟩
  simpa using congrArg (·.getLsbD 0) hvalid

/-- R55, R175: bit `32*word + j` of the code stands at bit `31 - j` of the answer. -/
theorem codeBitsData_getLsbD (c : CodeRec) (word : BitVec 8) {j : Nat} (hj : j < 32) :
    (codeBitsData c word).getLsbD (31 - j) = c.bits.getD (32 * word.toNat + j) false := by
  have hbit := packMsb_getMsbD 32 (c.bits.drop (32 * word.toNat)) j hj
  rw [BitVec.getMsbD, decide_eq_true hj, Bool.true_and] at hbit
  rw [codeBitsData, hbit, List.getD_eq_getElem?_getD, List.getElem?_drop,
    List.getD_eq_getElem?_getD]

/-- Settles O38: no check fails, and the answer has the bits of the code from `32*word` on. -/
theorem codeBitsAnswers : Obligations.CodeBitsAnswers := by
  intro sym word s hf hv hword
  exact ⟨_, execCodeBits_of_ready (by decide) sym hword hf hv,
    fun j hj => codeBitsData_getLsbD _ word hj⟩

end Sys2Proof.Machine
end

section
/-!
PROOFS, spec/44_encoder.md. The bit writer loses no bit: the bits of the bytes it emitted, followed
by the pending ones, are the bits appended to it (R190, R191). A flush pads the pending bits to one
byte (R193), so the bytes of a message are its codes followed by zeros (R194).
-/

namespace Sys2Proof.Machine

variable {wSym wCnt : Nat}

/-! ## The bits of a writer (R190) -/

/-- The bits of a byte stream, each byte MSB first (R54). -/
def bytesBits (bytes : List Byte) : Bits := bytes.flatMap fun b => firstBits b 8

@[simp] theorem bytesBits_nil : bytesBits [] = [] := rfl

@[simp] theorem bytesBits_cons (b : Byte) (bytes : List Byte) :
    bytesBits (b :: bytes) = firstBits b 8 ++ bytesBits bytes := rfl

@[simp] theorem bytesBits_append (a b : List Byte) :
    bytesBits (a ++ b) = bytesBits a ++ bytesBits b := List.flatMap_append

/-- R53: bit `j` of the stream stands in byte `j / 8` at position `7 - j mod 8`. -/
theorem bytesBits_getD (bytes : List Byte) {j : Nat} (hj : j < 8 * bytes.length) :
    (bytesBits bytes).getD j false = (bytes.getD (j / 8) 0).getLsbD (7 - j % 8) := by
  induction bytes generalizing j with
  | nil => exact absurd hj (Nat.not_lt_zero j)
  | cons b bytes ih =>
    rw [bytesBits_cons]
    by_cases hfirst : j < 8
    · rw [List.getD_append _ _ _ _ (by simpa using hfirst), firstBits_getD b 8 j hfirst,
        Nat.div_eq_of_lt hfirst, Nat.mod_eq_of_lt hfirst, BitVec.getMsbD, decide_eq_true hfirst,
        Bool.true_and, List.getD_cons_zero]
    · obtain ⟨k, rfl⟩ := Nat.exists_eq_add_of_le' (not_lt.1 hfirst)
      rw [List.length_cons] at hj
      rw [List.getD_append_right _ _ _ _ (by simp), firstBits_length, Nat.add_sub_cancel,
        ih (by omega), Nat.add_div_right k (by decide), Nat.add_mod_right, List.getD_cons_succ]

/-- Past its end a bit sequence reads as zeros. -/
theorem getD_append_replicate_false (bits : Bits) (k j : Nat) :
    (bits ++ List.replicate k false).getD j false = bits.getD j false := by
  rcases lt_or_ge j bits.length with hj | hj
  · exact List.getD_append _ _ _ _ hj
  · rw [List.getD_append_right _ _ _ _ hj, List.getD_eq_default bits false hj,
      List.getD_eq_getElem?_getD, List.getElem?_getD_replicate_default_eq]

/-- R193: a byte packed from at most 8 bits is those bits and zeros below them. -/
theorem firstBits_packMsb_eq_append (bits : Bits) (h : bits.length ≤ 8) :
    firstBits (packMsb 8 bits) 8 = bits ++ List.replicate (8 - bits.length) false := by
  refine List.ext_getElem (by simp; omega) fun i hi _ => ?_
  rw [firstBits_length] at hi
  rw [← List.getD_eq_getElem _ false, ← List.getD_eq_getElem _ false, firstBits_getD _ 8 i hi,
    packMsb_getMsbD 8 bits i hi, getD_append_replicate_false]

/-- Every bit appended to a writer: those of the bytes emitted, then the pending ones. -/
def BitWriter.bits (w : BitWriter) : Bits := bytesBits w.out ++ w.acc

theorem BitWriter.append_bits (w : BitWriter) (b : Bool) (h : w.acc.length < 8) :
    (w.append b).bits = w.bits ++ [b] := by
  rcases w.append_spec b h with ⟨_, he⟩ | ⟨hfull, he⟩
  · simp [he, bits]
  · simp [he, bits, firstBits_packMsb_eq_append, hfull]

/-- R190, R191: no appended bit is lost, and none is moved. -/
theorem BitWriter.appendAll_bits (w : BitWriter) (code : Bits) (h : w.acc.length < 8) :
    (w.appendAll code).bits = w.bits ++ code := by
  induction code generalizing w with
  | nil => simp
  | cons b code ih =>
    have hlt : (w.append b).acc.length < 8 := (w.appendAll_length [b] h).1
    rw [appendAll_cons, ih _ hlt, w.append_bits b h, List.append_assoc, List.singleton_append]

/-! ## `ENC_SYM` (R191) -/

/-- What `ENC_SYM` makes of a state when it appends a code: the writer's bits and bytes, `ENC_BITS`
grown by the code's length, and the number of bytes answered (R191). -/
def State.For.appendCode (s : State.For wSym wCnt) (code : Bits) : State.For wSym wCnt :=
  let w := BitWriter.appendAll ⟨s.encAcc, []⟩ code
  (s.writeEncoder w.acc (s.encBits + BitVec.ofNat 32 code.length) w.out).respond .ok
    (BitVec.ofNat 32 w.out.length)

@[simp] theorem State.For.appendCode_encBits (s : State.For wSym wCnt) (code : Bits) :
    (s.appendCode code).encBits = s.encBits + BitVec.ofNat 32 code.length := rfl

/-- R191: with no fault, a code for the symbol and room for it, no check of `ENC_SYM` fails. -/
theorem execEncSym_of_ready (hw : wSym ≤ 16) (sym : Sym wSym) {s : State.For wSym wCnt}
    (hf : s.fault = false) (hv : s.codesValid = true) (hcode : (s.codeAt sym).valid = true)
    (hroom : s.encBits.toNat + (s.codeAt sym).bits.length ≤ 2 ^ 32 - 1) :
    execEncSym (symField sym) s = .next (s.appendCode (s.codeAt sym).bits) := by
  have hfits : bitCountOverflows s.encBits (s.codeAt sym).bits.length = false :=
    decide_eq_false (not_lt.2 hroom)
  simp [execEncSym, runChecked_cons, hf, hv, hcode, hfits, wf_encSym hw, fieldSym_symField hw,
    State.For.appendCode]

/-- Settles O40: no check fails, and the writer keeps every bit (`BitWriter.appendAll_bits`). -/
theorem encSymAppendsCode : Obligations.EncSymAppendsCode := by
  intro sym s hf hv hcode hpending hroom
  have hbits := BitWriter.appendAll_bits ⟨s.encAcc, []⟩ (s.codeAt sym).bits hpending
  obtain ⟨hlt, hlen⟩ := BitWriter.appendAll_length ⟨s.encAcc, []⟩ (s.codeAt sym).bits hpending
  refine ⟨_, _, execEncSym_of_ready (by decide) sym hf hv hcode hroom, hbits, ?_⟩
  rw [List.length_nil, Nat.mul_zero, Nat.zero_add] at hlen
  rw [← hlen, Nat.mul_add_mod]
  exact (Nat.mod_eq_of_lt hlt).symm

/-! ## `ENC_FLUSH` (R192, R193) -/

/-- R192: with no fault and a code table no check of `ENC_FLUSH` fails. -/
theorem execEncFlush_of_ready {s : State.For wSym wCnt} (hf : s.fault = false)
    (hv : s.codesValid = true) :
    execEncFlush s =
      .next ((s.writeEncoder [] 0 (flushBytes s.encAcc)).respond .ok s.encBits) := by
  simp [execEncFlush, runChecked_cons, hf, hv, Instr.wf, zext32]

@[simp] theorem flushBytes_nil : flushBytes [] = [] := rfl

theorem flushBytes_of_ne_nil {acc : Bits} (h : acc ≠ []) : flushBytes acc = [packMsb 8 acc] :=
  if_pos (List.length_pos_iff.2 h)

/-- Settles O41: no check fails, and a byte is emitted exactly when a bit is pending. -/
theorem encFlushEndsMessage : Obligations.EncFlushEndsMessage := by
  intro s hf hv
  refine ⟨flushBytes s.encAcc, execEncFlush_of_ready hf hv, fun hempty => ?_, fun hpending => ?_⟩
  · rw [hempty, flushBytes_nil]
  · exact ⟨_, flushBytes_of_ne_nil hpending, packMsb_getLsbD s.encAcc⟩

/-! ## The bytes of a message (R194) -/

/-- The bytes of a message that ends now: those emitted and those of its `ENC_FLUSH`. -/
def BitWriter.flush (w : BitWriter) : List Byte := w.out ++ flushBytes w.acc

theorem flushBytes_length {acc : Bits} (h : acc.length < 8) :
    (flushBytes acc).length = (acc.length + 7) / 8 := by
  cases acc with
  | nil => rfl
  | cons b acc =>
    rw [flushBytes_of_ne_nil (List.cons_ne_nil b acc), List.length_singleton]
    rw [List.length_cons] at h ⊢
    omega

/-- R193: a flush emits the pending bits, and zeros up to the end of their byte. -/
theorem bytesBits_flushBytes {acc : Bits} (h : acc.length < 8) :
    ∃ k, bytesBits (flushBytes acc) = acc ++ List.replicate k false := by
  cases acc with
  | nil => exact ⟨0, rfl⟩
  | cons b acc =>
    refine ⟨8 - (b :: acc).length, ?_⟩
    rw [flushBytes_of_ne_nil (List.cons_ne_nil b acc), bytesBits_cons, bytesBits_nil,
      List.append_nil, firstBits_packMsb_eq_append _ h.le]

/-- R194: a message of `n` bits takes `ceil(n / 8)` bytes. -/
theorem BitWriter.flush_appendAll_length (bits : Bits) :
    (BitWriter.appendAll ⟨[], []⟩ bits).flush.length = (bits.length + 7) / 8 := by
  obtain ⟨hlt, hlen⟩ := BitWriter.appendAll_length ⟨[], []⟩ bits (by decide)
  rw [flush, List.length_append, flushBytes_length hlt]
  simp only [List.length_nil] at hlen
  omega

/-- R194: the bits of a message's bytes are the bits appended, then zeros. -/
theorem BitWriter.bytesBits_flush_appendAll (bits : Bits) :
    ∃ k, bytesBits (BitWriter.appendAll ⟨[], []⟩ bits).flush =
      bits ++ List.replicate k false := by
  obtain ⟨k, hk⟩ := bytesBits_flushBytes (BitWriter.appendAll_length ⟨[], []⟩ bits (by decide)).1
  refine ⟨k, ?_⟩
  rw [flush, bytesBits_append, hk, ← List.append_assoc]
  exact congrArg (· ++ _) (BitWriter.appendAll_bits ⟨[], []⟩ bits (by decide))

/-- R53, R194: bit `j` of the bits appended stands in byte `j / 8`, zeros after the last. -/
theorem BitWriter.flush_appendAll_getLsbD (bits : Bits) {j : Nat}
    (hj : j < 8 * (BitWriter.appendAll ⟨[], []⟩ bits).flush.length) :
    ((BitWriter.appendAll ⟨[], []⟩ bits).flush.getD (j / 8) 0).getLsbD (7 - j % 8) =
      bits.getD j false := by
  obtain ⟨k, hk⟩ := BitWriter.bytesBits_flush_appendAll bits
  rw [← bytesBits_getD _ hj, hk, getD_append_replicate_false]

/-- R191: a code appended first only adds the bytes it completes in front. -/
theorem BitWriter.flush_appendAll_append (acc a b : Bits) :
    (BitWriter.appendAll ⟨acc, []⟩ (a ++ b)).flush =
      (BitWriter.appendAll ⟨acc, []⟩ a).out ++
        (BitWriter.appendAll ⟨(BitWriter.appendAll ⟨acc, []⟩ a).acc, []⟩ b).flush := by
  rw [BitWriter.appendAll_append, BitWriter.appendAll_out, BitWriter.flush, BitWriter.flush,
    List.append_assoc]

/-! ## The commands of a message (R194) -/

/-- The codes of a sequence of symbols, one after another. -/
def State.For.codesOf (s : State.For wSym wCnt) (xs : List (Sym wSym)) : Bits :=
  xs.flatMap fun x => (s.codeAt x).bits

@[simp] theorem State.For.codesOf_nil (s : State.For wSym wCnt) : s.codesOf [] = [] := rfl

@[simp] theorem State.For.codesOf_appendCode (s : State.For wSym wCnt) (code : Bits)
    (xs : List (Sym wSym)) : (s.appendCode code).codesOf xs = s.codesOf xs := rfl

@[simp] theorem State.For.codesOf_cons (s : State.For wSym wCnt) (x : Sym wSym)
    (xs : List (Sym wSym)) : s.codesOf (x :: xs) = (s.codeAt x).bits ++ s.codesOf xs := rfl

@[simp] theorem encodeSeq_nil : encodeSeq ([] : List (Sym wSym)) = [.encFlush] := rfl

@[simp] theorem encodeSeq_cons (x : Sym wSym) (xs : List (Sym wSym)) :
    encodeSeq (x :: xs) = .encSym (symField x) :: encodeSeq xs := rfl

/-- R191: `ENC_BITS` with room for `n` bits grows by `n` without wrapping. -/
theorem toNat_add_ofNat_of_le {b : BitCount} {n : Nat} (h : b.toNat + n ≤ 2 ^ 32 - 1) :
    (b + BitVec.ofNat 32 n).toNat = b.toNat + n := by
  rw [BitVec.toNat_add, BitVec.toNat_ofNat, Nat.add_mod_mod, Nat.mod_eq_of_lt (by omega)]

/-- R194: the commands of a message complete. They emit what is pending and the codes, padded to
whole bytes, and leave the encoder empty; the last one answers `ENC_BITS` grown by the codes'
length; all else but the responses is as it was. -/
theorem execAll_encodeSeq (xs : List Sym) {s : State} (hf : s.fault = false)
    (hv : s.codesValid = true) (hcodes : ∀ x ∈ xs, (s.codeAt x).valid = true)
    (hroom : s.encBits.toNat + (s.codesOf xs).length ≤ 2 ^ 32 - 1) :
    ∃ rs, execAll exec (encodeSeq xs) s = .next { s with
      encAcc := [], encBits := 0,
      bytesOut := s.bytesOut ++ (BitWriter.appendAll ⟨s.encAcc, []⟩ (s.codesOf xs)).flush,
      responses := rs ++ [⟨.ok, s.encBits + BitVec.ofNat 32 (s.codesOf xs).length⟩] } := by
  induction xs generalizing s with
  | nil =>
    have hflush : exec .encFlush s = _ := execEncFlush_of_ready hf hv
    rw [State.For.codesOf_nil, List.length_nil, BitVec.add_zero, encodeSeq_nil, execAll, hflush]
    exact ⟨s.responses, rfl⟩
  | cons x xs ih =>
    rw [State.For.codesOf_cons, List.length_append] at hroom
    have hfirst : exec (.encSym (symField x)) s = _ :=
      execEncSym_of_ready (by decide) x hf hv (hcodes x List.mem_cons_self) (by omega)
    obtain ⟨rs, hrest⟩ := ih (s := s.appendCode (s.codeAt x).bits) hf hv
      (fun y hy => hcodes y (List.mem_cons_of_mem x hy)) (by
        rw [State.For.appendCode_encBits, toNat_add_ofNat_of_le (by omega),
          State.For.codesOf_appendCode, Nat.add_assoc]
        exact hroom)
    refine ⟨rs, ?_⟩
    rw [encodeSeq_cons, execAll, hfirst, State.For.codesOf_cons, BitWriter.flush_appendAll_append,
      ← List.append_assoc, List.length_append, BitVec.ofNat_add, ← BitVec.add_assoc]
    exact hrest

/-- Settles O42: the commands complete (`execAll_encodeSeq`), and the bytes of the codes are theirs
with zeros after them (`BitWriter.flush_appendAll_getLsbD`). -/
theorem messagePacksCodes : Obligations.MessagePacksCodes := by
  intro s xs hf hv hacc hbits hcodes hroom
  obtain ⟨rs, hrun⟩ := execAll_encodeSeq xs hf hv hcodes
    (by simpa [hbits, State.For.codesOf] using hroom)
  rw [hacc, hbits] at hrun
  refine ⟨_, _, _, rfl, hrun, rfl, ?_, BitWriter.flush_appendAll_length _,
    fun j hj => BitWriter.flush_appendAll_getLsbD _ hj⟩
  rw [List.getLast?_concat, BitVec.ofNat_eq_ofNat, BitVec.zero_add]
  rfl

end Sys2Proof.Machine
end

section
/-!
PROOFS, spec/45_decoder.md. With no fault, a tree and room in `DEC_BITS`, `DEC_BYTE` completes when
its bit steps do (`execDecByte_of_ready`), and the bit steps read the tree only
(`State.For.SameTree.decRun_eq`). So a payload's `DEC_BYTE`s do the bit steps of its bits in order,
however they are split (R214), and the bits of a code lead from the root to its leaf, where the
decoder emits the symbol and is at the root again (R216).
-/

namespace Sys2Proof.Machine

variable {wSym wCnt : Nat}

/-! ## The bit steps (R211) -/

/-- R211: at `NULL` or the sentinel nothing moves. -/
theorem decBit_of_skip {s : State.For wSym wCnt} {d : Decoder wSym}
    (hskip : d.cursor = .null ∨ (s.nodeAt d.cursor).kind = .sentinel) (b : Bool) :
    decBit s d b = some d := if_pos hskip

/-- R211: from a node that does not break R38 the step goes to the child of the bit. -/
theorem decBit_of_not_skip {s : State.For wSym wCnt} {d : Decoder wSym}
    (hskip : ¬ (d.cursor = .null ∨ (s.nodeAt d.cursor).kind = .sentinel))
    (hbroken : s.structureBroken d.cursor = false) (b : Bool) :
    decBit s d b =
      if s.childAt d.cursor b ≠ .null ∧ (s.nodeAt (s.childAt d.cursor b)).kind = .leaf then
        some ⟨s.root, d.out ++ [(s.nodeAt (s.childAt d.cursor b)).sym]⟩
      else some ⟨s.childAt d.cursor b, d.out⟩ := by
  rw [decBit, if_neg hskip, hbroken]
  rfl

/-- A bit step emits at most one symbol. -/
theorem decBit_out_length_le {s : State.For wSym wCnt} {d d' : Decoder wSym} {b : Bool}
    (h : decBit s d b = some d') : d'.out.length ≤ d.out.length + 1 := by
  obtain ⟨_, hskip⟩ | ⟨_, hstop⟩ | ⟨c, _, ⟨hemit, _⟩ | ⟨hmove, _⟩⟩ := decBit_cases s d b
  · cases hskip.symm.trans h
    exact Nat.le_succ _
  · cases hstop.symm.trans h
  · cases hemit.symm.trans h
    simp
  · cases hmove.symm.trans h
    exact Nat.le_succ _

theorem decRun_out_length_le {s : State.For wSym wCnt} {d d' : Decoder wSym} {bits : Bits}
    (h : decRun s d bits = some d') : d'.out.length ≤ d.out.length + bits.length := by
  induction bits generalizing d with
  | nil =>
    cases h
    exact Nat.le_refl _
  | cons b bits ih =>
    rw [decRun_cons] at h
    obtain ⟨d1, hbit, hrest⟩ := Option.bind_eq_some_iff.1 h
    have hone := decBit_out_length_le hbit
    have hmore := ih hrest
    rw [List.length_cons]
    omega

/-- R214: bit steps may stop anywhere and go on with nothing emitted yet. -/
theorem exists_of_decRun_append {s : State.For wSym wCnt} {c : NodeIdx wSym} {p q : Bits}
    {d : Decoder wSym} (h : decRun s ⟨c, []⟩ (p ++ q) = some d) :
    ∃ d1 d2, decRun s ⟨c, []⟩ p = some d1 ∧ decRun s ⟨d1.cursor, []⟩ q = some d2 ∧
      d = ⟨d2.cursor, d1.out ++ d2.out⟩ := by
  rw [decRun_append] at h
  obtain ⟨d1, hp, hq⟩ := Option.bind_eq_some_iff.1 h
  rw [decRun_out] at hq
  obtain ⟨d2, hq, hd⟩ := Option.map_eq_some_iff.1 hq
  exact ⟨d1, d2, hp, hq, hd.symm⟩

/-- The bit steps read the tree only (R214). -/
theorem State.For.SameTree.decRun_eq {s t : State.For wSym wCnt} (h : s.SameTree t)
    (d : Decoder wSym) (bits : Bits) : decRun t d bits = decRun s d bits := by
  obtain ⟨hcount, htotal, hdistinct, hnode, hroot, hnodes⟩ := h
  cases s
  cases t
  subst hcount htotal hdistinct hnode hroot hnodes
  induction bits generalizing d with
  | nil => rfl
  | cons b bits ih =>
    rw [decRun_cons, decRun_cons, funext ih]
    rfl

/-! ## `DEC_BYTE` (R212) -/

/-- What `DEC_BYTE` of `n` bits makes of a state when its bit steps end in `d`: their cursor and
symbols, `DEC_BITS` grown by `n`, and the number of symbols answered (R212). -/
def State.For.afterBits (s : State.For wSym wCnt) (n : Nat) (d : Decoder wSym) :
    State.For wSym wCnt :=
  (s.writeDecoder d.cursor (s.decBits + BitVec.ofNat 32 n) d.out).respond .ok
    (BitVec.ofNat 32 d.out.length)

@[simp] theorem State.For.afterBits_decBits (s : State.For wSym wCnt) (n : Nat)
    (d : Decoder wSym) : (s.afterBits n d).decBits = s.decBits + BitVec.ofNat 32 n := rfl

theorem State.For.sameTree_afterBits (s : State.For wSym wCnt) (n : Nat) (d : Decoder wSym) :
    s.SameTree (s.afterBits n d) := ⟨rfl, rfl, rfl, rfl, rfl, rfl⟩

/-- The state with other responses. -/
def State.For.withResponses (s : State.For wSym wCnt) (rs : List Response) : State.For wSym wCnt :=
  { s with responses := rs }

/-- R214: but for the responses, two `DEC_BYTE`s are one of all their bits. -/
theorem State.For.withResponses_afterBits_afterBits (s : State.For wSym wCnt) (m n : Nat)
    (d1 d2 : Decoder wSym) (rs : List Response) :
    ((s.afterBits m d1).afterBits n d2).withResponses rs =
      (s.afterBits (m + n) ⟨d2.cursor, d1.out ++ d2.out⟩).withResponses rs := by
  simp [State.For.afterBits, State.For.writeDecoder, State.For.respond, State.For.withResponses,
    BitVec.ofNat_add, BitVec.add_assoc]

/-- R77: 1 to 8 bits are in range. -/
theorem wf_decByte (byte : Byte) {nbits : BitVec 4} (h1 : 1 ≤ nbits.toNat) (h8 : nbits.toNat ≤ 8) :
    Instr.wf wSym (.decByte byte nbits) = true := by
  simpa [Instr.wf, BitVec.le_def] using And.intro h1 h8

/-- R212: with no fault, a tree, 1 to 8 bits, room for them and bit steps that complete, `DEC_BYTE`
completes. -/
theorem execDecByte_of_ready {byte : Byte} {nbits : BitVec 4} {s : State.For wSym wCnt}
    {d : Decoder wSym} (hf : s.fault = false) (ht : s.treeValid = true) (h1 : 1 ≤ nbits.toNat)
    (h8 : nbits.toNat ≤ 8) (hroom : s.decBits.toNat + nbits.toNat ≤ 2 ^ 32 - 1)
    (hrun : decRun s ⟨s.decCursor, []⟩ (firstBits byte nbits.toNat) = some d) :
    execDecByte byte nbits s = .next (s.afterBits nbits.toNat d) := by
  have hfits : bitCountOverflows s.decBits nbits.toNat = false := decide_eq_false (not_lt.2 hroom)
  simp [execDecByte, runChecked_cons, hf, ht, hfits, wf_decByte byte h1 h8, hrun,
    State.For.afterBits]

/-- Settles O44: on a well-formed tree the bit steps complete (`TreeOk.decRun_completes`). -/
theorem decByteCompletes : Obligations.DecByteCompletes := by
  intro byte nbits s hf ht h1 h8 hroom htree hcursor
  obtain ⟨d, hrun, _⟩ :=
    htree.decRun_completes (d := ⟨s.decCursor, []⟩) hcursor (firstBits byte nbits.toNat)
  have hexec : exec (.decByte byte nbits) s = _ := execDecByte_of_ready hf ht h1 h8 hroom hrun
  rw [State.For.afterBits, BitVec.ofNat_toNat] at hexec
  refine ⟨d.cursor, d.out, hexec, hrun, ?_⟩
  simpa using decRun_out_length_le hrun

/-- Settles O45: the one bit step skips, emits a leaf child's symbol, or moves. -/
theorem decByteOneBit : Obligations.DecByteOneBit := by
  intro byte s hf ht hroom hbroken
  have hexec : ∀ d, decBit s ⟨s.decCursor, []⟩ (byte.getLsbD 7) = some d →
      exec (.decByte byte 1) s = .next (s.afterBits 1 d) := fun d hbit =>
    execDecByte_of_ready hf ht (by decide) (by decide) (by simpa using hroom)
      ((decRun_cons ..).trans (Option.bind_eq_some_iff.2 ⟨d, hbit, rfl⟩))
  by_cases hskip : s.decCursor = .null ∨ (s.nodeAt s.decCursor).kind = .sentinel
  · exact ⟨_, s.decCursor, [], rfl, hexec _ (decBit_of_skip hskip _),
      (if_pos hskip).mpr ⟨rfl, rfl⟩⟩
  have hbit := decBit_of_not_skip (d := ⟨s.decCursor, []⟩) hskip hbroken (byte.getLsbD 7)
  split at hbit
  · next hleaf =>
    exact ⟨_, _, _, rfl, hexec _ hbit, (if_neg hskip).mpr ((if_pos hleaf).mpr ⟨rfl, rfl⟩)⟩
  · next hleaf =>
    exact ⟨_, _, _, rfl, hexec _ hbit, (if_neg hskip).mpr ((if_neg hleaf).mpr ⟨rfl, rfl⟩)⟩

/-- R54: the first `m + n` bits of a word are its first `m`, then the first `n` of the word shifted
left by `m`. -/
theorem firstBits_add {w : Nat} (v : BitVec w) (m n : Nat) :
    firstBits v (m + n) = firstBits v m ++ firstBits (v <<< m) n := by
  simp only [firstBits, List.range_add, List.map_append, List.map_map]
  congr 1
  exact List.map_congr_left fun i _ => by simp [Nat.add_comm]

/-- Settles O46: the bit steps of the second `DEC_BYTE` go on where those of the first ended
(`exists_of_decRun_append`). -/
theorem decByteSplits : Obligations.DecByteSplits := by
  intro byte m n s hf ht hm hn h8 hroom htree hcursor
  have hadd : (m + n).toNat = m.toNat + n.toNat := BitVec.toNat_add_of_lt (by omega)
  obtain ⟨d, hrun, _⟩ :=
    htree.decRun_completes (d := ⟨s.decCursor, []⟩) hcursor (firstBits byte (m + n).toNat)
  have hsplit := hrun
  rw [hadd, firstBits_add] at hsplit
  obtain ⟨d1, d2, hrun1, hrun2, rfl⟩ := exists_of_decRun_append hsplit
  rw [← (s.sameTree_afterBits m.toNat d1).decRun_eq] at hrun2
  have hroom2 : (s.afterBits m.toNat d1).decBits.toNat + n.toNat ≤ 2 ^ 32 - 1 := by
    rwa [State.For.afterBits_decBits, toNat_add_ofNat_of_le (by omega)]
  have hexec : exec (.decByte byte (m + n)) s = _ :=
    execDecByte_of_ready hf ht (by omega) (by omega) (by omega) hrun
  rw [hadd] at hexec
  refine ⟨_, _, _, _, _, _, hexec, execDecByte_of_ready hf ht hm (by omega) (by omega) hrun1,
    execDecByte_of_ready hf ht hn (by omega) hroom2 hrun2, rfl, List.append_assoc _ _ _, ?_,
    s.withResponses_afterBits_afterBits ..⟩
  rw [List.length_append, BitVec.ofNat_add]

/-- Settles O47: the bits are read as `firstBits` of the byte, and no check looks at the byte. -/
theorem paddingNeverRead : Obligations.PaddingNeverRead := by
  intro b1 b2 nbits s hsame
  have hbits : firstBits b1 nbits.toNat = firstBits b2 nbits.toNat := by
    refine List.map_congr_left fun i hi => ?_
    simp only [BitVec.getMsbD, hsame i (List.mem_range.1 hi)]
  change execDecByte b1 nbits s = execDecByte b2 nbits s
  rw [execDecByte, execDecByte, hbits]
  rfl

/-! ## `DEC_END` (R213) -/

/-- R213: with no fault and a tree no check of `DEC_END` fails. -/
theorem execDecEnd_of_ready {s : State.For wSym wCnt} (hf : s.fault = false)
    (ht : s.treeValid = true) :
    execDecEnd s = .next ((s.writeDecoder s.root 0 []).respond
      (if s.decCursor ≠ s.root then .truncated else .ok) s.decBits) := by
  simp [execDecEnd, runChecked_cons, hf, ht, Instr.wf, zext32]

theorem State.For.writeDecoder_nil (s : State.For wSym wCnt) (cursor : NodeIdx wSym)
    (bits : BitCount) :
    s.writeDecoder cursor bits [] = { s with decCursor := cursor, decBits := bits } := by
  simp [State.For.writeDecoder]

/-- Settles O48: no check fails, and only the cursor decides the answer's code. -/
theorem decEndEndsPayload : Obligations.DecEndEndsPayload := by
  intro s hf ht
  refine ⟨_, (execDecEnd_of_ready hf ht).trans (by rw [State.For.writeDecoder_nil]; rfl),
    fun hroot => if_neg (not_not.2 hroot), fun hroot => if_pos hroot⟩

/-! ## The payload of a message (R216) -/

/-- The commands of a list run after those of another that complete (R105). -/
theorem execAll_append (run : Instr → State.For wSym wCnt → Outcome wSym wCnt) (is js : List Instr)
    {s t : State.For wSym wCnt} (h : execAll run is s = .next t) :
    execAll run (is ++ js) s = execAll run js t := by
  induction is generalizing s with
  | nil => cases h; rfl
  | cons i is ih =>
    rw [List.cons_append, execAll]
    rw [execAll] at h
    cases hi : run i s with
    | next u =>
      rw [hi] at h
      exact ih h
    | fault f => rw [hi] at h; cases h
    | refused r => rw [hi] at h; cases h

/-- R54: the first of a word's first bits are its first bits. -/
theorem take_firstBits {w : Nat} (v : BitVec w) {m n : Nat} (h : m ≤ n) :
    (firstBits v n).take m = firstBits v m := by
  rw [firstBits, ← List.map_take, List.take_range, Nat.min_eq_left h, firstBits]

/-- R84, R214: the `DEC_BYTE`s of a payload of `n` bits do the bit steps of its first `n` bits, and
complete when these do. -/
theorem execAll_payloadBytes (bytes : List Byte) {n : Nat} {s : State} {d : Decoder 8}
    (hf : s.fault = false) (ht : s.treeValid = true) (hlen : bytes.length = (n + 7) / 8)
    (hroom : s.decBits.toNat + n ≤ 2 ^ 32 - 1)
    (hrun : decRun s ⟨s.decCursor, []⟩ ((bytesBits bytes).take n) = some d) :
    ∃ rs, execAll exec (payloadBytes bytes n) s =
      .next ((s.afterBits n d).withResponses rs) := by
  induction bytes, n using payloadBytes.induct generalizing s d with
  | case1 n =>
    obtain rfl : n = 0 := by rw [List.length_nil] at hlen; omega
    cases hrun
    exact ⟨s.responses, by
      simp [payloadBytes, execAll, State.For.afterBits, State.For.withResponses, State.For.respond]⟩
  | case2 b n =>
    rw [List.length_singleton] at hlen
    have hn : (BitVec.ofNat 4 n).toNat = n := Nat.mod_eq_of_lt (by omega)
    rw [bytesBits_cons, bytesBits_nil, List.append_nil, take_firstBits b (by omega), ← hn] at hrun
    have hexec : exec (.decByte b (BitVec.ofNat 4 n)) s = _ :=
      execDecByte_of_ready hf ht (by omega) (by omega) (by omega) hrun
    rw [payloadBytes, execAll, hexec, hn]
    exact ⟨_, rfl⟩
  | case3 b bs n hbs ih =>
    have hpos := List.length_pos_iff.2 hbs
    rw [List.length_cons] at hlen
    obtain ⟨k, rfl⟩ := Nat.exists_eq_add_of_le (show 8 ≤ n by omega)
    rw [Nat.add_sub_cancel_left] at ih
    have htake : (bytesBits (b :: bs)).take (8 + k) = firstBits b 8 ++ (bytesBits bs).take k := by
      simpa using List.take_length_add_append k (l₁ := firstBits b 8) (l₂ := bytesBits bs)
    rw [htake] at hrun
    obtain ⟨d1, d2, hrun1, hrun2, rfl⟩ := exists_of_decRun_append hrun
    have hexec : exec (.decByte b 8) s = .next (s.afterBits 8 d1) :=
      execDecByte_of_ready hf ht (by decide) (by decide) (show _ + 8 ≤ _ by omega) hrun1
    rw [← (s.sameTree_afterBits 8 d1).decRun_eq] at hrun2
    obtain ⟨rs, hrest⟩ := ih (s := s.afterBits 8 d1) hf ht (by omega)
      (by rw [State.For.afterBits_decBits, toNat_add_ofNat_of_le (by omega)]; omega) hrun2
    refine ⟨rs, ?_⟩
    rw [payloadBytes, execAll, hexec, Nat.add_sub_cancel_left,
      ← State.For.withResponses_afterBits_afterBits]
    · exact hrest
    · exact hbs

/-- R84, R213: a payload whose bit steps go from the root to the root emits their symbols, and its
`DEC_END` answers OK and the bit count. -/
theorem execAll_decodePayload (bytes : List Byte) {n : Nat} {s : State} {xs : List Sym}
    (hf : s.fault = false) (ht : s.treeValid = true) (hcursor : s.decCursor = s.root)
    (hdec : s.decBits = 0) (hlen : bytes.length = (n + 7) / 8) (hroom : n ≤ 2 ^ 32 - 1)
    (hrun : decRun s ⟨s.root, []⟩ ((bytesBits bytes).take n) = some ⟨s.root, xs⟩) :
    ∃ u rs, execAll exec (decodePayload bytes n) s = .next u ∧ u.symsOut = s.symsOut ++ xs ∧
      u.responses = rs ++ [⟨.ok, BitVec.ofNat 32 n⟩] := by
  obtain ⟨rs, hbytes⟩ := execAll_payloadBytes bytes hf ht hlen (by simpa [hdec] using hroom)
    (d := ⟨s.root, xs⟩) (by rwa [hcursor])
  have hend : exec .decEnd ((s.afterBits n ⟨s.root, xs⟩).withResponses rs) = _ :=
    execDecEnd_of_ready hf ht
  refine ⟨_, rs, by rw [decodePayload, execAll_append exec _ _ hbytes, execAll, hend]; rfl, ?_, ?_⟩
  · simp [State.For.afterBits, State.For.withResponses]
  · simp [State.For.afterBits, State.For.withResponses, hdec]

/-- R211: from an `INTERNAL` node the bit steps of a path to a leaf emit the leaf's symbol, no
other, and end at the root. -/
theorem State.For.TreeOk.decRun_of_leads {s : State} (h : s.TreeOk) {i : NodeIdx}
    (hi : s.InnerAt i) {q : Bits} {x : Sym} (hq : s.Leads i q x) (out : List Sym) :
    decRun s ⟨i, out⟩ q = some ⟨s.root, out ++ [x]⟩ := by
  induction q generalizing i with
  | nil =>
    have hleaf := ((s.leads_nil_iff i x).1 hq).1
    exact NodeKind.noConfusion (hi.2.symm.trans hleaf)
  | cons b q ih =>
    have hc := ((s.leads_cons_iff i b q x).1 hq).2
    have hnull : s.childAt i b ≠ .null := fun h0 => s.not_leads_null q x (h0 ▸ hc)
    rw [decRun_cons, h.decBit_of_inner (d := ⟨i, out⟩) hi]
    cases q with
    | nil =>
      obtain ⟨hk, hsym⟩ := (s.leads_nil_iff _ x).1 hc
      rw [if_pos ⟨hnull, hk⟩, hsym]
      rfl
    | cons b' q =>
      have hk := ((s.leads_cons_iff _ b' q x).1 hc).1
      have hlt := (h.childAt_cases hi b).resolve_left fun h0 => hnull h0.1
      rw [if_neg fun hleaf => NodeKind.noConfusion (hk.symm.trans hleaf.2)]
      exact ih ⟨hi.1.of_lt hlt, hk⟩ hc

/-- A path from the root to a leaf has a first step. -/
theorem State.For.TreeOk.innerAt_root_of_leads {s : State} (h : s.TreeOk) {q : Bits} {x : Sym}
    (hq : s.Leads s.root q x) : s.InnerAt s.root := by
  refine ⟨h.root_inTree, ?_⟩
  cases q with
  | nil =>
    have hleaf := ((s.leads_nil_iff s.root x).1 hq).1
    obtain hk | hk := h.root_kind <;> exact NodeKind.noConfusion (hk.symm.trans hleaf)
  | cons b q => exact ((s.leads_cons_iff s.root b q x).1 hq).1

/-- R216: the bit steps of the codes of `xs` from the root emit `xs` and end at the root. -/
theorem State.For.TreeOk.decRun_codesOf {s : State} (h : s.TreeOk) (hcodes : s.CodesOk)
    (xs : List Sym) (hxs : ∀ x ∈ xs, (s.codeAt x).valid = true) (out : List Sym) :
    decRun s ⟨s.root, out⟩ (s.codesOf xs) = some ⟨s.root, out ++ xs⟩ := by
  induction xs generalizing out with
  | nil => rw [State.For.codesOf_nil, decRun_nil, List.append_nil]
  | cons x xs ih =>
    obtain ⟨hx, hrest⟩ := List.forall_mem_cons.1 hxs
    have hpath := hcodes.leads hx
    rw [State.For.codesOf_cons, decRun_append,
      h.decRun_of_leads (h.innerAt_root_of_leads hpath) hpath, Option.bind_some, ih hrest,
      List.append_assoc, List.singleton_append]

/-- R194: the first `n` bits of the bytes of a message of `n` bits are the message's. -/
theorem BitWriter.take_bytesBits_flush_appendAll (bits : Bits) :
    (bytesBits (BitWriter.appendAll ⟨[], []⟩ bits).flush).take bits.length = bits := by
  obtain ⟨k, hk⟩ := BitWriter.bytesBits_flush_appendAll bits
  rw [hk, List.take_left]

/-- The state after a message of `xs` that began with an empty encoder: its bytes are emitted, the
encoder is empty again, and the last answer is the bit count (R192, R194). -/
def State.For.afterMessage (s : State.For wSym wCnt) (xs : List (Sym wSym)) (rs : List Response) :
    State.For wSym wCnt :=
  { s with
    encAcc := [], encBits := 0,
    bytesOut := s.bytesOut ++ (BitWriter.appendAll ⟨[], []⟩ (s.codesOf xs)).flush,
    responses := rs ++ [⟨.ok, BitVec.ofNat 32 (s.codesOf xs).length⟩] }

theorem State.For.sameTree_afterMessage (s : State.For wSym wCnt) (xs : List (Sym wSym))
    (rs : List Response) : s.SameTree (s.afterMessage xs rs) := ⟨rfl, rfl, rfl, rfl, rfl, rfl⟩

/-- Settles O50: the payload's bits are the codes of `xs`
(`BitWriter.take_bytesBits_flush_appendAll`), whose bit steps go from the root to the root and emit
`xs` (`TreeOk.decRun_codesOf`), so `DEC_END` answers OK (`execAll_decodePayload`). -/
theorem roundTrip : Obligations.RoundTrip := by
  intro s xs hinv hf hv hacc henc hcursor hdec hxs hlen
  obtain ⟨_, ⟨hphase, _, _⟩, _, _, htreeOk, hcodesOk⟩ := hinv
  obtain ⟨htree, _⟩ := htreeOk (hphase hv)
  change (s.codesOf xs).length ≤ _ at hlen
  obtain ⟨rs, hencode⟩ := execAll_encodeSeq xs hf hv hxs (by simpa [henc] using hlen)
  rw [hacc, henc, BitVec.ofNat_eq_ofNat, BitVec.zero_add] at hencode
  have hrun := htree.decRun_codesOf (hcodesOk hv) xs hxs []
  rw [← (s.sameTree_afterMessage xs rs).decRun_eq,
    ← BitWriter.take_bytesBits_flush_appendAll (s.codesOf xs)] at hrun
  obtain ⟨u, rs', hdecode, hsyms, hanswer⟩ := execAll_decodePayload (s := s.afterMessage xs rs) _ hf
    (hphase hv) hcursor hdec (BitWriter.flush_appendAll_length (s.codesOf xs)) hlen hrun
  refine ⟨_, u, _, _, hencode, rfl, List.getLast?_concat .., hlen, hdecode, hsyms, ?_⟩
  rw [hanswer, List.getLast?_concat]

end Sys2Proof.Machine
end

section
/-!
PROOFS, spec/60_exceptions.md. A word that decodes to a command runs that command, whose checks are
the checks of rule R245 on the bits of the word; a word that decodes to none fails the check of its
opcode or of its operands. From the order of the checks follows what the fault gate lets through
(R244).
-/

namespace Sys2Proof.Machine

variable {wSym wCnt : Nat}

/-! ## Errors, and a step with nothing presented (R240, R243, R255) -/

/-- Settles O7: a step with an empty port is `idle`. -/
theorem stepHoldsStateWhenIdle : Obligations.StepHoldsStateWhenIdle := by
  intro s hport
  rw [step, hport, runEvents, s.idle_eq]

/-- R243: while `FAULT = 1` an error is answered and latches nothing. -/
theorem State.For.raise_of_fault {s : State.For wSym wCnt} (hf : s.fault = true) (e : Err) :
    s.raise e = s.respond e 0 := by
  rw [State.For.raise, s.latch_of_fault e hf]

/-- Settles O11, by the three cases of `latch`. -/
theorem raiseLatchesFirstFatal : Obligations.RaiseLatchesFirstFatal := by
  refine fun s e => ⟨fun hfatal hf => ?_, ?_⟩
  · simp [State.For.raise, State.For.latch, State.For.respond, hfatal, hf]
  · rintro (hfatal | hf)
    · rw [State.For.raise, s.latch_of_not_fatal hfatal, State.For.respond]
    · rw [s.raise_of_fault hf, State.For.respond]

/-- Settles O12: each of the ten responses has its row of the table. -/
theorem errorCodes : Obligations.ErrorCodes := by
  refine ⟨rfl, fun e => ?_, fun e => ?_⟩ <;> cases e <;> decide

/-! ## Nodes that break R38 (R241) -/

/-- R241: only an `INTERNAL` node can break R38 this way. -/
theorem State.For.kind_of_structureBroken {s : State.For wSym wCnt} {i : NodeIdx wSym}
    (h : s.structureBroken i = true) : (s.nodeAt i).kind = .internal := by
  simp only [State.For.structureBroken, Bool.and_eq_true, beq_iff_eq] at h
  obtain ⟨⟨hkind, _⟩, _⟩ := h
  exact hkind

theorem walk_of_structureBroken {s : State.For wSym wCnt} {i : NodeIdx wSym} (hi : i ≠ .null)
    (h : s.structureBroken i = true) (fuel : Nat) (p : Bits) (table : CodeTable wSym) :
    walk s fuel i p table = none := by
  cases fuel with
  | zero => rfl
  | succ fuel => simp [walk, hi, s.kind_of_structureBroken h, h]

theorem decBit_of_structureBroken {s : State.For wSym wCnt} {d : Decoder wSym}
    (hd : d.cursor ≠ .null) (h : s.structureBroken d.cursor = true) (b : Bool) :
    decBit s d b = none := by
  simp [decBit, hd, s.kind_of_structureBroken h, h]

/-- R241: bit steps that start on such a node stop at their first bit. -/
theorem decRun_of_structureBroken {s : State.For wSym wCnt} {d : Decoder wSym}
    (hd : d.cursor ≠ .null) (h : s.structureBroken d.cursor = true) {bits : Bits}
    (hbits : bits ≠ []) : decRun s d bits = none := by
  obtain ⟨b, bs, rfl⟩ := List.exists_cons_of_ne_nil hbits
  rw [decRun_cons, decBit_of_structureBroken hd h, Option.bind_none]

theorem firstBits_ne_nil {w n : Nat} (v : BitVec w) (hn : 1 ≤ n) : firstBits v n ≠ [] :=
  List.ne_nil_of_length_pos (by rwa [firstBits_length])

/-- Settles O17: every check passes, and the walk and the bit steps stop at their first node. -/
theorem brokenTreeStopsModel : Obligations.BrokenTreeStopsModel := by
  refine ⟨fun s hf ht hroot hbroken => ?_, fun s byte nbits hf ht h1 h8 hroom hcursor hbroken => ?_⟩
  · have htable : genTable s = none := walk_of_structureBroken hroot hbroken _ _ _
    change execGenCodes s = _
    simp [execGenCodes, runChecked_cons, hf, ht, htable, Instr.wf]
  · have hrun : decRun s ⟨s.decCursor, []⟩ (firstBits byte nbits.toNat) = none :=
      decRun_of_structureBroken hcursor hbroken (firstBits_ne_nil byte h1)
    have hfits : bitCountOverflows s.decBits nbits.toNat = false := decide_eq_false (not_lt.2 hroom)
    change execDecByte byte nbits s = _
    simp [execDecByte, runChecked_cons, hf, ht, hfits, wf_decByte byte h1 h8, hrun]

/-! ## Words and their opcodes (R79, R80) -/

/-- A command of each row of R79, in the table's order. -/
def rowCommands : List Instr :=
  [.nop, .clear, .regRead 0, .accum 0, .countRead 0, .build, .nodeRead 0 0, .genCodes, .codeLen 0,
    .codeBits 0 0, .encSym 0, .encFlush, .decByte 0 0, .decEnd]

/-- The opcodes of R79. -/
def opcodes : List Nat := rowCommands.map fun i => (opcodeOf i).toNat

theorem toNat_opcodeOf_mem_opcodes (i : Instr) : (opcodeOf i).toNat ∈ opcodes := by
  cases i <;> simp [opcodes, rowCommands, opcodeOf]

theorem exists_of_toNat_mem_opcodes {op : BitVec 8} (h : op.toNat ∈ opcodes) :
    ∃ i, op = opcodeOf i := by
  obtain ⟨i, _, hi⟩ := List.mem_map.1 h
  exact ⟨i, BitVec.eq_of_toNat_eq hi.symm⟩

/-- R80. -/
theorem decode_of_not_mem_opcodes {w : Word} (h : (opcode w).toNat ∉ opcodes) :
    decode wSym w = .illegalOpcode := by
  rw [decode]
  split
  case h_15 => rfl
  all_goals simp [opcodes, rowCommands, opcodeOf, *] at h

/-- R72 to R77: a word with a command's opcode is legal in the command's format, or its operands are
illegal. -/
theorem formatOf_cases (i : Instr) (w : Word) :
    formatOf wSym i w = .illegalOperand ∨ ∃ j, formatOf wSym i w = .command j := by
  cases i <;> exact (ite_eq_or_eq _ _ _).symm.imp_right fun h => ⟨_, h⟩

/-- R81: the two verdicts and when each is given, or a command. -/
theorem decode_cases (wSym : Nat) (w : Word) :
    ((opcode w).toNat ∉ opcodes ∧ decode wSym w = .illegalOpcode) ∨
    (∃ i, opcode w = opcodeOf i ∧ decode wSym w = .illegalOperand ∧
      formatOf wSym i w = .illegalOperand) ∨
    ∃ i, decode wSym w = .command i := by
  by_cases h : (opcode w).toNat ∈ opcodes
  · obtain ⟨i, hop⟩ := exists_of_toNat_mem_opcodes h
    rw [decode_of_opcode i hop]
    obtain hformat | hformat := formatOf_cases (wSym := wSym) i w
    · exact .inr (.inl ⟨i, hop, hformat, hformat⟩)
    · exact .inr (.inr hformat)
  · exact .inl ⟨h, decode_of_not_mem_opcodes h⟩

/-- R244: the opcodes that the fault gate lets through, by their numbers. -/
theorem isControlOpcode_eq (w : Word) :
    isControlOpcode w = decide ((opcode w).toNat ∈ [0x00, 0x01, 0x02]) := by
  rw [Bool.eq_iff_iff]
  simp [isControlOpcode, ← BitVec.toNat_inj, or_assoc]

/-! ## The checks on the bits of a word (R245) -/

/-- R72 to R77: with a command's opcode the operand checks fail on the words that are illegal in the
command's format. -/
theorem specOperandFails_iff (i : Instr) (w : Word) :
    specOperandFails w (opcodeOf i).toNat = true ↔ formatOf 8 i w = .illegalOperand := by
  cases i with
  | nop | clear | build | genCodes | encFlush | decEnd =>
    simp [specOperandFails, opcodeOf, formatOf, formatN, ← BitVec.toNat_inj]
  | regRead =>
    simp [specOperandFails, opcodeOf, formatOf, formatR, ← BitVec.toNat_inj, BitVec.le_def]
    omega
  | accum | countRead | codeLen | encSym =>
    simp [specOperandFails, opcodeOf, formatOf, formatS, Config.kMax, ← BitVec.toNat_inj]
    omega
  | codeBits =>
    simp [specOperandFails, opcodeOf, formatOf, formatSW, Config.kMax, Config.codeWords,
      Config.lMax]
    omega
  | nodeRead =>
    simp [specOperandFails, opcodeOf, formatOf, formatNI, ← BitVec.toNat_inj, BitVec.le_def]
    omega
  | decByte =>
    simp [specOperandFails, opcodeOf, formatOf, formatB, ← BitVec.toNat_inj, BitVec.le_def]
    omega

/-- The error of a word that is no command, and its verdict behind the fault gate (R244). -/
theorem State.For.rejectWord_eq (s : State.For wSym wCnt) (w : Word) (verdict : Err) :
    s.rejectWord w verdict =
      s.raise (if s.fault && !isControlOpcode w then .faulted else verdict) := by
  rw [State.For.rejectWord]
  split <;> rfl

theorem runWord_of_illegalOpcode {run : Instr → State.For wSym wCnt → Outcome wSym wCnt} {w : Word}
    (s : State.For wSym wCnt) (h : decode wSym w = .illegalOpcode) :
    runWord run w s =
      .next (s.raise (if s.fault && !isControlOpcode w then .faulted else .illegalOpcode)) := by
  rw [runWord, h, ← s.rejectWord_eq]

theorem runWord_of_illegalOperand {run : Instr → State.For wSym wCnt → Outcome wSym wCnt} {w : Word}
    (s : State.For wSym wCnt) (h : decode wSym w = .illegalOperand) :
    runWord run w s =
      .next (s.raise (if s.fault && !isControlOpcode w then .faulted else .illegalOperand)) := by
  rw [runWord, h, ← s.rejectWord_eq]

theorem specChecks_of_no_opcode (s : State) {w : Word} (h : (opcode w).toNat ∉ opcodes) :
    specChecks s w =
      some (if s.fault && !isControlOpcode w then .faulted else .illegalOpcode) := by
  rw [isControlOpcode_eq, apply_ite some, specChecks]
  exact if_congr .rfl rfl (if_pos h)

theorem specChecks_of_illegal_operand (s : State) {w : Word} {i : Instr}
    (hop : opcode w = opcodeOf i) (h : formatOf 8 i w = .illegalOperand) :
    specChecks s w =
      some (if s.fault && !isControlOpcode w then .faulted else .illegalOperand) := by
  have hmem : (opcode w).toNat ∈ opcodes := hop ▸ toNat_opcodeOf_mem_opcodes i
  have hfails : specOperandFails w (opcode w).toNat = true := hop ▸ (specOperandFails_iff i w).2 h
  rw [isControlOpcode_eq, apply_ite some, specChecks]
  exact if_congr .rfl rfl ((if_neg (not_not.2 hmem)).trans (if_pos hfails))

/-! ## The checks of a command (R245) -/

/-- R245 step 6: what runs when no check failed responds OK, or TRUNCATED. -/
def Completes (s : State.For wSym wCnt) (run : Outcome wSym wCnt) : Prop :=
  ∀ t, run = .next t →
    ∃ r, t.responses = s.responses ++ [r] ∧ (r.err = .ok ∨ r.err = .truncated)

theorem completes_respond {s u : State.For wSym wCnt} {err : Err} (data : Word)
    (hu : u.responses = s.responses) (herr : err = .ok ∨ err = .truncated) :
    Completes s (.next (u.respond err data)) := by
  rintro _ ⟨⟩
  exact ⟨⟨err, data⟩, by rw [State.For.respond_responses, hu], herr⟩

theorem completes_fault (s : State.For wSym wCnt) (f : Fault) : Completes s (.fault f) := nofun

theorem State.For.totalFull_eq (s : State) :
    s.totalFull = decide (s.total.toNat = 2 ^ 32 - 1) := by
  rw [State.For.totalFull, Bool.eq_iff_iff, beq_iff_eq, decide_eq_true_iff, ← BitVec.toNat_inj,
    BitVec.toNat_allOnes]

theorem extractLsb'_of_decode_encSym {w : Word} {sym : BitVec 16}
    (h : decode 8 w = .command (.encSym sym)) : w.extractLsb' 0 8 = fieldSym sym := by
  obtain ⟨henc, _⟩ := (decode_eq_command_iff _).1 h
  obtain ⟨_, harea⟩ := (encode_eq_iff _ w).1 henc
  obtain ⟨_, rfl⟩ := (extractLsb'_eq_append_iff w 0 (0 : BitVec 8) sym).1 harea
  ext i hi
  simp [fieldSym]
  omega

theorem extractLsb'_of_decode_decByte {w : Word} {byte : Byte} {nbits : BitVec 4}
    (h : decode 8 w = .command (.decByte byte nbits)) : w.extractLsb' 8 4 = nbits := by
  obtain ⟨henc, _⟩ := (decode_eq_command_iff _).1 h
  obtain ⟨_, harea⟩ := (encode_eq_iff _ w).1 henc
  obtain ⟨hhigh, _⟩ := (extractLsb'_eq_append_iff w 0 ((0 : BitVec 12) ++ nbits) byte).1 harea
  exact ((extractLsb'_eq_append_iff w 8 (0 : BitVec 12) nbits).1 hhigh).2

/-- A word that decodes to a command runs it behind the checks of R245 on the bits of the word. -/
theorem exists_checks_of_decode (s : State) {w : Word} {i : Instr} (h : decode 8 w = .command i) :
    ∃ cs run, exec i s = runChecked s cs run ∧ firstError cs = specChecks s w ∧
      Completes s run := by
  have hwf : i.wf 8 = true := ((decode_eq_command_iff i).1 h).2
  have hop : w.extractLsb' 24 8 = opcodeOf i := opcode_of_decode_eq_command h
  have hlegal : specOperandFails w (opcodeOf i).toNat = false := by
    rw [Bool.eq_false_iff, ne_eq, specOperandFails_iff, ← decode_of_opcode i hop, h]
    nofun
  cases i <;> simp [opcodeOf] at hop hlegal
  case nop =>
    refine ⟨noGate 8 .nop, _, rfl, ?_, completes_respond s.status rfl (.inl rfl)⟩
    simp [hwf, specChecks, hop, hlegal, specPhaseFails]
  case clear =>
    refine ⟨noGate 8 .clear, _, rfl, ?_, completes_respond 0 s.clearCore_responses (.inl rfl)⟩
    simp [hwf, specChecks, hop, hlegal, specPhaseFails]
  case regRead | accum | countRead | build | nodeRead | codeLen | codeBits | encFlush =>
    refine ⟨_, _, rfl, ?_, completes_respond _ rfl (.inl rfl)⟩
    simp [hwf, specChecks, hop, hlegal, specPhaseFails, s.totalFull_eq]
  case genCodes =>
    refine ⟨_, _, rfl, ?_, ?_⟩
    · simp [hwf, specChecks, hop, hlegal, specPhaseFails]
    · cases genTable s with
      | none => exact completes_fault s _
      | some table => exact completes_respond _ rfl (.inl rfl)
  case encSym =>
    refine ⟨_, _, rfl, ?_, completes_respond _ rfl (.inl rfl)⟩
    simp [hwf, specChecks, hop, hlegal, specPhaseFails, bitCountOverflows,
      extractLsb'_of_decode_encSym h]
  case decByte byte nbits =>
    refine ⟨_, _, rfl, ?_, ?_⟩
    · simp [hwf, specChecks, hop, hlegal, specPhaseFails, bitCountOverflows,
        extractLsb'_of_decode_decByte h]
    · cases decRun s ⟨s.decCursor, []⟩ (firstBits byte nbits.toNat) with
      | none => exact completes_fault s _
      | some d => exact completes_respond _ rfl (.inl rfl)
  case decEnd =>
    refine ⟨_, _, rfl, ?_, completes_respond _ rfl ?_⟩
    · simp [hwf, specChecks, hop, hlegal, specPhaseFails]
    · exact (ite_eq_or_eq _ _ _).symm

/-- Settles O13: a word that is no command is turned away, and a command is checked as the rule
says (`exists_checks_of_decode`). -/
theorem checksInOrder : Obligations.ChecksInOrder := by
  intro s w
  obtain ⟨hno, hdecode⟩ | ⟨i, hop, hdecode, hformat⟩ | ⟨i, hdecode⟩ := decode_cases 8 w
  · rw [specChecks_of_no_opcode s hno, runWord_of_illegalOpcode s hdecode]
  · rw [specChecks_of_illegal_operand s hop hformat, runWord_of_illegalOperand s hdecode]
  · obtain ⟨cs, run, hexec, hfirst, hcompletes⟩ := exists_checks_of_decode s hdecode
    rw [runWord_of_decode s hdecode, hexec, ← hfirst, runChecked]
    cases firstError cs with
    | some e => rfl
    | none => exact ⟨⟨i, hdecode⟩, hcompletes⟩

/-! ## The fault gate (R244) -/

theorem isControlOpcode_iff (w : Word) : isControlOpcode w = true ↔ (opcode w).toNat ≤ 2 := by
  rw [isControlOpcode_eq, decide_eq_true_iff]
  simp
  omega

theorem specChecks_of_gate {s : State} {w : Word} (hf : s.fault = true)
    (hw : isControlOpcode w = false) : specChecks s w = some .faulted := by
  rw [isControlOpcode_eq] at hw
  exact if_pos (by rw [hf, ← opcode, hw]; rfl)

theorem execRegRead_of_wf {sel : BitVec 4} (s : State.For wSym wCnt)
    (h : Instr.wf wSym (.regRead sel) = true) :
    execRegRead sel s = .next (s.respond .ok (s.regValue sel)) := by
  simp [execRegRead, runChecked_cons, h]

/-- The commands that run while `FAULT = 1` pass their checks in every state. -/
theorem exec_of_control {i : Instr} (s : State) (hi : (opcodeOf i).toNat ≤ 2)
    (hwf : i.wf 8 = true) :
    ∃ (u : State) (d : Word), exec i s = .next (u.respond .ok d) ∧ u.responses = s.responses := by
  cases i with
  | nop => exact ⟨_, _, execNop_eq s, rfl⟩
  | clear => exact ⟨_, _, execClear_eq s, s.clearCore_responses⟩
  | regRead sel => exact ⟨_, _, execRegRead_of_wf s hwf, rfl⟩
  | _ => simp [opcodeOf] at hi

/-- Settles O14: for the other opcodes the gate is the first check of R245, and words with a control
command's opcode are rejected with their verdict or run (`exec_of_control`). -/
theorem faultGate : Obligations.FaultGate := by
  refine fun s w hf => ⟨fun hop => ?_, fun hop => ?_⟩
  · have hw : isControlOpcode w = false := Bool.eq_false_iff.2 (mt (isControlOpcode_iff w).1 hop)
    have hchecks := checksInOrder s w
    rw [specChecks_of_gate hf hw] at hchecks
    rw [hchecks, s.raise_of_fault hf, State.For.respond]
  · have hw : isControlOpcode w = true := (isControlOpcode_iff w).2 hop
    obtain ⟨hno, _⟩ | ⟨i, _, hdecode, _⟩ | ⟨i, hdecode⟩ := decode_cases 8 w
    · rw [isControlOpcode_eq, decide_eq_true_iff] at hw
      have hsub : [0x00, 0x01, 0x02] ⊆ opcodes := by decide
      exact absurd (hsub hw) hno
    · refine .inl ⟨hdecode, ?_⟩
      rw [runWord_of_illegalOperand s hdecode, hw, s.raise_of_fault hf, State.For.respond]
      simp
    · obtain ⟨_, hwf⟩ := (decode_eq_command_iff i).1 hdecode
      have hi : (opcodeOf i).toNat ≤ 2 := opcode_of_decode_eq_command hdecode ▸ hop
      obtain ⟨u, d, hexec, hu⟩ := exec_of_control s hi hwf
      refine .inr ⟨i, _, hdecode, (runWord_of_decode s hdecode).trans hexec, d, ?_⟩
      rw [State.For.respond_responses, hu]

end Sys2Proof.Machine
end

section
/-!
PROOFS, spec/70_reset_and_hazards.md. A reset event is `clearCore` after the event is taken, and so
is `CLEAR` but for its answer (R271). Every register a first command reads is 0 or `NULL` (R272).
-/

namespace Sys2Proof.Machine

variable {wSym wCnt : Nat}

/-! ## `CLEAR` and the reset event (R270, R271) -/

theorem step_of_port_eq_reset {s : State} {rest : List HostEvent} (h : s.port = .reset :: rest) :
    step s = .next (s.takeEvent rest).clearCore := by
  rw [step, h, runEvents]

/-- Settles O9: the reset event is `clearCore`, and `CLEAR` is `clearCore` with its answer. -/
theorem clearSameAsReset : Obligations.ClearSameAsReset :=
  fun s rest hport =>
    ⟨(s.takeEvent rest).clearCore, step_of_port_eq_reset hport, execClear_eq (s.takeEvent rest)⟩

/-! ## The first reads after reset (R272) -/

/-- R35, R40: at the reset values every field of `STATUS` is 0. -/
theorem State.For.AtReset.status_eq_zero {s : State.For wSym wCnt} (h : s.AtReset) :
    s.status = 0 := by
  obtain ⟨_, _, hdistinct, htree, _, _, _, hcodes, hacc, _, _, _, hfault, _⟩ := h
  simp [State.For.status, State.For.encPending, State.For.decMidcode, hdistinct, htree, hcodes,
    hacc, hfault]

/-- Settles O10: no check of the three reads can fail, and each register read holds its reset
value. -/
theorem readsAfterReset : Obligations.ReadsAfterReset := by
  intro s h
  have hstatus : s.status = 0 := h.status_eq_zero
  obtain ⟨hcount, _, _, _, hroot, _, _, _, _, _, _, _, hfault, _⟩ := h
  refine ⟨?_, ?_, fun x => ?_⟩
  · have hnop := nopAnswersStatus s
    rwa [hstatus] at hnop
  · have hnull : s.regValue 2 = 0x1FF := by
      change zext32 s.root = 0x1FF
      rw [hroot]
      decide
    have hread := execRegRead_of_wf (sel := 2) s (by decide)
    rwa [hnull] at hread
  · have hread := countReadAnswers x s hfault
    rwa [hcount x] at hread

end Sys2Proof.Machine
end
